-- ==== Sys2Proof/Word.lean ====
section
/-! DEFINITION. The words of the block: bytes, 5-bit register addresses, the three-bit pipe field, pipe
identities and 5-byte radio addresses (spec/00_scope.md R5, R6; spec/10_state.md R20, R28). -/

namespace Sys2Proof

/-- One byte on the bus; bits are numbered 7 down to 0 (R6). -/
abbrev Byte := BitVec 8

/-- A register address: `ADDR_BITS = 5` (R5, R20). -/
abbrev RegAddr := BitVec 5

/-- The identity of a receive pipe: `N_PIPES = 6`, identities 0 to 5 (R5). -/
abbrev Pipe := Fin 6

/-- The value of an address register: `ADDR_WIDTH_BYTES = 5` bytes in bus order (R5, R62). -/
abbrev Address := Vector Byte 5

/-- The largest payload in bytes, `MAX_PAYLOAD` (R5). -/
def maxPayload : Nat := 32

end Sys2Proof
end

