-- ==== Sys2Proof/Syntax.lean ====
section
/-! DEFINITION. The register names (spec/10_state.md R20) and the commands (spec/30_encoding.md R88, R89):
one constructor of `Instr` for each command of the opcode table, whose operand is what the table's rows of that
command differ in (the register, the pipe, the reserved byte). -/

namespace Sys2Proof

/-- The 22 registers of the register file (R20). -/
inductive Reg where
  | config
  | enAa
  | enRxaddr
  | rfCh
  | rfSetup
  | status
  /-- RX_ADDR_P0 to RX_ADDR_P5 -/
  | rxAddr (p : Pipe)
  | txAddr
  /-- RX_PW_P0 to RX_PW_P5 -/
  | rxPw (p : Pipe)
  | fifoStatus
  | dynpd
  | feature
  deriving DecidableEq, Repr

/-- The 22 registers in the order of the table of R20. -/
def Reg.all : List Reg :=
  [.config, .enAa, .enRxaddr, .rfCh, .rfSetup, .status,
   .rxAddr 0, .rxAddr 1, .rxAddr 2, .rxAddr 3, .rxAddr 4, .rxAddr 5, .txAddr,
   .rxPw 0, .rxPw 1, .rxPw 2, .rxPw 3, .rxPw 4, .rxPw 5, .fifoStatus, .dynpd, .feature]

/-- A command: what the command byte of a frame says (R88). The data bytes of a frame are not part of
the command; they arrive one by one (R80, R82). -/
inductive Instr where
  /-- read the register (R100): 22 rows of the table, one per register -/
  | rRegister (r : Reg)
  /-- write the register (R105): 22 rows, one per register -/
  | wRegister (r : Reg)
  /-- read the payload at the head of the receive FIFO (R130) -/
  | rRxPayload
  /-- queue a payload for transmission (R132) -/
  | wTxPayload
  /-- queue an acknowledge payload for the pipe in the field PPP (R86, R133): 2 rows -/
  | wAckPayload (ppp : BitVec 3)
  /-- empty the transmit FIFO (R134) -/
  | flushTx
  /-- empty the receive FIFO (R135) -/
  | flushRx
  /-- do nothing, return STATUS (R136) -/
  | nop
  /-- a command byte with no defined command, or a register command to an unmapped address (R90, R104): 41 rows -/
  | reserved (b : Byte)
  deriving DecidableEq, Repr

end Sys2Proof
end

