-- ==== Sys2Proof/Config.lean ====
section
/-! DEFINITION. What an implementation fixes (the parameters of spec/00_scope.md R5) and the free values
(the spec's `draw`). The parameters are plain data: the state carries one value of `Params`, no step changes it, and a
statement about every state therefore holds for every choice of them (R5). -/

namespace Sys2Proof

/-- The stored registers of the register file: 13 registers of one byte and 7 of five (R20 to R39).
STATUS and FIFO_STATUS are derived, not stored (R26, R36). -/
structure Regs where
  config   : Byte
  enAa     : Byte
  enRxaddr : Byte
  rfCh     : Byte
  rfSetup  : Byte
  rxAddr   : Vector Address 6
  txAddr   : Address
  rxPw     : Vector Byte 6
  dynpd    : Byte
  feature  : Byte
  deriving DecidableEq, Repr

/-- The parameters `ADDR_<reg>` (R5, R20). -/
structure RegAddrs where
  config     : RegAddr
  enAa       : RegAddr
  enRxaddr   : RegAddr
  rfCh       : RegAddr
  rfSetup    : RegAddr
  status     : RegAddr
  rxAddr     : Vector RegAddr 6
  txAddr     : RegAddr
  rxPw       : Vector RegAddr 6
  fifoStatus : RegAddr
  dynpd      : RegAddr
  feature    : RegAddr
  deriving DecidableEq, Repr

/-- The over-the-air rates the driver names (R181, R195). -/
inductive DataRate where
  | kbps250
  | mbps1
  | mbps2
  deriving DecidableEq, Repr, Inhabited

/-- The RF output powers the driver names, in the source's figures (R181, R196). -/
inductive RfPower where
  | dbm0
  | dbm6
  | dbm12
  | dbm18
  deriving DecidableEq, Repr

/-- The CRC widths the driver names (R197). -/
inductive CrcWidth where
  | none
  | bits8
  | bits16
  deriving DecidableEq, Repr

/-- `PWR_CODE`, the 2-bit code of each output power (R196, D35). -/
structure PwrCode where
  dbm0  : BitVec 2
  dbm6  : BitVec 2
  dbm12 : BitVec 2
  dbm18 : BitVec 2
  deriving DecidableEq, Repr

/-- The parameters the source does not fix (R5, and 92_eei_decisions.md, 'Open parameters in one list').
`CE_MIN_PULSE` is the source's own figure and a time on which no rule depends (R275, R284); it is not here. -/
structure Params where
  opcRRxPayload     : Byte
  opcWTxPayload     : Byte
  opcFlushTx        : Byte
  opcFlushRx        : Byte
  opcWAckPayload    : Byte
  opcNop            : Byte
  addrs             : RegAddrs
  fifoDepth         : Nat
  crcForcedByAa     : Bool
  resetRegs         : Regs
  initCrc           : CrcWidth
  /-- in microseconds; the driver waits so long in `start_listening` (R190), which in the untimed model changes
  nothing (R276, U24) -/
  listenDelay       : Nat
  pwrCode           : PwrCode
  devDefaultChannel : Nat
  devDefaultRate    : DataRate
  devDefaultPower   : RfPower
  devDefaultPayload : Nat
  deriving DecidableEq, Repr

/-- The default addresses of the table of R20. -/
def RegAddrs.default : RegAddrs where
  config     := 0x00
  enAa       := 0x01
  enRxaddr   := 0x02
  rfCh       := 0x05
  rfSetup    := 0x06
  status     := 0x07
  rxAddr     := #v[0x0A, 0x0B, 0x0C, 0x0D, 0x0E, 0x0F]
  txAddr     := 0x10
  rxPw       := #v[0x11, 0x12, 0x13, 0x14, 0x15, 0x16]
  fifoStatus := 0x17
  dynpd      := 0x1C
  feature    := 0x1D

/-- The default reset values of R261 (R20 gives the same). -/
def Regs.default : Regs where
  config   := 0x08
  enAa     := 0x3F
  enRxaddr := 0x03
  rfCh     := 0x02
  rfSetup  := 0x0F
  rxAddr   := #v[#v[0xE7, 0xE7, 0xE7, 0xE7, 0xE7], #v[0xC2, 0xC2, 0xC2, 0xC2, 0xC2],
                 #v[0xC3, 0xC2, 0xC2, 0xC2, 0xC2], #v[0xC4, 0xC2, 0xC2, 0xC2, 0xC2],
                 #v[0xC5, 0xC2, 0xC2, 0xC2, 0xC2], #v[0xC6, 0xC2, 0xC2, 0xC2, 0xC2]]
  txAddr   := #v[0xE7, 0xE7, 0xE7, 0xE7, 0xE7]
  rxPw     := #v[0, 0, 0, 0, 0, 0]
  dynpd    := 0x00
  feature  := 0x00

/-- The default values of the parameters (R5). The spec gives no default for `INIT_CRC`, `LISTEN_DELAY` and
the four `DEV_DEFAULT_*`: DESIGN CHOICE, notes/assumptions/8.md. -/
def Params.default : Params where
  opcRRxPayload     := 0x61
  opcWTxPayload     := 0xA0
  opcFlushTx        := 0xE1
  opcFlushRx        := 0xE2
  opcWAckPayload    := 0xA8
  opcNop            := 0xFF
  addrs             := RegAddrs.default
  fifoDepth         := 3
  crcForcedByAa     := false
  resetRegs         := Regs.default
  initCrc           := .bits16
  listenDelay       := 0
  pwrCode           := { dbm0 := 0b11, dbm6 := 0b10, dbm12 := 0b01, dbm18 := 0b00 }
  devDefaultChannel := 0
  devDefaultRate    := .mbps1
  devDefaultPower   := .dbm0
  devDefaultPayload := 0

/-- `ADDR_<reg>` of a register (R20). -/
def Params.addrOf (p : Params) : Reg → RegAddr
  | .config     => p.addrs.config
  | .enAa       => p.addrs.enAa
  | .enRxaddr   => p.addrs.enRxaddr
  | .rfCh       => p.addrs.rfCh
  | .rfSetup    => p.addrs.rfSetup
  | .status     => p.addrs.status
  | .rxAddr q   => p.addrs.rxAddr[q]
  | .txAddr     => p.addrs.txAddr
  | .rxPw q     => p.addrs.rxPw[q]
  | .fifoStatus => p.addrs.fifoStatus
  | .dynpd      => p.addrs.dynpd
  | .feature    => p.addrs.feature

/-- The register at an address, if one is mapped there (R20, R40). -/
def Params.regAt (p : Params) (a : RegAddr) : Option Reg :=
  Reg.all.find? fun r => p.addrOf r == a

/-- `draw(8)`: the n-th byte the spec leaves to the hardware (R7, R82, R103, R130). A free value: nothing
constrains it. notes/assumptions/5.md. -/
opaque Config.draw : Nat → Byte

/-- What the driver's `data_rate()` returns for the reserved pattern of the rate bits (R195, U19). A free
value. notes/assumptions/5.md. -/
opaque Config.reservedRate : Nat → DataRate

end Sys2Proof
end

