-- ==== Sys2Proof/WellFormed.lean ====
section
/-! DEFINITION. Which commands are well formed, and which choices of command bytes and addresses are
admissible (spec/30_encoding.md R86, R89, R90; 92_eei_decisions.md D2, D3). -/

namespace Sys2Proof

/-- A byte of the two register formats: its top three bits are `000` or `001` (R84). -/
def isRegByte (b : Byte) : Bool := b.extractLsb' 6 2 == 0#2

/-- A byte of format ACK with a legal pipe: the base's five high bits and PPP at most 5 (R86). -/
def isAckByte (p : Params) (b : Byte) : Bool :=
  b.extractLsb' 3 5 == p.opcWAckPayload.extractLsb' 3 5 && decide (b.extractLsb' 0 3 ≤ 5#3)

/-- The command bytes with a defined command (R89): register commands to a mapped address and the eleven
others. -/
def isDefinedByte (p : Params) (b : Byte) : Bool :=
  if isRegByte b then (p.regAt (b.extractLsb' 0 5)).isSome
  else b == p.opcRRxPayload || b == p.opcWTxPayload || isAckByte p b
    || b == p.opcFlushTx || b == p.opcFlushRx || b == p.opcNop

/-- A well-formed command: the pipe of an acknowledge payload is 0 to 5 (R86: 6 and 7 are reserved), and a
reserved byte is one that no defined command has (R90). -/
def Instr.wf (p : Params) : Instr → Bool
  | .rRegister _     => true
  | .wRegister _     => true
  | .rRxPayload      => true
  | .wTxPayload      => true
  | .wAckPayload ppp => decide (ppp ≤ 5#3)
  | .flushTx         => true
  | .flushRx         => true
  | .nop             => true
  | .reserved b      => !isDefinedByte p b

/-- The admissible choices of command bytes and addresses: 'all distinct, none with top three bits `000` or
`001`' (D2), the pipe field of the acknowledge base clear (R86), addresses distinct (D3; below 32 by their type). -/
def Params.mapOk (p : Params) : Bool :=
  let fixed := [p.opcRRxPayload, p.opcWTxPayload, p.opcFlushTx, p.opcFlushRx, p.opcNop]
  decide fixed.Nodup
    && fixed.all (fun b => !isRegByte b && !isAckByte p b)
    && !isRegByte p.opcWAckPayload
    && p.opcWAckPayload.extractLsb' 0 3 == 0#3
    && decide (Reg.all.map p.addrOf).Nodup

end Sys2Proof
end

