-- ==== Sys2Proof/Decode.lean ====
section
/-! DEFINITION. Decoding and encoding of the command byte (spec/30_encoding.md R84 to R91) and of a whole
frame (R80). -/

namespace Sys2Proof

/-- `decode` (R88): total, a function of the command byte and the parameters alone (R91). A register
command to an unmapped address is `reserved` (R90, R104; the opcode table's RESERVED rows). -/
def decodeByte (p : Params) (b : Byte) : Instr :=
  if b.extractLsb' 5 3 == 0b000#3 then
    match p.regAt (b.extractLsb' 0 5) with
    | some r => .rRegister r
    | none   => .reserved b
  else if b.extractLsb' 5 3 == 0b001#3 then
    match p.regAt (b.extractLsb' 0 5) with
    | some r => .wRegister r
    | none   => .reserved b
  else if b == p.opcRRxPayload then .rRxPayload
  else if b == p.opcWTxPayload then .wTxPayload
  else if b.extractLsb' 3 5 == p.opcWAckPayload.extractLsb' 3 5 && decide (b.extractLsb' 0 3 ≤ 5#3) then
    .wAckPayload (b.extractLsb' 0 3)
  else if b == p.opcFlushTx then .flushTx
  else if b == p.opcFlushRx then .flushRx
  else if b == p.opcNop then .nop
  else .reserved b

/-- The command byte of a command: `opcode | address`, both operand fields zero-extended (R84 to R87). -/
def encodeByte (p : Params) : Instr → Byte
  | .rRegister r     => 0x00#8 ||| (p.addrOf r).zeroExtend 8
  | .wRegister r     => 0x20#8 ||| (p.addrOf r).zeroExtend 8
  | .rRxPayload      => p.opcRRxPayload
  | .wTxPayload      => p.opcWTxPayload
  | .wAckPayload ppp => p.opcWAckPayload ||| ppp.zeroExtend 8
  | .flushTx         => p.opcFlushTx
  | .flushRx         => p.opcFlushRx
  | .nop             => p.opcNop
  | .reserved b      => b

/-- Why a frame does not decode: it ended before any byte was exchanged (R83). -/
inductive DecodeReject where
  | noCommandByte
  deriving DecidableEq, Repr

/-- A frame's bytes: the first is the command byte, the rest are its data bytes (R80). -/
def decodeFrame (p : Params) : List Byte → Except DecodeReject (Instr × List Byte)
  | []      => .error .noCommandByte
  | b :: ds => .ok (decodeByte p b, ds)

/-- A number of at most 32 bytes as the bytes it is stored as, the least significant byte first. -/
def wordBytes (w : Nat) : Nat → List Byte
  | 0     => []
  | n + 1 => BitVec.ofNat 8 w :: wordBytes (w / 256) n

/-- What the decoder reads from an instruction of `nbits` bits whose bits are `w`, under the default
parameters: the command byte is the first byte (the table's rows are 8 bits wide). -/
def decodeTableWord (nbits w : Nat) : Option Instr :=
  match decodeFrame Params.default (wordBytes w (nbits / 8)) with
  | .ok (i, _) => some i
  | .error _   => none

/-- The host's `frame(opcode, address) = opcode | address`, with its check `address < 32` (R87, R184): a call
with a larger address issues nothing. -/
def frameByte (opcode : Byte) (address : Nat) : Option Byte :=
  if address < 32 then some (opcode ||| BitVec.ofNat 8 address) else none

end Sys2Proof
end

