-- ==== Sys2Proof/Machine/State.lean ====
section
/-! DEFINITION. The state of the block (spec/10_state.md R10 to R39), the parameters, the host's driver
object (spec/43_host_sequences.md R181) and the steps the agents are going to perform (spec/00_scope.md R8), as plain
data; the reasons a step can be refused; the state after reset (spec/70_reset_and_hazards.md R260, R261). -/

namespace Sys2Proof.Machine

/-- The kind of an entry of the transmit FIFO: written by W_TX_PAYLOAD, or by W_ACK_PAYLOAD for a pipe (R17). -/
inductive TxKind where
  | tx
  | ack (pipe : Pipe)
  deriving DecidableEq, Repr

/-- An entry of `TXF` (R17). -/
structure TxEntry where
  kind : TxKind
  data : List Byte
  deriving DecidableEq, Repr

/-- An entry of `RXF` (R18). -/
structure RxEntry where
  pipe : Pipe
  data : List Byte
  deriving DecidableEq, Repr

/-- The five operating modes, a function of the state (R150). -/
inductive Mode where
  | powerDown
  | transmitReady
  | receiveReady
  | listening
  | transmitting
  deriving DecidableEq, Repr

/-! ### The host's driver (R181) -/

/-- The driver's three-valued `OperationMode` (R151, R181). -/
inductive OpMode where
  | powerDown
  | transceiver
  | receiver
  deriving DecidableEq, Repr

/-- The driver's `InterruptMode` (R211). -/
inductive InterruptMode where
  | none
  | rxOnly
  | txOnly
  | rxAndTx
  | retransmitOnly
  | txAndRetransmit
  deriving DecidableEq, Repr

/-- What a driver reader returns to its caller. -/
inductive DriverResult where
  | nothing
  | byte (b : Byte)
  | bytes (bs : List Byte)
  | mhz (f : Nat)
  | rate (r : DataRate)
  | power (p : RfPower)
  | mode (m : OpMode)
  | size (n : Nat)
  deriving DecidableEq, Repr

/-- The driver operations, the pseudo-instructions of spec/43_host_sequences.md (R182 to R212). A callback is
named by a number: what it does is application logic (R4), only its attachment is kept. -/
inductive DriverOp where
  | readRegister (addr : Nat)
  | readRegisterN (addr length : Nat)
  | writeRegister (addr : Nat) (b : Byte)
  | writeRegisterN (addr : Nat) (bytes : List Byte)
  | rmw (r : Reg) (keep bits : Byte)
  | powerUp
  | powerDown
  | setMode (m : OpMode)
  | mode
  | setPowerUpAndMode (m : OpMode)
  | initialise (m : OpMode) (r : DataRate) (frequency : Nat)
  | startListening
  | stopListening
  | setChannel (c : Nat)
  | channel
  | setRfFrequency (f : Nat)
  | rfFrequency
  | setDataRate (r : DataRate)
  | dataRate
  | setRfOutputPower (p : RfPower)
  | rfOutputPower
  | setCrc (w : CrcWidth)
  | setAutoAck (enable : Bool)
  | setAutoAckPipe (enable : Bool) (pipe : Nat)
  | attachReceiveAddress (pipe : Nat) (a : Address)
  | setPayloadSize (pipe size : Nat)
  | payloadSize
  | attachReceivePayload (pipe : Nat) (a : Address) (size : Nat)
  | attachTransmittingPayload (pipe : Nat) (a : Address) (size : Nat)
  | setTxAddress (a : Address)
  | txAddress
  | rxAddress (pipe : Nat)
  | sendPacket (buffer : List Byte)
  | startTransfer
  | readPacket (length : Nat)
  | flushRx
  | flushTx
  | statusRegister
  | fifoStatusRegister
  | configStatusRegister
  | clearInterruptFlags
  | setInterrupt (m : InterruptMode)
  | attach (callback : Option Nat)
  deriving DecidableEq, Repr

/-- A write of the driver's own cache (R181), done by the host with no bus traffic. -/
inductive CacheWrite where
  | mode (m : OpMode)
  /-- the mode bit 0 of the byte just read says (R185) -/
  | modeFromConfig
  | rate (r : DataRate)
  | power (p : RfPower)
  | channel (n : Nat)
  | payloadSize (n : Nat)
  | callback (cb : Option Nat)
  deriving DecidableEq, Repr

/-- How a driver reader makes its result from the bytes of the frame it sent, or from the cache. -/
inductive Reader where
  /-- `v` of `[s0, v]` -/
  | data
  /-- `v1 .. vn` of `[s0, v1 .. vn]` -/
  | allData
  /-- `s0` -/
  | status
  /-- `2400 + v` (R193) -/
  | frequency
  /-- the rate bits of `v` (R195) -/
  | rate
  /-- the power bits of `v` (R196) -/
  | power
  /-- the cached mode (R187) -/
  | cachedMode
  /-- the cached payload size (R201) -/
  | cachedPayloadSize
  deriving DecidableEq, Repr

/-- The driver object `dev` (R181), with what it has handed to its caller. -/
structure Dev where
  mode        : OpMode
  rate        : DataRate
  power       : RfPower
  channel     : Nat
  payloadSize : Nat
  /-- the one callback slot (R212) -/
  cb          : Option Nat
  /-- the callback invocations delivered so far, oldest first (R240); the model's own record -/
  calls       : List Nat
  /-- what the last reader returned; the model's own record -/
  result      : DriverResult
  deriving DecidableEq, Repr

/-! ### The steps of the agents (R8) -/

/-- One step of an agent (R8). The bus steps carry the host's byte, the radio's events what arrived. -/
inductive Action where
  /-- host, bus: R81 -/
  | csnFall
  /-- host, bus: R82 -/
  | xfer (m : Byte)
  /-- host, bus: R83 -/
  | csnRise
  /-- host, bus: a whole frame with no other agent's step inside it (R8, R93) -/
  | frame (bytes : List Byte)
  /-- host, enable line: R155 -/
  | ceHigh
  /-- host, enable line: R156 -/
  | ceLow
  /-- host, enable line: the composite of R157 -/
  | cePulse
  /-- the block: R160 -/
  | txStart
  /-- the radio: R165 -/
  | evRx (pipe : Nat) (data : List Byte)
  /-- the radio: R166 -/
  | evTxOk
  /-- the radio: R167 -/
  | evTxFail
  /-- the radio: R168 -/
  | evAckDone (pipe : Nat)
  /-- the supply: R260 -/
  | reset
  /-- host, driver: a pseudo-instruction, replaced by its expansion (R180). Each number of `gaps` draws a step, or
  a frame of the callback, placed behind it in between the operation's own: so many of those pass first (R71, R180) -/
  | op (o : DriverOp) (gaps : List Nat)
  /-- host, driver: the byte just read becomes `c` of an `rmw` of the register, whose second frame is still to come
  (R183) -/
  | keep (r : Reg)
  /-- host, driver: the second frame of `rmw`, which writes back what `c` gives (R183) -/
  | writeBack (r : Reg) (keep bits : Byte)
  /-- host, bus: the command byte of that frame, exchanged alone (R82, R183) -/
  | backCmd (r : Reg)
  /-- host, bus: its data byte, exchanged alone (R82, R183) -/
  | backData (r : Reg) (keep bits : Byte)
  /-- host, driver: waiting, which changes nothing in the untimed model (R190, R284) -/
  | wait (delay : Nat)
  /-- host: the exclusive access changes hands, to the callback before its steps and back after them (R213) -/
  | acquire
  /-- host, driver: a write of the cache (R181) -/
  | cache (w : CacheWrite)
  /-- host, driver: a reader's result -/
  | ret (r : Reader)
  deriving DecidableEq, Repr

/-! ### Outcomes -/

/-- The block raises no exception and has no fault outcome (R9, R230): there is no fault. -/
inductive Fault where
  deriving DecidableEq, Repr

/-- Why a step has no meaning (R9: `refuse(reason)`); each is safe: nothing is claimed of a run that contains
one. -/
inductive Refusal where
  /-- exec: an instruction the model has not reached; safe -/
  | notModelled (mnemonic : String)
  /-- RESERVED at its command byte: no source gives the byte a meaning (R90, R104); `status` is the STATUS byte
  returned for it first; safe -/
  | reservedCommand (cmd status : Byte)
  /-- FLUSH_TX, FLUSH_RX, NOP at a data byte (R137); safe -/
  | dataByteAfterCommand (m : Byte)
  /-- W_REGISTER with a data phase that is not the register's width (R106); safe -/
  | writeLength (r : Reg) (n : Nat)
  /-- W_REGISTER of a byte with a 1 in a reserved bit (R41, R107, R108, R110); safe -/
  | reservedBit (r : Reg) (v : Byte)
  /-- W_REGISTER RX_PW_Pn of a value above 32 (R30, R110); safe -/
  | payloadWidth (v : Byte)
  /-- W_REGISTER FIFO_STATUS (R109); safe -/
  | readOnlyRegister (r : Reg)
  /-- W_REGISTER CONFIG changing PWR_UP or PRIM_RX while transmitting (R107, D26); safe -/
  | modeChangeWhileTransmitting (v : Byte)
  /-- FLUSH_TX while transmitting (R134, D26); safe -/
  | flushWhileTransmitting
  /-- R_RX_PAYLOAD with no data byte (R131); safe -/
  | payloadReadWithoutData
  /-- W_TX_PAYLOAD, W_ACK_PAYLOAD with 0 or more than 32 data bytes (R132, R133); safe -/
  | payloadLength (n : Nat)
  /-- W_TX_PAYLOAD, W_ACK_PAYLOAD with the transmit FIFO full (R132, R133); safe -/
  | txFifoFull
  /-- a bus step whose guard is false: chip-select falls in an open frame, a byte or a rise without one
  (R81 to R83, R278, U15); safe -/
  | busStepNotEnabled
  /-- a register command to the register of an `rmw` between its two frames, which the callback must not send there
  (R213); safe -/
  | rmwInterrupted (r : Reg)
  /-- a step of the callback inside a frame the interrupted operation has open, or of that operation inside one of
  the callback's (R213); safe -/
  | callbackInOpenFrame
  /-- a driver operation whose precondition does not hold, for which no expansion is defined (R200, R201, U23); safe -/
  | driverPrecondition
  deriving DecidableEq, Repr

/-! ### The state -/

structure State where
  /-- the parameters, constant (R5) -/
  params   : Params
  /-- level of the chip-select input, true = 1 = deasserted (R11) -/
  csn      : Bool
  /-- `fr.open` (R11) -/
  frOpen   : Bool
  /-- `fr.cmd`, the command byte of the open frame (R12) -/
  frCmd    : Option Byte
  /-- `fr.idx`, how many data bytes have been exchanged (R12) -/
  frIdx    : Nat
  /-- `fr.buf`, the data bytes of a write-class command (R13) -/
  frBuf    : List Byte
  /-- level of the enable line (R14) -/
  ce       : Bool
  /-- `tx_active` (R16) -/
  txActive : Bool
  /-- `TXF`, head first (R17) -/
  txf      : List TxEntry
  /-- `RXF`, head first (R18) -/
  rxf      : List RxEntry
  /-- flag RX_DR (R19) -/
  rxDr     : Bool
  /-- flag TX_DS (R19) -/
  txDs     : Bool
  /-- flag MAX_RT (R19) -/
  maxRt    : Bool
  /-- the stored registers (R20 to R39) -/
  regs     : Regs
  /-- the driver object of the host (R181) -/
  dev      : Dev
  /-- the steps the agents are going to perform, next first (R8, R70); the model's own -/
  pending  : List Action
  /-- the bytes returned in the open or the last frame, STATUS first (R80); the model's own record -/
  reply    : List Byte
  /-- the read-modify-writes between their two frames: the register and the driver's local `c` (R183) -/
  rmw      : List (Reg × Byte)
  /-- how many `IrqEdge`s have been emitted (R236); the model's own record -/
  edges    : Nat
  /-- how many free values have been drawn (R7); the model's own -/
  draws    : Nat
  deriving DecidableEq, Repr

/-- The driver object when it is made (R181, R265). -/
def Dev.initial (p : Params) : Dev where
  mode        := .powerDown
  rate        := p.devDefaultRate
  power       := p.devDefaultPower
  channel     := p.devDefaultChannel
  payloadSize := p.devDefaultPayload
  cb          := none
  calls       := []
  result      := .nothing

/-- The state right after reset (R260, R261) under the default parameters, with nothing placed. -/
def State.reset : State where
  params   := Params.default
  csn      := true
  frOpen   := false
  frCmd    := none
  frIdx    := 0
  frBuf    := []
  ce       := false
  txActive := false
  txf      := []
  rxf      := []
  rxDr     := false
  txDs     := false
  maxRt    := false
  regs     := Regs.default
  dev      := Dev.initial Params.default
  pending  := []
  reply    := []
  rmw      := []
  edges    := 0
  draws    := 0

end Sys2Proof.Machine
end

