-- ==== Sys2Proof/Machine/Flags.lean ====
section
/-! DEFINITION. The derived bits: STATUS, FIFO_STATUS, the interrupt line, the operating mode
(spec/10_state.md R15, R26, R27, R36, R37, R42; spec/42_mode_fsm.md R150; spec/60_exceptions.md R235). -/

namespace Sys2Proof.Machine

/-- `rx_p_no()` (R27): the pipe of the head of `RXF`, or `0b111` when it is empty. -/
def rxPNo (s : State) : BitVec 3 :=
  match s.rxf with
  | []     => 0b111#3
  | e :: _ => BitVec.ofNat 3 e.pipe.val

/-- `tx_full()` (R27). -/
def txFull (s : State) : Bool := s.txf.length == s.params.fifoDepth

/-- `tx_empty()` (R37). -/
def txEmpty (s : State) : Bool := s.txf.length == 0

/-- `rx_full()` (R37). -/
def rxFull (s : State) : Bool := s.rxf.length == s.params.fifoDepth

/-- `rx_empty()` (R37). -/
def rxEmpty (s : State) : Bool := s.rxf.length == 0

/-- `STATUS()` (R27). -/
def status (s : State) : Byte :=
  0#1 ++ BitVec.ofBool s.rxDr ++ BitVec.ofBool s.txDs ++ BitVec.ofBool s.maxRt ++ rxPNo s
    ++ BitVec.ofBool (txFull s)

/-- `FIFO_STATUS()` (R37): TX_REUSE and the reserved bits read 0 (R36). -/
def fifoStatus (s : State) : Byte :=
  0#1 ++ 0#1 ++ BitVec.ofBool (txFull s) ++ BitVec.ofBool (txEmpty s) ++ 0b00#2
    ++ BitVec.ofBool (rxFull s) ++ BitVec.ofBool (rxEmpty s)

/-! Fields of CONFIG, EN_AA, EN_RXADDR, DYNPD and FEATURE the block reads (R21, R22, R23, R38, R39). -/

def maskRxDr (s : State) : Bool := s.regs.config.getLsbD 6
def maskTxDs (s : State) : Bool := s.regs.config.getLsbD 5
def maskMaxRt (s : State) : Bool := s.regs.config.getLsbD 4
def pwrUp (s : State) : Bool := s.regs.config.getLsbD 1
def primRx (s : State) : Bool := s.regs.config.getLsbD 0
def enDpl (s : State) : Bool := s.regs.feature.getLsbD 2
def enAckPay (s : State) : Bool := s.regs.feature.getLsbD 1

/-- `irq_n` (R15, R235): false (low, asserted) exactly when an unmasked flag is pending. -/
def irqN (s : State) : Bool :=
  !((s.rxDr && !maskRxDr s) || (s.txDs && !maskTxDs s) || (s.maxRt && !maskMaxRt s))

/-- `mode()` (R150). -/
def mode (s : State) : Mode :=
  if pwrUp s = false then .powerDown
  else if primRx s = true then
    if s.ce = true then .listening else .receiveReady
  else
    if s.txActive = true then .transmitting else .transmitReady

/-- Write-1-to-clear of the three flags (R108): bit 6 clears RX_DR, bit 5 TX_DS, bit 4 MAX_RT; bits 3:0 are
ignored. -/
def clearFlags (v : Byte) (s : State) : State :=
  { s with
    rxDr  := s.rxDr && !v.getLsbD 6
    txDs  := s.txDs && !v.getLsbD 5
    maxRt := s.maxRt && !v.getLsbD 4 }

end Sys2Proof.Machine
end

