-- ==== Sys2Proof/Machine/Operands.lean ====
section
/-! DEFINITION. The register file as operand: widths, writable bits, reads and writes
(spec/10_state.md R20, R30, R41; spec/20_memory.md R62; spec/40_register_access.md R101, R110, R111). Every
access to a stored register goes through here. -/

namespace Sys2Proof.Machine

/-- `width(A)` in bytes (R20): 5 for an address register, 1 for every other. -/
def regWidth : Reg → Nat
  | .config     => 1
  | .enAa       => 1
  | .enRxaddr   => 1
  | .rfCh       => 1
  | .rfSetup    => 1
  | .status     => 1
  | .rxAddr _   => 5
  | .txAddr     => 5
  | .rxPw _     => 1
  | .fifoStatus => 1
  | .dynpd      => 1
  | .feature    => 1

/-- `WMASK(A)`, the writable bits of a 1-byte register (R20). STATUS and FIFO_STATUS store nothing; an address
register has no byte mask (all 40 bits are writable). -/
def regWmask : Reg → Byte
  | .config     => 0x7F
  | .enAa       => 0x3F
  | .enRxaddr   => 0x3F
  | .rfCh       => 0x7F
  | .rfSetup    => 0xFF
  | .status     => 0x00
  | .rxAddr _   => 0xFF
  | .txAddr     => 0xFF
  | .rxPw _     => 0x3F
  | .fifoStatus => 0x00
  | .dynpd      => 0x3F
  | .feature    => 0x07

/-- The value has a 1 only in writable bits (R41). -/
def inWmask (r : Reg) (v : Byte) : Bool := v &&& ~~~regWmask r == 0#8

/-- RX_PW_P0 to RX_PW_P5 (R30). -/
def isRxPw : Reg → Bool
  | .rxPw _     => true
  | .config     => false
  | .enAa       => false
  | .enRxaddr   => false
  | .rfCh       => false
  | .rfSetup    => false
  | .status     => false
  | .rxAddr _   => false
  | .txAddr     => false
  | .fifoStatus => false
  | .dynpd      => false
  | .feature    => false

/-- The value may be stored in the 1-byte register: reserved bits clear, and a payload width at most 32
(R30, R41, R110). -/
def byteLegal (r : Reg) (v : Byte) : Bool :=
  inWmask r v && (!isRxPw r || decide (v ≤ 32#8))

/-- CONFIG as a read returns it (R21, R101): bit 3 reads `EN_CRC or (EN_AA != 0)` when `CRC_FORCED_BY_AA`. -/
def configRead (s : State) : Byte :=
  if s.params.crcForcedByAa && s.regs.enAa != 0#8 then s.regs.config ||| 0x08#8 else s.regs.config

/-- What a stored 1-byte register holds (R21 to R25, R30, R38, R39). The derived registers STATUS and FIFO_STATUS
and the address registers hold no byte of their own and read 0 here. -/
def storedByte (g : Regs) : Reg → Byte
  | .config     => g.config
  | .enAa       => g.enAa
  | .enRxaddr   => g.enRxaddr
  | .rfCh       => g.rfCh
  | .rfSetup    => g.rfSetup
  | .status     => 0
  | .rxAddr _   => 0
  | .txAddr     => 0
  | .rxPw p     => g.rxPw[p]
  | .fifoStatus => 0
  | .dynpd      => g.dynpd
  | .feature    => g.feature

/-- `reg_byte(A, i)` (R101): byte `i` of register `A` now. Bytes at and past the width are not asked for. -/
def regByte (s : State) (r : Reg) (i : Nat) : Byte :=
  match r with
  | .config     => configRead s
  | .enAa       => s.regs.enAa
  | .enRxaddr   => s.regs.enRxaddr
  | .rfCh       => s.regs.rfCh
  | .rfSetup    => s.regs.rfSetup
  | .status     => status s
  | .rxAddr p   => s.regs.rxAddr[p].toList.getD i 0
  | .txAddr     => s.regs.txAddr.toList.getD i 0
  | .rxPw p     => s.regs.rxPw[p]
  | .fifoStatus => fifoStatus s
  | .dynpd      => s.regs.dynpd
  | .feature    => s.regs.feature

/-- `MemRead(A, n)` (R7): the first `n` bytes of the register, in bus order. -/
def memRead (s : State) (r : Reg) (n : Nat) : List Byte :=
  (List.range n).map (regByte s r)

/-- `REG[A] <- v` for a stored 1-byte register (R107, R110). The derived registers STATUS and FIFO_STATUS store
nothing, and an address register is written by `storeAddr`. -/
def storeByte (r : Reg) (v : Byte) (g : Regs) : Regs :=
  match r with
  | .config     => { g with config := v }
  | .enAa       => { g with enAa := v }
  | .enRxaddr   => { g with enRxaddr := v }
  | .rfCh       => { g with rfCh := v }
  | .rfSetup    => { g with rfSetup := v }
  | .status     => g
  | .rxAddr _   => g
  | .txAddr     => g
  | .rxPw p     => { g with rxPw := g.rxPw.set p v }
  | .fifoStatus => g
  | .dynpd      => { g with dynpd := v }
  | .feature    => { g with feature := v }

/-- `MemWrite(A, 5, v)` for an address register (R111): `a[i] <- v[i]`, all five at once. -/
def storeAddr (r : Reg) (a : Address) (g : Regs) : Regs :=
  match r with
  | .rxAddr p   => { g with rxAddr := g.rxAddr.set p a }
  | .txAddr     => { g with txAddr := a }
  | .config     => g
  | .enAa       => g
  | .enRxaddr   => g
  | .rfCh       => g
  | .rfSetup    => g
  | .status     => g
  | .rxPw _     => g
  | .fifoStatus => g
  | .dynpd      => g
  | .feature    => g

/-- Five bytes in bus order as the value of an address register (R62). -/
def toAddress : List Byte → Option Address
  | [a, b, c, d, e] => some #v[a, b, c, d, e]
  | _               => none

end Sys2Proof.Machine
end

