-- ==== Sys2Proof/Machine/Ops.lean ====
section
/-! DEFINITION. The named operations every step is built from: sequencing outcomes, the frame latches, the
replies and free values, the FIFOs, the interrupt edge (the block's only exception entry, spec/60_exceptions.md R236, R240)
and the run of a command over the bus steps of its frame (spec/30_encoding.md R81 to R83). -/

namespace Sys2Proof.Machine

/-- Do the second operation in the state the first answers; a refusal ends both (R9). -/
def andThen (o : Host.Outcome State Fault Refusal) (f : State → Host.Outcome State Fault Refusal) :
    Host.Outcome State Fault Refusal :=
  match o with
  | .next s    => f s
  | .fault r   => .fault r
  | .refused r => .refused r

/-- The step at the head of `pending` is taken from it. -/
def popAction (s : State) : State := { s with pending := s.pending.tail }

/-! ### Frame latches (R81 to R83) -/

/-- The effect of `CsnFall` (R81): the frame opens with its latches empty. The record of returned bytes starts
anew. -/
def openFrame (s : State) : State :=
  { s with csn := false, frOpen := true, frCmd := none, frIdx := 0, frBuf := [], reply := [] }

/-- The command byte's exchange (R82): STATUS goes back, sampled now, and the command is latched. -/
def commandByte (m : Byte) (s : State) : State :=
  { s with reply := s.reply ++ [status s], frCmd := some m }

/-- The latches when the frame closes (R83). -/
def closeFrame (s : State) : State :=
  { s with csn := true, frOpen := false, frCmd := none, frIdx := 0, frBuf := [] }

/-- A data byte's reply is `b`; the byte is counted (R82). -/
def answer (b : Byte) (s : State) : State :=
  { s with reply := s.reply ++ [b], frIdx := s.frIdx + 1 }

/-- A data byte's reply is `draw(8)`: a fresh free value (R7, R82). -/
def answerDraw (s : State) : State :=
  { s with reply := s.reply ++ [Config.draw s.draws], frIdx := s.frIdx + 1, draws := s.draws + 1 }

/-- A data byte of a write-class command (R82): buffered, its reply a free value. -/
def bufferByte (m : Byte) (s : State) : State :=
  answerDraw { s with frBuf := s.frBuf ++ [m] }

/-! ### FIFOs (R7, R17, R18, R139) -/

def pushTx (e : TxEntry) (s : State) : State := { s with txf := s.txf ++ [e] }
def popTx (s : State) : State := { s with txf := s.txf.tail }
def pushRx (e : RxEntry) (s : State) : State := { s with rxf := s.rxf ++ [e] }
def popRx (s : State) : State := { s with rxf := s.rxf.tail }

/-- Remove the oldest entry of kind `Ack p`, which need not be the head (R139, R168). -/
def removeAck (p : Pipe) : List TxEntry → List TxEntry
  | []      => []
  | e :: es => if e.kind = .ack p then es else e :: removeAck p es

/-! ### The interrupt edge (R236, R240) -/

/-- One `IrqEdge`: it is counted, and the attached callback, if there is one, is invoked once; with none
attached the edge is dropped (R240). The block saves nothing and goes nowhere. -/
def irqEdge (s : State) : State :=
  { s with
    edges := s.edges + 1
    dev := { s.dev with calls := s.dev.calls ++ s.dev.cb.toList } }

/-- After a step from `before` to `after`: an `IrqEdge` exactly when `irq_n` went from 1 to 0 (R236). -/
def settleIrq (before after : State) : State :=
  if irqN before = true ∧ irqN after = false then irqEdge after else after

/-- The return from an interrupt is the acknowledge (R241): the flags named by the byte are cleared, which
releases the line when no unmasked flag is left; nothing is restored. -/
def acknowledge (v : Byte) (s : State) : State := clearFlags v s

/-! ### A command over the bus steps of its frame (R82, R83, R93)

A command is given by what it does with a data byte and by its commit. -/

/-- `Xfer(m)` in the open frame of a command (R82). -/
def xferStep (data : Byte → State → Host.Outcome State Fault Refusal) (m : Byte) (s : State) :
    Host.Outcome State Fault Refusal :=
  if s.frOpen = true then
    match s.frCmd with
    | none   => .next (commandByte m s)
    | some _ => data m s
  else .refused .busStepNotEnabled

/-- `CsnRise` in the open frame of a command (R83): the commit, the latches closed, the interrupt line
re-evaluated. A frame with no byte has no effect. -/
def riseStep (commit : State → Host.Outcome State Fault Refusal) (s : State) :
    Host.Outcome State Fault Refusal :=
  if s.frOpen = true then
    match s.frCmd with
    | none   => .next (closeFrame s)
    | some _ => andThen (commit s) fun t => .next (settleIrq s (closeFrame t))
  else .refused .busStepNotEnabled

/-- The data bytes of a frame, one `Xfer` after another (R93). -/
def dataPhase (data : Byte → State → Host.Outcome State Fault Refusal) :
    List Byte → State → Host.Outcome State Fault Refusal
  | [], s      => .next s
  | m :: ms, s => andThen (data m s) (dataPhase data ms)

/-- The whole frame `[b, d1 .. dn]` of a command (R93): `CsnFall; Xfer(b); Xfer(d1); ..; CsnRise`. -/
def frameStep (data : Byte → State → Host.Outcome State Fault Refusal)
    (commit : State → Host.Outcome State Fault Refusal) (b : Byte) (ds : List Byte) (s : State) :
    Host.Outcome State Fault Refusal :=
  if s.frOpen = true then .refused .busStepNotEnabled
  else andThen (dataPhase data ds (commandByte b (openFrame s))) (riseStep commit)

/-- A command's meaning: the bus step at the head of `pending`, done as this command does it. -/
def runCommand (data : Byte → State → Host.Outcome State Fault Refusal)
    (commit : State → Host.Outcome State Fault Refusal) (s : State) : Host.Outcome State Fault Refusal :=
  match s.pending with
  | .xfer m :: _          => xferStep data m (popAction s)
  | .csnRise :: _         => riseStep commit (popAction s)
  | .frame (b :: ds) :: _ => frameStep data commit b ds (popAction s)
  | _                     => .refused .busStepNotEnabled

/-- A data byte after a command without payload is refused (R137). -/
def refuseData (m : Byte) (_ : State) : Host.Outcome State Fault Refusal :=
  .refused (.dataByteAfterCommand m)

/-- A data byte of a write-class command (R82). -/
def bufferData (m : Byte) (s : State) : Host.Outcome State Fault Refusal :=
  .next (bufferByte m s)

/-- The commit of a command that changes nothing (R100, R136). -/
def commitNothing (s : State) : Host.Outcome State Fault Refusal := .next s

end Sys2Proof.Machine
end

