-- ==== Sys2Proof/Machine/Payload.lean ====
section
/-! DEFINITION. The packet FIFO commands (spec/41_fifo_commands.md) and the reserved command bytes
(spec/30_encoding.md R90). -/

namespace Sys2Proof.Machine

/-! ### R_RX_PAYLOAD (R130, R131) -/

/-- Byte `i` of the payload at the head of `RXF`, if there is such a byte. -/
def headByte (s : State) (i : Nat) : Option Byte :=
  s.rxf.head?.bind fun e => e.data[i]?

/-- A data byte of `R_RX_PAYLOAD` (R130): the head's byte, sampled now, or a free value. -/
def payloadData (_ : Byte) (s : State) : Host.Outcome State Fault Refusal :=
  match headByte s s.frIdx with
  | some b => .next (answer b s)
  | none   => .next (answerDraw s)

/-- `commit(R_RX_PAYLOAD, _, n)` (R131): the whole head goes, however many bytes were read. -/
def commitPop (s : State) : Host.Outcome State Fault Refusal :=
  if s.frIdx = 0 then .refused .payloadReadWithoutData else .next (popRx s)

/-- `R_RX_PAYLOAD` (R130). -/
def execRRxPayload (s : State) : Host.Outcome State Fault Refusal :=
  runCommand payloadData commitPop s

/-! ### W_TX_PAYLOAD, W_ACK_PAYLOAD (R132, R133) -/

/-- The commit of a payload write (R132, R133). -/
def commitPush (kind : TxKind) (s : State) : Host.Outcome State Fault Refusal :=
  if s.frIdx = 0 ∨ maxPayload < s.frIdx then .refused (.payloadLength s.frIdx)
  else if txFull s = true then .refused .txFifoFull
  else .next (pushTx { kind := kind, data := s.frBuf } s)

/-- `W_TX_PAYLOAD d` (R132). -/
def execWTxPayload (s : State) : Host.Outcome State Fault Refusal :=
  runCommand bufferData (commitPush .tx) s

/-! ### Reserved bytes (R90, R104) -/

/-- A reserved command at any bus step of its frame: STATUS is returned for the command byte, which is byte
`b`, and the run is refused there (R82, R90). -/
def runReserved (b : Byte) (s : State) : Host.Outcome State Fault Refusal :=
  match s.pending with
  | .frame _ :: _ =>
      if s.frOpen = true then .refused .busStepNotEnabled
      else .refused (.reservedCommand b (status s))
  | _ =>
      if s.frOpen = true then .refused (.reservedCommand b (status s))
      else .refused .busStepNotEnabled

/-- `W_ACK_PAYLOAD p, d` (R133, R138): pipes 6 and 7 are reserved encodings (R86). -/
def execWAckPayload (ppp : BitVec 3) (s : State) : Host.Outcome State Fault Refusal :=
  if h : ppp.toNat < 6 then
    runCommand bufferData (commitPush (.ack ⟨ppp.toNat, h⟩)) s
  else runReserved (encodeByte s.params (.wAckPayload ppp)) s

/-! ### FLUSH_TX, FLUSH_RX, NOP (R134 to R137) -/

/-- `commit(FLUSH_TX)` (R134): refused during a transmission (D26). -/
def commitFlushTx (s : State) : Host.Outcome State Fault Refusal :=
  if s.txActive = true then .refused .flushWhileTransmitting else .next { s with txf := [] }

/-- `commit(FLUSH_RX)` (R135): RX_DR is not cleared. -/
def commitFlushRx (s : State) : Host.Outcome State Fault Refusal :=
  .next { s with rxf := [] }

/-- `FLUSH_TX` (R134). -/
def execFlushTx (s : State) : Host.Outcome State Fault Refusal :=
  runCommand refuseData commitFlushTx s

/-- `FLUSH_RX` (R135). -/
def execFlushRx (s : State) : Host.Outcome State Fault Refusal :=
  runCommand refuseData commitFlushRx s

/-- `NOP` (R136). -/
def execNop (s : State) : Host.Outcome State Fault Refusal :=
  runCommand refuseData commitNothing s

/-- A reserved command byte (R90, R104). -/
def execReserved (b : Byte) (s : State) : Host.Outcome State Fault Refusal :=
  runReserved b s

end Sys2Proof.Machine
end

