-- ==== Sys2Proof/Machine/Registers.lean ====
section
/-! DEFINITION. The register access commands (spec/40_register_access.md). -/

namespace Sys2Proof.Machine

/-! ### R_REGISTER (R100 to R103) -/

/-- A data byte of `R_REGISTER A`: `reg_byte(A, i)` within the width, sampled now, a free value past it
(R82, R101, R103). The host's byte is ignored. -/
def readData (r : Reg) (_ : Byte) (s : State) : Host.Outcome State Fault Refusal :=
  if s.frIdx < regWidth r then .next (answer (regByte s r s.frIdx) s) else .next (answerDraw s)

/-- `R_REGISTER A` (R100): it changes no stored state. -/
def execRRegister (r : Reg) (s : State) : Host.Outcome State Fault Refusal :=
  runCommand (readData r) commitNothing s

/-! ### W_REGISTER (R105 to R111) -/

/-- `config_write(v)` (R107). -/
def configWrite (v : Byte) (s : State) : Host.Outcome State Fault Refusal :=
  if v.getLsbD 7 = true then .refused (.reservedBit .config v)
  else if s.txActive = true ∧ (v.getLsbD 1 ≠ pwrUp s ∨ v.getLsbD 0 ≠ primRx s) then
    .refused (.modeChangeWhileTransmitting v)
  else .next { s with regs := storeByte .config v s.regs }

/-- `status_w1c(v)` (R108). -/
def statusWrite (v : Byte) (s : State) : Host.Outcome State Fault Refusal :=
  if v.getLsbD 7 = true then .refused (.reservedBit .status v)
  else .next (acknowledge v s)

/-- `byte_write(A, v)` (R110). -/
def byteWrite (r : Reg) (v : Byte) (s : State) : Host.Outcome State Fault Refusal :=
  if inWmask r v = false then .refused (.reservedBit r v)
  else if isRxPw r = true ∧ 32#8 < v then .refused (.payloadWidth v)
  else .next { s with regs := storeByte r v s.regs }

/-- `MemWrite(A, 5, buf)` (R111). -/
def addrWrite (r : Reg) (buf : List Byte) (s : State) : Host.Outcome State Fault Refusal :=
  match toAddress buf with
  | some a => .next { s with regs := storeAddr r a s.regs }
  | none   => .refused (.writeLength r buf.length)

/-- The write of a data phase that has the register's width (R105's cases after the length check). -/
def writeValue (r : Reg) (buf : List Byte) (s : State) : Host.Outcome State Fault Refusal :=
  match r with
  | .status     => statusWrite (buf.headD 0) s
  | .fifoStatus => .refused (.readOnlyRegister .fifoStatus)
  | .config     => configWrite (buf.headD 0) s
  | .enAa       => byteWrite .enAa (buf.headD 0) s
  | .enRxaddr   => byteWrite .enRxaddr (buf.headD 0) s
  | .rfCh       => byteWrite .rfCh (buf.headD 0) s
  | .rfSetup    => byteWrite .rfSetup (buf.headD 0) s
  | .rxPw p     => byteWrite (.rxPw p) (buf.headD 0) s
  | .dynpd      => byteWrite .dynpd (buf.headD 0) s
  | .feature    => byteWrite .feature (buf.headD 0) s
  | .rxAddr p   => addrWrite (.rxAddr p) buf s
  | .txAddr     => addrWrite .txAddr buf s

/-- `commit(W_REGISTER A, buf, n)` (R105): the data phase must be exactly the register's width (R106). -/
def commitWrite (r : Reg) (s : State) : Host.Outcome State Fault Refusal :=
  if s.frIdx = regWidth r then writeValue r s.frBuf s else .refused (.writeLength r s.frIdx)

/-- `W_REGISTER A, d` (R105). -/
def execWRegister (r : Reg) (s : State) : Host.Outcome State Fault Refusal :=
  runCommand bufferData (commitWrite r) s

end Sys2Proof.Machine
end

