-- ==== Sys2Proof/Machine/Dispatch.lean ====
section
/-! DEFINITION. One arm per command: each calls the meaning of its own. -/

namespace Sys2Proof.Machine

def exec (i : Instr) (s : State) : Host.Outcome State Fault Refusal :=
  match i with
  | .rRegister r => Sys2Proof.Machine.execRRegister r s
  | .wRegister r => Sys2Proof.Machine.execWRegister r s
  | .rRxPayload => Sys2Proof.Machine.execRRxPayload s
  | .wTxPayload => Sys2Proof.Machine.execWTxPayload s
  | .wAckPayload ppp => Sys2Proof.Machine.execWAckPayload ppp s
  | .flushTx => Sys2Proof.Machine.execFlushTx s
  | .flushRx => Sys2Proof.Machine.execFlushRx s
  | .nop => Sys2Proof.Machine.execNop s
  | .reserved b => Sys2Proof.Machine.execReserved b s

end Sys2Proof.Machine
end

