-- ==== Sys2Proof/Machine/Bus.lean ====
section
/-! DEFINITION. The bus steps of the host (spec/30_encoding.md R81 to R83): which command the latched or the
arriving command byte is, and its run. -/

namespace Sys2Proof.Machine

/-- `CsnFall` (R81): enabled only when no frame is open. -/
def stepCsnFall (s : State) : Host.Outcome State Fault Refusal :=
  if s.frOpen = true then .refused .busStepNotEnabled else .next (openFrame (popAction s))

/-- The register a register command is about. -/
def regOf : Instr → Option Reg
  | .rRegister r   => some r
  | .wRegister r   => some r
  | .rRxPayload    => none
  | .wTxPayload    => none
  | .wAckPayload _ => none
  | .flushTx       => none
  | .flushRx       => none
  | .nop           => none
  | .reserved _    => none

/-- A read-modify-write of the register is between its two frames (R183). -/
def held (s : State) (r : Reg) : Bool := s.rmw.any fun e => e.1 == r

/-- The host sends the command: not to a register whose read-modify-write is between its two frames (R213). -/
def sendCommand (i : Instr) (s : State) : Host.Outcome State Fault Refusal :=
  match regOf i with
  | some r => if held s r = true then .refused (.rmwInterrupted r) else exec i s
  | none   => exec i s

/-- `Xfer(m)` (R82): the command is the latched one, or, when this is the command byte, `m` itself. -/
def stepXfer (m : Byte) (s : State) : Host.Outcome State Fault Refusal :=
  match s.frCmd with
  | some b => exec (decodeByte s.params b) s
  | none   => sendCommand (decodeByte s.params m) s

/-- `CsnRise` (R83): a frame with no byte has no effect. -/
def stepCsnRise (s : State) : Host.Outcome State Fault Refusal :=
  match s.frCmd with
  | some b => exec (decodeByte s.params b) s
  | none   => if s.frOpen = true then .next (closeFrame (popAction s)) else .refused .busStepNotEnabled

/-- A whole frame (R8, R93): its first byte is the command byte. -/
def stepFrame (bytes : List Byte) (s : State) : Host.Outcome State Fault Refusal :=
  match decodeFrame s.params bytes with
  | .ok (i, _) => sendCommand i s
  | .error .noCommandByte =>
      if s.frOpen = true then .refused .busStepNotEnabled
      else .next (closeFrame (openFrame (popAction s)))

/-! ### A frame made from a word of the opcode table -/

/-- How many zero data bytes complete a frame of the command: its defined data phase (R92), and one byte
where any number from 1 is defined. -/
def zeroDataBytes : Instr → Nat
  | .rRegister r   => regWidth r
  | .wRegister r   => regWidth r
  | .rRxPayload    => 1
  | .wTxPayload    => 1
  | .wAckPayload _ => 1
  | .flushTx       => 0
  | .flushRx       => 0
  | .nop           => 0
  | .reserved _    => 0

/-- The frame of an instruction word of `nbits` bits (the command byte first), its data bytes above the word
zero. -/
def tableFrame (p : Params) (nbits w : Nat) : List Byte :=
  match wordBytes w (nbits / 8) with
  | []      => []
  | b :: ds => b :: ds ++ List.replicate (zeroDataBytes (decodeByte p b) - ds.length) 0

end Sys2Proof.Machine
end

