-- ==== Sys2Proof/Machine/Driver.lean ====
section
/-! DEFINITION. The driver operations as the frames and line steps they expand to
(spec/43_host_sequences.md R180 to R214). They are host software: the block sees only the expansion (R95). -/

namespace Sys2Proof.Machine

/-! ### Bytes and codes -/

/-- The filler the host sends while it reads (R182, D37). -/
def filler : Byte := 0xFF

/-- The frame `R_REGISTER reg, n` (R94, R182). -/
def readFrame (p : Params) (r : Reg) (n : Nat) : Action :=
  .frame (encodeByte p (.rRegister r) :: List.replicate n filler)

/-- The frame `W_REGISTER reg, b1 ..` (R94, R182). -/
def writeFrame (p : Params) (r : Reg) (bs : List Byte) : Action :=
  .frame (encodeByte p (.wRegister r) :: bs)

/-- `rmw(reg, keep, bits)` (R183): a read frame, then the write of `(c & keep) | bits`. -/
def rmwSteps (p : Params) (r : Reg) (keep bits : Byte) : List Action :=
  [readFrame p r 1, .keep r, .writeBack r keep bits]

/-- A reader of a 1-byte register. -/
def readerSteps (p : Params) (r : Reg) (how : Reader) : List Action :=
  [readFrame p r 1, .ret how]

/-- The data-rate code at bits 5 and 3 of RF_SETUP (R195, D40). -/
def rateCode : DataRate → Byte
  | .kbps250 => 0x20
  | .mbps1   => 0x00
  | .mbps2   => 0x08

/-- The CRC code at bits 3 and 2 of CONFIG (R197, D40). -/
def crcCode : CrcWidth → Byte
  | .none   => 0x00
  | .bits8  => 0x08
  | .bits16 => 0x0C

/-- `PWR_CODE` (R196). -/
def powerCode (p : Params) : RfPower → Byte
  | .dbm0  => p.pwrCode.dbm0.zeroExtend 8
  | .dbm6  => p.pwrCode.dbm6.zeroExtend 8
  | .dbm12 => p.pwrCode.dbm12.zeroExtend 8
  | .dbm18 => p.pwrCode.dbm18.zeroExtend 8

/-- The mask bits of CONFIG for an `InterruptMode` (R211). -/
def interruptBits : InterruptMode → Byte
  | .none            => 0x70
  | .rxOnly          => 0x30
  | .txOnly          => 0x50
  | .rxAndTx         => 0x10
  | .retransmitOnly  => 0x60
  | .txAndRetransmit => 0x40

/-- The rate of an RF_SETUP byte, by the table of R195; `reserved` for the pattern (1,1). -/
def rateOf (v : Byte) (reserved : DataRate) : DataRate :=
  match v.getLsbD 5, v.getLsbD 3 with
  | false, false => .mbps1
  | false, true  => .mbps2
  | true, false  => .kbps250
  | true, true   => reserved

/-- The power of an RF_SETUP byte, by the inverse of `PWR_CODE` on its bits 1:0 (R196); with four distinct
codes exactly one case holds. -/
def powerOf (p : Params) (v : Byte) : RfPower :=
  if v.extractLsb' 0 2 = p.pwrCode.dbm18 then .dbm18
  else if v.extractLsb' 0 2 = p.pwrCode.dbm12 then .dbm12
  else if v.extractLsb' 0 2 = p.pwrCode.dbm6 then .dbm6
  else .dbm0

/-- The channel of a requested frequency (R193): outside [2400, 2525] MHz it is 2. -/
def channelOf (f : Nat) : Nat := if 2400 ≤ f ∧ f ≤ 2525 then f - 2400 else 2

/-- A pipe index of the host as a pipe, when it is one. -/
def toPipe (n : Nat) : Option Pipe := if h : n < 6 then some ⟨n, h⟩ else none

/-- `1 << pipe` (R194). -/
def pipeBit (p : Pipe) : Byte := 1#8 <<< p.val

/-! ### Parts of the longer operations -/

def setChannelSteps (p : Params) (c : Nat) : List Action :=
  [writeFrame p .rfCh [BitVec.ofNat 8 (min c 127)], .cache (.channel (min c 127))]

def setDataRateSteps (p : Params) (r : DataRate) : List Action :=
  rmwSteps p .rfSetup 0xD7 (rateCode r) ++ [.cache (.rate r)]

def setCrcSteps (p : Params) (w : CrcWidth) : List Action :=
  rmwSteps p .config 0xF3 (crcCode w)

def powerDownSteps (p : Params) : List Action :=
  rmwSteps p .config 0xFD 0x00 ++ [.cache (.mode .powerDown)]

def setPowerUpAndModeSteps (p : Params) : OpMode → List Action
  | .receiver    => rmwSteps p .config 0xFC 0x03 ++ [.cache (.mode .receiver)]
  | .transceiver => rmwSteps p .config 0xFC 0x02 ++ [.cache (.mode .transceiver)]
  | .powerDown   => powerDownSteps p

def setModeSteps (p : Params) : OpMode → List Action
  | .receiver    => rmwSteps p .config 0xFF 0x01 ++ [.cache (.mode .receiver)]
  | .transceiver => rmwSteps p .config 0xFE 0x00 ++ [.cache (.mode .transceiver)]
  | .powerDown   => powerDownSteps p

def setAutoAckSteps (p : Params) (enable : Bool) : List Action :=
  [writeFrame p .enAa [if enable then 0x3F else 0x00]]

def flushRxSteps (p : Params) : List Action := [.frame [encodeByte p .flushRx]]
def flushTxSteps (p : Params) : List Action := [.frame [encodeByte p .flushTx]]

def attachAddressSteps (p : Params) (q : Pipe) (a : Address) : List Action :=
  writeFrame p (.rxAddr q) a.toList :: rmwSteps p .enRxaddr 0xFF (pipeBit q)

def setPayloadSizeSteps (p : Params) (q : Pipe) (size : Nat) : List Action :=
  [writeFrame p (.rxPw q) [BitVec.ofNat 8 (min size 32)], .cache (.payloadSize (min size 32))]

/-- `write_register(addr, bytes, length)` (R182): to an address register at most 5 bytes are sent. -/
def rawWriteBytes (p : Params) (addr : Nat) (bs : List Byte) : List Byte :=
  match p.regAt (BitVec.ofNat 5 addr) with
  | some r => if regWidth r = 5 then bs.take 5 else bs
  | none   => bs

/-- A frame to a raw address (R184): an address of 32 or more issues nothing. -/
def rawFrame (opcode : Byte) (addr : Nat) (bs : List Byte) : List Action :=
  match frameByte opcode addr with
  | some b => [.frame (b :: bs)]
  | none   => []

/-- The steps an operation expands to, in order (R185 to R212); `none` where its precondition fails and no
expansion is defined (R200, R201, U23). DESIGN CHOICE: the spec says what an operation writes to `dev` and not when
(R181, R185); `power_up()` writes `dev.mode` between its two frames, as soon as it has read the bit, and each other
operation right after the last frame of the setter concerned (notes/assumptions/11.md). -/
def expand (p : Params) (dev : Dev) : DriverOp → Option (List Action)
  | .readRegister addr       => some (rawFrame 0x00 addr [filler] ++ if addr < 32 then [.ret .data] else [])
  | .readRegisterN addr n    => some (rawFrame 0x00 addr (List.replicate n filler) ++ if addr < 32 then [.ret .allData] else [])
  | .writeRegister addr b    => some (rawFrame 0x20 addr [b])
  | .writeRegisterN addr bs  => some (rawFrame 0x20 addr (rawWriteBytes p addr bs))
  | .rmw r keep bits         => some (rmwSteps p r keep bits)
  | .powerUp                 => some [readFrame p .config 1, .cache .modeFromConfig, .keep .config, .writeBack .config 0xFF 0x02]
  | .powerDown               => some (powerDownSteps p)
  | .setMode m               => some (setModeSteps p m)
  | .mode                    => some [.ret .cachedMode]
  | .setPowerUpAndMode m     => some (setPowerUpAndModeSteps p m)
  | .initialise m r f        =>
      some (setAutoAckSteps p false ++ setChannelSteps p (channelOf f) ++ setDataRateSteps p r
        ++ setCrcSteps p p.initCrc ++ setPowerUpAndModeSteps p m)
  | .startListening          => some (flushRxSteps p ++ flushTxSteps p ++ [.ceHigh, .wait p.listenDelay])
  | .stopListening           => some (.ceLow :: flushRxSteps p ++ flushTxSteps p)
  | .setChannel c            => some (setChannelSteps p c)
  | .channel                 => some (readerSteps p .rfCh .data)
  | .setRfFrequency f        => some (setChannelSteps p (channelOf f))
  | .rfFrequency             => some (readerSteps p .rfCh .frequency)
  | .setDataRate r           => some (setDataRateSteps p r)
  | .dataRate                => some (readerSteps p .rfSetup .rate)
  | .setRfOutputPower w      =>
      some (if dev.mode = .transceiver then rmwSteps p .rfSetup 0xFC (powerCode p w) ++ [.cache (.power w)] else [])
  | .rfOutputPower           => some (readerSteps p .rfSetup .power)
  | .setCrc w                => some (setCrcSteps p w)
  | .setAutoAck e            => some (setAutoAckSteps p e)
  | .setAutoAckPipe e pipe   =>
      match toPipe pipe with
      | some q => some (if e then rmwSteps p .enAa 0xFF (pipeBit q) else rmwSteps p .enAa (~~~pipeBit q) 0x00)
      | none   => some []
  | .attachReceiveAddress pipe a => (toPipe pipe).map fun q => attachAddressSteps p q a
  | .setPayloadSize pipe n   => (toPipe pipe).map fun q => setPayloadSizeSteps p q n
  | .payloadSize             => some [.ret .cachedPayloadSize]
  | .attachReceivePayload pipe a n =>
      (toPipe pipe).map fun q => attachAddressSteps p q a ++ setPayloadSizeSteps p q n
  | .attachTransmittingPayload pipe a n =>
      (toPipe pipe).map fun q =>
        writeFrame p .txAddr a.toList :: rmwSteps p .enRxaddr 0xFF (pipeBit q) ++ setPayloadSizeSteps p q n
  | .setTxAddress a          => some [writeFrame p .txAddr a.toList]
  | .txAddress               => some [readFrame p .txAddr 5, .ret .allData]
  | .rxAddress pipe          => (toPipe pipe).map fun q => [readFrame p (.rxAddr q) 5, .ret .allData]
  | .sendPacket buf          => some [.frame (encodeByte p .wTxPayload :: buf.take maxPayload), .cePulse]
  | .startTransfer           => some [.cePulse]
  | .readPacket n            =>
      some [.frame (encodeByte p .rRxPayload :: List.replicate (min n maxPayload) filler), .ret .allData]
  | .flushRx                 => some (flushRxSteps p)
  | .flushTx                 => some (flushTxSteps p)
  | .statusRegister          => some [.frame [encodeByte p .nop], .ret .status]
  | .fifoStatusRegister      => some (readerSteps p .fifoStatus .data)
  | .configStatusRegister    => some (readerSteps p .config .data)
  | .clearInterruptFlags     => some [writeFrame p .status [0x7E]]
  | .setInterrupt m          => some (rmwSteps p .config 0x8F (interruptBits m))
  | .attach cb               => some [.cache (.callback cb)]

/-! ### Other agents' steps between an operation's own (R71, R180, R213) -/

/-- The steps of R8 a composite one is made of (R93, R157, R183), between which other agents' steps may fall. -/
def bareSteps : Action → List Action
  | .frame bs              => .csnFall :: (bs.map .xfer ++ [.csnRise])
  | .writeBack r keep bits => [.csnFall, .backCmd r, .backData r keep bits, .csnRise]
  | .cePulse               => [.ceHigh, .txStart, .ceLow]
  | a                      => [a]

/-- The host's own bookkeeping on the frame just closed, which goes with it: nothing falls in front of it. -/
def isBookkeeping : Action → Bool
  | .keep _  => true
  | .cache _ => true
  | .ret _   => true
  | _        => false

/-- Who performs a step (R8). `driver` is for the steps an expansion alone contains: they belong to the operation
placed, and are never drawn in between another's. -/
inductive Agent where
  | host
  | block
  | radio
  | supply
  | driver
  deriving DecidableEq, Repr

def agentOf : Action → Agent
  | .csnFall         => .host
  | .xfer _          => .host
  | .csnRise         => .host
  | .frame _         => .host
  | .ceHigh          => .host
  | .ceLow           => .host
  | .cePulse         => .host
  | .txStart         => .block
  | .evRx _ _        => .radio
  | .evTxOk          => .radio
  | .evTxFail        => .radio
  | .evAckDone _     => .radio
  | .reset           => .supply
  | .op _ _          => .host
  | .keep _          => .driver
  | .writeBack _ _ _ => .driver
  | .backCmd _       => .driver
  | .backData _ _ _  => .driver
  | .wait _          => .driver
  | .acquire         => .driver
  | .cache _         => .driver
  | .ret _           => .driver

/-- How many steps an operation draws in. -/
def gapsOf : Action → Nat
  | .op _ gaps => gaps.length
  | _          => 0

/-- A frame placed byte by byte is open after the step, which `inFrame` says it was before. -/
def frameAfter (inFrame : Bool) : Action → Bool
  | .csnFall => true
  | .csnRise => false
  | .reset   => false
  | _        => inFrame

/-- What the next `n` draws take of the steps placed, and the others. A draw takes one step, an operation with what its
own gaps draw, a frame placed byte by byte up to its end. A `driver` step is never taken. -/
def draw (n : Nat) (inFrame : Bool) : List Action → List Action × List Action
  | []      => ([], [])
  | a :: as =>
      if (n = 0 ∧ inFrame = false) ∨ agentOf a = .driver then ([], a :: as)
      else
        let more := draw ((if inFrame then n else n - 1) + gapsOf a) (frameAfter inFrame a) as
        (a :: more.1, more.2)

/-- Steps drawn in between: the host's are the callback's, which takes the exclusive access first and gives it back to
the interrupted operation afterwards (R213). -/
def drawnIn : List Action → List Action
  | []      => []
  | a :: as => if agentOf a = .host then .acquire :: (a :: as ++ [.acquire]) else a :: as

/-- The first `n` steps of an operation with their bookkeeping, and the others. -/
def cut : Nat → List Action → List Action × List Action
  | _, []      => ([], [])
  | n, a :: as =>
      if isBookkeeping a then (a :: (cut n as).1, (cut n as).2)
      else match n with
        | 0     => ([], a :: as)
        | k + 1 => (a :: (cut k as).1, (cut k as).2)

/-- The steps `as` of an operation, with what is placed behind it drawn in between, once for each gap, as long as
there is something to draw. An interrupted operation stands behind an `acquire`, so the callback's gaps draw none of its
steps. -/
def weave : List Nat → List Action → List Action → List Action
  | [], as, rest      => as ++ rest
  | n :: gs, as, rest =>
      match draw 1 false rest with
      | ([], _)         => as ++ rest
      | (a :: u, after) => (cut n as).1 ++ (drawnIn (a :: u) ++ weave gs (cut n as).2 after)

/-- An operation's steps in front of what is placed behind it; where something is to fall in between, its
composite steps are taken apart. -/
def interleave : List Nat → List Action → List Action → List Action
  | [], as, rest      => as ++ rest
  | n :: gs, as, rest => weave (n :: gs) (as.flatMap bareSteps) rest

/-! ### The host's steps -/

/-- A driver operation is replaced by its expansion, with the steps drawn in between (R180). -/
def stepOp (o : DriverOp) (gaps : List Nat) (s : State) : Host.Outcome State Fault Refusal :=
  match expand s.params s.dev o with
  | some as => .next { s with pending := interleave gaps as s.pending.tail }
  | none    => .refused .driverPrecondition

/-- The byte `v` of the frame `[s0, v, ..]` just read. -/
def readByte (s : State) : Option Byte := s.reply[1]?

/-- The first frame of `rmw` is over: the byte read is its `c` (R183). -/
def stepKeep (r : Reg) (s : State) : Host.Outcome State Fault Refusal :=
  match readByte s with
  | some c => .next { popAction s with rmw := (r, c) :: s.rmw }
  | none   => .refused .driverPrecondition

/-- The read-modify-write of the register is over. -/
def release (r : Reg) (s : State) : State := { s with rmw := s.rmw.filter fun e => e.1 != r }

/-- The second frame of `rmw` (R183): `(c & keep) | bits` is written back, `c` being the byte its first frame
read, whatever the host has read since. -/
def stepWriteBack (r : Reg) (keep bits : Byte) (s : State) : Host.Outcome State Fault Refusal :=
  match s.rmw.lookup r with
  | some c =>
      let bytes := [encodeByte s.params (.wRegister r), (c &&& keep) ||| bits]
      stepFrame bytes { release r s with pending := .frame bytes :: s.pending.tail }
  | none => .refused .driverPrecondition

/-- The command byte of that frame, alone. -/
def stepBackCmd (r : Reg) (s : State) : Host.Outcome State Fault Refusal :=
  let b := encodeByte s.params (.wRegister r)
  exec (decodeByte s.params (s.frCmd.getD b)) { s with pending := .xfer b :: s.pending.tail }

/-- Its data byte, alone. -/
def stepBackData (r : Reg) (keep bits : Byte) (s : State) : Host.Outcome State Fault Refusal :=
  match s.rmw.lookup r with
  | some c =>
      let m := (c &&& keep) ||| bits
      stepXfer m { release r s with pending := .xfer m :: s.pending.tail }
  | none => .refused .driverPrecondition

/-- The exclusive access to the bus and the enable line changes hands, to the callback or back: not inside an open
frame (R213). DESIGN CHOICE: a run in which it would have to is refused; the spec gives the ban (R213, R277) and no
outcome (notes/assumptions/13.md). -/
def stepAcquire (s : State) : Host.Outcome State Fault Refusal :=
  if s.frOpen = true then .refused .callbackInOpenFrame else .next (popAction s)

/-- The cache after a write of it (R181, R185); `c` is the byte just read. -/
def writeCache (w : CacheWrite) (c : Option Byte) (d : Dev) : Dev :=
  match w with
  | .mode m         => { d with mode := m }
  | .modeFromConfig =>
      match c with
      | some v => { d with mode := if v.getLsbD 0 then .receiver else .transceiver }
      | none   => d
  | .rate r         => { d with rate := r }
  | .power p        => { d with power := p }
  | .channel n      => { d with channel := n }
  | .payloadSize n  => { d with payloadSize := n }
  | .callback cb    => { d with cb := cb }

/-- A write of the cache: no bus traffic. -/
def stepCache (w : CacheWrite) (s : State) : Host.Outcome State Fault Refusal :=
  .next { popAction s with dev := writeCache w (readByte s) s.dev }

/-- What a reader returns (R187, R193, R195, R196, R201, R207, R209). -/
def readerResult (how : Reader) (s : State) : DriverResult :=
  match how with
  | .data              => (readByte s).elim .nothing .byte
  | .allData           => .bytes s.reply.tail
  | .status            => s.reply.head?.elim .nothing .byte
  | .frequency         => (readByte s).elim .nothing fun v => .mhz (2400 + v.toNat)
  | .rate              => (readByte s).elim .nothing fun v => .rate (rateOf v (Config.reservedRate s.draws))
  | .power             => (readByte s).elim .nothing fun v => .power (powerOf s.params v)
  | .cachedMode        => .mode s.dev.mode
  | .cachedPayloadSize => .size s.dev.payloadSize

/-- A reader hands its result to the caller. The rate reader draws a free value (used for the reserved pattern
only, R195). -/
def stepRet (how : Reader) (s : State) : Host.Outcome State Fault Refusal :=
  .next { popAction s with
    dev := { s.dev with result := readerResult how s }
    draws := if how = .rate then s.draws + 1 else s.draws }

end Sys2Proof.Machine
end

