-- ==== Sys2Proof/Machine/Modes.lean ====
section
/-! DEFINITION. The steps that are not bus frames: the enable line, the block's own `TxStart`, the events of
the radio, the supply's `Reset` (spec/42_mode_fsm.md R155 to R168, spec/70_reset_and_hazards.md R260). A block or radio
step whose guard is false does not happen: the state stays as it is (R8; notes/assumptions/10.md). -/

namespace Sys2Proof.Machine

/-! ### The enable line (R155 to R157) -/

/-- `CE_HIGH` (R155). -/
def ceHigh (s : State) : State := { s with ce := true }

/-- `CE_LOW` (R156): a committed transmission goes on. -/
def ceLow (s : State) : State := { s with ce := false }

/-- The head of `TXF` is a `Tx` entry (R160). -/
def headIsTx (s : State) : Bool :=
  match s.txf with
  | []     => false
  | e :: _ => decide (e.kind = .tx)

/-- The guard of `TxStart` (R160). -/
def txStartEnabled (s : State) : Bool :=
  pwrUp s && !primRx s && s.ce && !s.txActive && headIsTx s && !s.maxRt

/-- `TxStart` (R160): the head payload is committed to air; it stays at the head. -/
def txStart (s : State) : State :=
  if txStartEnabled s = true then { s with txActive := true } else s

/-- `CE_PULSE` (R157): the line high, `TxStart` if it is enabled, the line low. -/
def cePulse (s : State) : State := ceLow (txStart (ceHigh s))

/-! ### The radio's events (R165 to R168) -/

/-- The length guard of `EV_RX` (R165): dynamic length, or the pipe's payload width, which is at least 1. -/
def rxLengthOk (s : State) (p : Pipe) (n : Nat) : Bool :=
  if enDpl s && s.regs.dynpd.getLsbD p.val then decide (1 ≤ n) && decide (n ≤ maxPayload)
  else n == s.regs.rxPw[p].toNat && decide (1 ≤ s.regs.rxPw[p].toNat)

/-- The guard of `EV_RX` on an existing pipe (R165). -/
def evRxEnabled (s : State) (p : Pipe) (d : List Byte) : Bool :=
  decide (mode s = .listening) && s.regs.enRxaddr.getLsbD p.val
    && decide (s.rxf.length < s.params.fifoDepth) && rxLengthOk s p d.length

/-- `EV_RX(p, d)` (R165). A packet that cannot be queued is dropped with no flag (R165, R283). -/
def evRx (pipe : Nat) (d : List Byte) (s : State) : State :=
  if h : pipe < 6 then
    if evRxEnabled s ⟨pipe, h⟩ d = true then
      settleIrq s { pushRx { pipe := ⟨pipe, h⟩, data := d } s with rxDr := true }
    else s
  else s

/-- `EV_TX_OK` (R166). -/
def evTxOk (s : State) : State :=
  if s.txActive = true then
    settleIrq s { popTx s with txDs := true, txActive := false }
  else s

/-- `EV_TX_FAIL` (R167): the payload stays at the head. -/
def evTxFail (s : State) : State :=
  if s.txActive = true ∧ s.regs.enAa.getLsbD 0 = true then
    settleIrq s { s with maxRt := true, txActive := false }
  else s

/-- The guard of `EV_ACK_DONE` on an existing pipe (R168). -/
def evAckEnabled (s : State) (p : Pipe) : Bool :=
  decide (mode s = .listening) && s.txf.any (fun e => decide (e.kind = .ack p)) && enAckPay s

/-- `EV_ACK_DONE(p)` (R168). -/
def evAckDone (pipe : Nat) (s : State) : State :=
  if h : pipe < 6 then
    if evAckEnabled s ⟨pipe, h⟩ = true then
      settleIrq s { s with txf := removeAck ⟨pipe, h⟩ s.txf, txDs := true }
    else s
  else s

/-! ### The supply (R260) -/

/-- `Reset` (R260): every piece of the block's state takes its reset value. The host and its records are
not the block's and keep theirs (R265). -/
def resetBlock (s : State) : State :=
  { s with
    csn := true, frOpen := false, frCmd := none, frIdx := 0, frBuf := []
    ce := false, txActive := false
    txf := [], rxf := []
    rxDr := false, txDs := false, maxRt := false
    regs := s.params.resetRegs }

end Sys2Proof.Machine
end

