-- ==== Sys2Proof/Machine/Step.lean ====
section
/-! DEFINITION. One step: the action at the head of `pending` (spec/00_scope.md R8, spec/20_memory.md R70). -/

namespace Sys2Proof.Machine

/-- One step of the model. With nothing placed it changes nothing (R263). -/
def step (s : State) : Host.Outcome State Fault Refusal :=
  match s.pending with
  | []                          => .next s
  | .csnFall :: _               => stepCsnFall s
  | .xfer m :: _                => stepXfer m s
  | .csnRise :: _               => stepCsnRise s
  | .frame bs :: _              => stepFrame bs s
  | .ceHigh :: _                => .next (ceHigh (popAction s))
  | .ceLow :: _                 => .next (ceLow (popAction s))
  | .cePulse :: _               => .next (cePulse (popAction s))
  | .txStart :: _               => .next (txStart (popAction s))
  | .evRx p d :: _              => .next (evRx p d (popAction s))
  | .evTxOk :: _                => .next (evTxOk (popAction s))
  | .evTxFail :: _              => .next (evTxFail (popAction s))
  | .evAckDone p :: _           => .next (evAckDone p (popAction s))
  | .reset :: _                 => .next (resetBlock (popAction s))
  | .op o gaps :: _             => stepOp o gaps s
  | .keep r :: _                => stepKeep r s
  | .writeBack r keep bits :: _ => stepWriteBack r keep bits s
  | .backCmd r :: _             => stepBackCmd r s
  | .backData r keep bits :: _  => stepBackData r keep bits s
  | .wait _ :: _                => .next (popAction s)
  | .acquire :: _               => stepAcquire s
  | .cache w :: _               => stepCache w s
  | .ret how :: _               => stepRet how s

/-- The state with the instruction placed as the next step: the frame whose first bytes are the word's and
whose data bytes above them are zero, with chip-select high so that the frame can open and no read-modify-write
under way. -/
def State.withFetchWord (s : State) (nbits w : Nat) : State :=
  { closeFrame s with pending := .frame (tableFrame s.params nbits w) :: s.pending, rmw := [] }

end Sys2Proof.Machine
end

