-- ==== Sys2Proof/Safety.lean ====
section
/-! DEFINITION. What claims are stated in: the admissible parameters, the invariants of spec/10_state.md R44,
the classes of registers and commands. -/

namespace Sys2Proof.Machine

/-- Every stored 1-byte register has zeros outside its WMASK and every RX_PW_Pn is at most 32 (R44 (c)). -/
def regsLegal (g : Regs) : Bool := Reg.all.all fun r => byteLegal r (storedByte g r)

/-- Admissible parameters: command bytes and addresses as D2 and D3 demand, a FIFO depth of at least 1 (D8),
reset values the registers can hold with `PWR_UP = 0` (R261), four distinct power codes (R196), a channel and a payload
size in range (R181). -/
def paramsOk (p : Params) : Bool :=
  p.mapOk && decide (1 ≤ p.fifoDepth) && regsLegal p.resetRegs && !p.resetRegs.config.getLsbD 1
    && decide [p.pwrCode.dbm0, p.pwrCode.dbm6, p.pwrCode.dbm12, p.pwrCode.dbm18].Nodup
    && decide (p.devDefaultChannel ≤ 127) && decide (p.devDefaultPayload ≤ 32)

/-- A write-class command (R13): its data bytes are collected in `fr.buf`. -/
def isWriteClass : Instr → Bool
  | .rRegister _   => false
  | .wRegister _   => true
  | .rRxPayload    => false
  | .wTxPayload    => true
  | .wAckPayload _ => true
  | .flushTx       => false
  | .flushRx       => false
  | .nop           => false
  | .reserved _    => false

/-- The 1-byte registers R110 is about: stored, and neither CONFIG nor a derived register. -/
def isByteReg : Reg → Bool
  | .config     => false
  | .enAa       => true
  | .enRxaddr   => true
  | .rfCh       => true
  | .rfSetup    => true
  | .status     => false
  | .rxAddr _   => false
  | .txAddr     => false
  | .rxPw _     => true
  | .fifoStatus => false
  | .dynpd      => true
  | .feature    => true

/-- The radio's events (R8, R165 to R168). -/
def isRadioEvent : Action → Bool
  | .evRx _ _ | .evTxOk | .evTxFail | .evAckDone _ => true
  | _ => false

/-! ### The invariants of R44 -/

/-- R44 (a). -/
abbrev fifosBounded (s : State) : Prop :=
  s.txf.length ≤ s.params.fifoDepth ∧ s.rxf.length ≤ s.params.fifoDepth

/-- R44 (b); the pipes are in 0..5 by their type. -/
abbrev payloadsSized (s : State) : Prop :=
  (∀ e ∈ s.txf, 1 ≤ e.data.length ∧ e.data.length ≤ maxPayload)
    ∧ ∀ e ∈ s.rxf, 1 ≤ e.data.length ∧ e.data.length ≤ maxPayload

/-- R44 (d): `fr.open = (csn = 0)`, and a closed frame has empty latches. -/
abbrev latchesAgree (s : State) : Prop :=
  s.frOpen = !s.csn ∧ (s.frOpen = false → s.frCmd = none ∧ s.frIdx = 0 ∧ s.frBuf = [])

/-- R12, R13: no data byte is counted before the command byte, and for a write-class command `fr.buf` holds as
many bytes as `fr.idx` counts. -/
abbrev bufferCounted (s : State) : Prop :=
  (s.frCmd = none → s.frIdx = 0 ∧ s.frBuf = [])
    ∧ ∀ b ∈ s.frCmd, isWriteClass (decodeByte s.params b) = true → s.frBuf.length = s.frIdx

/-- R44 (e). -/
abbrev transmissionSound (s : State) : Prop :=
  s.txActive = true → pwrUp s = true ∧ primRx s = false ∧ headIsTx s = true

/-- The invariants of R44 with R12 and R13, over admissible parameters. R44 (f) is the definition of `irqN`. -/
abbrev Inv (s : State) : Prop :=
  paramsOk s.params = true ∧ fifosBounded s ∧ payloadsSized s ∧ regsLegal s.regs = true ∧ latchesAgree s
    ∧ bufferCounted s ∧ transmissionSound s

/-! ### What the step at the head of `pending` is -/

/-- The next step ends a frame of the command: the rise of chip-select, a whole frame, or the second frame of
`rmw`, which is a register write. -/
def endsFrameOf (s : State) (i : Instr) : Prop :=
  (∃ rest b, s.pending = .csnRise :: rest ∧ s.frCmd = some b ∧ decodeByte s.params b = i)
    ∨ (∃ rest b ds, s.pending = .frame (b :: ds) :: rest ∧ decodeByte s.params b = i)
    ∨ ∃ rest r keep bits, s.pending = .writeBack r keep bits :: rest
        ∧ decodeByte s.params (encodeByte s.params (.wRegister r)) = i

end Sys2Proof.Machine
end

