-- ==== Sys2Proof/Certificates/Slice0/Obligations.lean ====
section
/-! DEFINITION. The statements for the provers, from the numbered rules of spec/. A statement about a command's
bus step gives the next state whole, so what it does not name is unchanged. -/

open Sys2Proof Sys2Proof.Machine

/-! ### Decoding (30_encoding) -/

/-- Some command bytes, written out from R84 to R86 and R89 under the default parameters (D2, D3). -/
def Obligations.DecodeReadsSpecBytes : Prop :=
  decodeByte Params.default 0b00000000#8 = .rRegister .config
    ∧ decodeByte Params.default 0b00010111#8 = .rRegister .fifoStatus
    ∧ decodeByte Params.default 0b00100101#8 = .wRegister .rfCh
    ∧ decodeByte Params.default 0b00110000#8 = .wRegister .txAddr
    ∧ decodeByte Params.default 0b01100001#8 = .rRxPayload
    ∧ decodeByte Params.default 0b10100000#8 = .wTxPayload
    ∧ decodeByte Params.default 0b10101001#8 = .wAckPayload 1
    ∧ decodeByte Params.default 0b10101101#8 = .wAckPayload 5
    ∧ decodeByte Params.default 0b11100001#8 = .flushTx
    ∧ decodeByte Params.default 0b11100010#8 = .flushRx
    ∧ decodeByte Params.default 0b11111111#8 = .nop
    ∧ decodeByte Params.default 0b00000011#8 = .reserved 0x03
    ∧ decodeByte Params.default 0b00111111#8 = .reserved 0x3F
    ∧ decodeByte Params.default 0b10101110#8 = .reserved 0xAE
    ∧ decodeByte Params.default 0b01000000#8 = .reserved 0x40

/-- Decoding the byte of a well-formed command gives the command back, for every admissible choice of command
bytes and addresses (R84 to R88, D2, D3). -/
def Obligations.DecodeOfEncodeIsIdentity : Prop :=
  ∀ (p : Params) (i : Instr), p.mapOk = true → i.wf p = true → decodeByte p (encodeByte p i) = i

/-- Every byte is the byte of the one well-formed command it decodes to (R88: `decode` is total; R89: each byte
matches exactly one row). -/
def Obligations.EncodeOfDecodeIsIdentity : Prop :=
  ∀ (p : Params) (b : Byte), p.mapOk = true →
    (decodeByte p b).wf p = true ∧ encodeByte p (decodeByte p b) = b

/-! ### Fetching a command -/

/-- A bus step is the step of the command its byte decodes to: the arriving byte at the start of a frame, the latched
one afterwards, the first byte of a whole frame (R82, R83). The second frame of `rmw`, whole or by its bytes, is the
write of the register, of the byte its first frame read (R183). What a step adds around that: a register command to
the register of an `rmw` between its two frames is refused, and so is a change of hands between an operation and the
callback inside an open frame; with none open it changes nothing (R213; that a run stops there is the model's choice,
notes/assumptions/13.md). -/
def Obligations.StepRunsTheDecodedCommand : Prop :=
  ∀ (s : State) (rest : List Action) (m b : Byte) (ds : List Byte),
    (s.pending = .xfer m :: rest → s.frCmd = none →
        (∀ r, regOf (decodeByte s.params m) = some r → held s r = false) →
        step s = exec (decodeByte s.params m) s)
    ∧ (s.pending = .xfer m :: rest → s.frCmd = some b → step s = exec (decodeByte s.params b) s)
    ∧ (s.pending = .csnRise :: rest → s.frCmd = some b → step s = exec (decodeByte s.params b) s)
    ∧ (s.pending = .frame (b :: ds) :: rest →
        (∀ r, regOf (decodeByte s.params b) = some r → held s r = false) →
        step s = exec (decodeByte s.params b) s)
    ∧ (∀ r, s.pending = .frame (b :: ds) :: rest ∨ (s.pending = .xfer b :: rest ∧ s.frCmd = none) →
        regOf (decodeByte s.params b) = some r → held s r = true → step s = .refused (.rmwInterrupted r))
    ∧ (∀ r keep bits, s.params.mapOk = true → s.pending = .writeBack r keep bits :: rest →
        s.rmw.lookup r = some b → step s = exec (.wRegister r) { s with
          pending := .frame [encodeByte s.params (.wRegister r), (b &&& keep) ||| bits] :: rest
          rmw := s.rmw.filter fun e => e.1 != r })
    ∧ (∀ r, s.params.mapOk = true → s.pending = .backCmd r :: rest → s.frCmd = none →
        step s = exec (.wRegister r) { s with
          pending := .xfer (encodeByte s.params (.wRegister r)) :: rest })
    ∧ (∀ r keep bits, s.params.mapOk = true → s.pending = .backData r keep bits :: rest →
        s.frCmd = some (encodeByte s.params (.wRegister r)) → s.rmw.lookup r = some b →
        step s = exec (.wRegister r) { s with
          pending := .xfer ((b &&& keep) ||| bits) :: rest
          rmw := s.rmw.filter fun e => e.1 != r })
    ∧ (s.pending = .acquire :: rest → s.frOpen = true → step s = .refused .callbackInOpenFrame)
    ∧ (s.pending = .acquire :: rest → s.frOpen = false → step s = .next { s with pending := rest })

/-! ### The bus steps (30_encoding R81 to R83, R93) -/

/-- `CsnFall` opens a frame with empty latches and is refused in an open frame; a rise of chip-select over a frame with
no byte only closes it, and is refused where no frame is open (R81, R83). That a bus step whose guard is false is refused
is the model's choice (notes/assumptions/10.md). -/
def Obligations.EmptyFrameOpensAndCloses : Prop :=
  ∀ (s : State) (rest : List Action),
    (s.pending = .csnFall :: rest → s.frOpen = false → step s = .next { s with
      pending := rest, csn := false, frOpen := true, frCmd := none, frIdx := 0, frBuf := [], reply := [] })
    ∧ (s.pending = .csnFall :: rest → s.frOpen = true → step s = .refused .busStepNotEnabled)
    ∧ (s.pending = .csnRise :: rest → s.frOpen = true → s.frCmd = none → step s = .next { s with
      pending := rest, csn := true, frOpen := false, frCmd := none, frIdx := 0, frBuf := [] })
    ∧ (s.pending = .csnRise :: rest → s.frOpen = false → s.frCmd = none →
      step s = .refused .busStepNotEnabled)

/-- The command byte of every command returns STATUS, sampled then, and is latched (R82, R26). -/
def Obligations.CommandByteReturnsStatus : Prop :=
  ∀ (s : State) (i : Instr) (m : Byte) (rest : List Action),
    (∀ b, i ≠ .reserved b) → i.wf s.params = true →
    s.pending = .xfer m :: rest → s.frOpen = true → s.frCmd = none →
    exec i s = .next { s with pending := rest, reply := s.reply ++ [status s], frCmd := some m }

/-- A reserved command is refused at its command byte, with the STATUS byte it returned, and never answers a
next state; pipes 6 and 7 of W_ACK_PAYLOAD are reserved too (R90, R104, R86). -/
def Obligations.ReservedCommandIsRefused : Prop :=
  ∀ (s : State) (b m : Byte) (ds : List Byte) (rest : List Action) (ppp : BitVec 3),
    (s.pending = .xfer m :: rest → s.frOpen = true →
      exec (.reserved b) s = .refused (.reservedCommand b (status s)))
    ∧ (s.pending = .frame (m :: ds) :: rest → s.frOpen = false →
      exec (.reserved b) s = .refused (.reservedCommand b (status s)))
    ∧ (∀ t, exec (.reserved b) s ≠ .next t)
    ∧ (6 ≤ ppp.toNat → ∀ t, exec (.wAckPayload ppp) s ≠ .next t)

/-- A data byte of a write-class command is buffered and answered with a free value (R82, R13; notes/assumptions/5.md). -/
def Obligations.WriteDataIsBuffered : Prop :=
  ∀ (s : State) (i : Instr) (m c : Byte) (rest : List Action),
    isWriteClass i = true → i.wf s.params = true →
    s.pending = .xfer m :: rest → s.frOpen = true → s.frCmd = some c →
    exec i s = .next { s with
      pending := rest, frBuf := s.frBuf ++ [m], frIdx := s.frIdx + 1
      reply := s.reply ++ [Config.draw s.draws], draws := s.draws + 1 }

/-- A data byte after FLUSH_TX, FLUSH_RX or NOP is refused at the exchange that carries it (R137). -/
def Obligations.DataByteAfterFlushOrNopIsRefused : Prop :=
  ∀ (s : State) (i : Instr) (m c : Byte) (rest : List Action),
    i = .flushTx ∨ i = .flushRx ∨ i = .nop →
    s.pending = .xfer m :: rest → s.frOpen = true → s.frCmd = some c →
    exec i s = .refused (.dataByteAfterCommand m)

/-- The whole frame in one step is the run of its byte steps, refusals included (R93). -/
def Obligations.FrameIsItsByteSteps : Prop :=
  ∀ (s : State) (b : Byte) (ds : List Byte) (rest : List Action),
    s.pending = .frame (b :: ds) :: rest → s.frOpen = false →
    step s = Host.Core.run Sys2Proof.core (ds.length + 3)
      { s with pending := .csnFall :: .xfer b :: (ds.map Action.xfer ++ .csnRise :: rest) }

/-! ### The derived bits (10_state R15, R27, R37; 42_mode_fsm R150) -/

/-- Every bit of STATUS (R26, R27). -/
def Obligations.StatusBits : Prop :=
  ∀ s : State,
    (status s).getLsbD 7 = false ∧ (status s).getLsbD 6 = s.rxDr ∧ (status s).getLsbD 5 = s.txDs
      ∧ (status s).getLsbD 4 = s.maxRt
      ∧ (s.rxf = [] → (status s).extractLsb' 1 3 = 0b111#3)
      ∧ (∀ e es, s.rxf = e :: es → ((status s).extractLsb' 1 3).toNat = e.pipe.val)
      ∧ ((status s).getLsbD 0 = true ↔ s.txf.length = s.params.fifoDepth)

/-- Every bit of FIFO_STATUS (R36, R37). -/
def Obligations.FifoStatusBits : Prop :=
  ∀ s : State,
    (fifoStatus s).getLsbD 7 = false ∧ (fifoStatus s).getLsbD 6 = false
      ∧ ((fifoStatus s).getLsbD 5 = true ↔ s.txf.length = s.params.fifoDepth)
      ∧ ((fifoStatus s).getLsbD 4 = true ↔ s.txf = [])
      ∧ (fifoStatus s).getLsbD 3 = false ∧ (fifoStatus s).getLsbD 2 = false
      ∧ ((fifoStatus s).getLsbD 1 = true ↔ s.rxf.length = s.params.fifoDepth)
      ∧ ((fifoStatus s).getLsbD 0 = true ↔ s.rxf = [])

/-- The interrupt line is low exactly when an unmasked flag is pending (R15, R235). -/
def Obligations.IrqLineFunction : Prop :=
  ∀ s : State, irqN s = false ↔
    (s.rxDr = true ∧ s.regs.config.getLsbD 6 = false) ∨ (s.txDs = true ∧ s.regs.config.getLsbD 5 = false)
      ∨ (s.maxRt = true ∧ s.regs.config.getLsbD 4 = false)

/-- The operating mode, case by case (R150). -/
def Obligations.ModeFunction : Prop :=
  ∀ s : State,
    (mode s = .powerDown ↔ s.regs.config.getLsbD 1 = false)
    ∧ (mode s = .listening ↔
        s.regs.config.getLsbD 1 = true ∧ s.regs.config.getLsbD 0 = true ∧ s.ce = true)
    ∧ (mode s = .receiveReady ↔
        s.regs.config.getLsbD 1 = true ∧ s.regs.config.getLsbD 0 = true ∧ s.ce = false)
    ∧ (mode s = .transmitting ↔
        s.regs.config.getLsbD 1 = true ∧ s.regs.config.getLsbD 0 = false ∧ s.txActive = true)
    ∧ (mode s = .transmitReady ↔
        s.regs.config.getLsbD 1 = true ∧ s.regs.config.getLsbD 0 = false ∧ s.txActive = false)

/-! ### R_REGISTER (40_register_access R100 to R103) -/

/-- What each register reads as, byte by byte (R101). -/
def Obligations.RegisterByteValues : Prop :=
  ∀ (s : State) (q : Pipe),
    regByte s .enAa 0 = s.regs.enAa ∧ regByte s .enRxaddr 0 = s.regs.enRxaddr
      ∧ regByte s .rfCh 0 = s.regs.rfCh ∧ regByte s .rfSetup 0 = s.regs.rfSetup
      ∧ regByte s (.rxPw q) 0 = s.regs.rxPw[q] ∧ regByte s .dynpd 0 = s.regs.dynpd
      ∧ regByte s .feature 0 = s.regs.feature ∧ regByte s .status 0 = status s
      ∧ regByte s .fifoStatus 0 = fifoStatus s
      ∧ (∀ i : Fin 5, regByte s (.rxAddr q) i.val = s.regs.rxAddr[q][i])
      ∧ (∀ i : Fin 5, regByte s .txAddr i.val = s.regs.txAddr[i])
      ∧ (∀ k, k < 8 → k ≠ 3 → (regByte s .config 0).getLsbD k = s.regs.config.getLsbD k)
      ∧ ((regByte s .config 0).getLsbD 3
          = (s.regs.config.getLsbD 3 || (s.params.crcForcedByAa && decide (s.regs.enAa ≠ 0#8))))

/-- A data byte of `R_REGISTER A` is the register's byte now, or a free value past the width; nothing else changes
(R82, R100, R103). -/
def Obligations.ReadRegisterDataByte : Prop :=
  ∀ (s : State) (r : Reg) (m c : Byte) (rest : List Action),
    s.pending = .xfer m :: rest → s.frOpen = true → s.frCmd = some c →
    (s.frIdx < regWidth r → exec (.rRegister r) s = .next { s with
      pending := rest, frIdx := s.frIdx + 1, reply := s.reply ++ [regByte s r s.frIdx] })
    ∧ (regWidth r ≤ s.frIdx → exec (.rRegister r) s = .next { s with
      pending := rest, frIdx := s.frIdx + 1, reply := s.reply ++ [Config.draw s.draws]
      draws := s.draws + 1 })

/-- A whole frame of `R_REGISTER A` with any number of data bytes returns STATUS, the leading bytes of the register
and free values past its width, and changes no stored state (R93, R100, R102, R103). -/
def Obligations.ReadRegisterFrame : Prop :=
  ∀ (s : State) (r : Reg) (b : Byte) (ds : List Byte) (rest : List Action),
    s.pending = .frame (b :: ds) :: rest → s.frOpen = false →
    exec (.rRegister r) s = .next { s with
      pending := rest, csn := true, frOpen := false, frCmd := none, frIdx := 0, frBuf := []
      reply := status s :: (memRead s r (min ds.length (regWidth r))
        ++ (List.range (ds.length - regWidth r)).map fun k => Config.draw (s.draws + k))
      draws := s.draws + (ds.length - regWidth r) }

/-! ### W_REGISTER (40_register_access R105 to R111) -/

/-- A register write whose data phase has not the register's width is refused (R106). -/
def Obligations.WriteLengthIsChecked : Prop :=
  ∀ (s : State) (r : Reg) (c : Byte) (rest : List Action),
    s.pending = .csnRise :: rest → s.frOpen = true → s.frCmd = some c → s.frIdx ≠ regWidth r →
    exec (.wRegister r) s = .refused (.writeLength r s.frIdx)

/-- `config_write(v)` at chip-select rise: refused for the reserved bit and for a change of PWR_UP or PRIM_RX while
transmitting; else CONFIG is `v`, and an edge is emitted exactly when the new masks make the line fall (R107). -/
def Obligations.WriteConfigCommits : Prop :=
  ∀ (s : State) (c v : Byte) (rest : List Action),
    s.pending = .csnRise :: rest → s.frOpen = true → s.frCmd = some c → s.frIdx = 1 → s.frBuf = [v] →
    (v.getLsbD 7 = true → exec (.wRegister .config) s = .refused (.reservedBit .config v))
    ∧ (v.getLsbD 7 = false → s.txActive = true
        → (v.getLsbD 1 ≠ s.regs.config.getLsbD 1 ∨ v.getLsbD 0 ≠ s.regs.config.getLsbD 0)
        → exec (.wRegister .config) s = .refused (.modeChangeWhileTransmitting v))
    ∧ (v.getLsbD 7 = false →
        (s.txActive = true → v.getLsbD 1 = s.regs.config.getLsbD 1 ∧ v.getLsbD 0 = s.regs.config.getLsbD 0) →
        ∀ t, t = { s with
          pending := rest, csn := true, frOpen := false, frCmd := none, frIdx := 0, frBuf := []
          regs := { s.regs with config := v } } →
        exec (.wRegister .config) s = .next
          (if irqN s = true ∧ irqN t = false
            then { t with
              edges := s.edges + 1
              dev := { s.dev with calls := s.dev.calls ++ s.dev.cb.toList } }
            else t))

/-- `status_w1c(v)` at chip-select rise: a 1 in bits 6, 5, 4 clears the flag, a 0 leaves it, bits 3:0 are ignored, bit 7
is refused; nothing else changes and no edge is emitted (R108). -/
def Obligations.WriteStatusClearsFlags : Prop :=
  ∀ (s : State) (c v : Byte) (rest : List Action),
    s.pending = .csnRise :: rest → s.frOpen = true → s.frCmd = some c → s.frIdx = 1 → s.frBuf = [v] →
    (v.getLsbD 7 = true → exec (.wRegister .status) s = .refused (.reservedBit .status v))
    ∧ (v.getLsbD 7 = false → exec (.wRegister .status) s = .next { s with
        pending := rest, csn := true, frOpen := false, frCmd := none, frIdx := 0, frBuf := []
        rxDr := if v.getLsbD 6 = true then false else s.rxDr
        txDs := if v.getLsbD 5 = true then false else s.txDs
        maxRt := if v.getLsbD 4 = true then false else s.maxRt })

/-- `byte_write(A, v)` at chip-select rise, for EN_AA, EN_RXADDR, RF_CH, RF_SETUP, RX_PW_Pn, DYNPD, FEATURE: a 1 outside
WMASK is refused, a payload width above 32 is refused, any other byte is stored and no other register changes (R110). -/
def Obligations.WriteByteRegisterCommits : Prop :=
  ∀ (s : State) (r : Reg) (c v : Byte) (rest : List Action),
    isByteReg r = true →
    s.pending = .csnRise :: rest → s.frOpen = true → s.frCmd = some c → s.frIdx = 1 → s.frBuf = [v] →
    (v &&& ~~~regWmask r ≠ 0#8 → exec (.wRegister r) s = .refused (.reservedBit r v))
    ∧ (v &&& ~~~regWmask r = 0#8 → isRxPw r = true → 32 < v.toNat →
        exec (.wRegister r) s = .refused (.payloadWidth v))
    ∧ (v &&& ~~~regWmask r = 0#8 → (isRxPw r = true → v.toNat ≤ 32) →
        ∃ g : Regs, exec (.wRegister r) s = .next { s with
            pending := rest, csn := true, frOpen := false, frCmd := none, frIdx := 0, frBuf := [], regs := g }
          ∧ storedByte g r = v ∧ (∀ r', r' ≠ r → storedByte g r' = storedByte s.regs r')
          ∧ g.rxAddr = s.regs.rxAddr ∧ g.txAddr = s.regs.txAddr)

/-- `MemWrite(A, 5, buf)` at chip-select rise: all five bytes at once, in bus order, and no other register
changes (R111, R62). -/
def Obligations.WriteAddressRegisterCommits : Prop :=
  ∀ (s : State) (c : Byte) (a : Address) (q : Pipe) (rest : List Action),
    s.pending = .csnRise :: rest → s.frOpen = true → s.frCmd = some c → s.frIdx = 5 → s.frBuf = a.toList →
    exec (.wRegister .txAddr) s = .next { s with
        pending := rest, csn := true, frOpen := false, frCmd := none, frIdx := 0, frBuf := []
        regs := { s.regs with txAddr := a } }
    ∧ ∃ x : Vector Address 6, exec (.wRegister (.rxAddr q)) s = .next { s with
          pending := rest, csn := true, frOpen := false, frCmd := none, frIdx := 0, frBuf := []
          regs := { s.regs with rxAddr := x } }
        ∧ x[q] = a ∧ ∀ q' : Pipe, q' ≠ q → x[q'] = s.regs.rxAddr[q']

/-- A write of FIFO_STATUS is refused, whatever the byte (R109). -/
def Obligations.WriteFifoStatusIsRefused : Prop :=
  ∀ (s : State) (c : Byte) (rest : List Action),
    s.pending = .csnRise :: rest → s.frOpen = true → s.frCmd = some c → s.frIdx = 1 →
    exec (.wRegister .fifoStatus) s = .refused (.readOnlyRegister .fifoStatus)

/-- Writing then reading back an address register returns exactly the bytes written (R62, 95_test_vectors S3). -/
def Obligations.AddressRegisterRoundTrip : Prop :=
  ∀ (s : State) (r : Reg) (a : Address) (fill : List Byte) (rest : List Action),
    s.params.mapOk = true → held s r = false → regWidth r = 5 → s.frOpen = false → fill.length = 5 →
    s.pending = .frame (encodeByte s.params (.wRegister r) :: a.toList)
      :: .frame (encodeByte s.params (.rRegister r) :: fill) :: rest →
    ∃ t : State, Host.Core.run Sys2Proof.core 2 s = .next t ∧ t.reply = status s :: a.toList ∧ t.pending = rest

/-! ### The packet FIFO commands (41_fifo_commands) -/

/-- A data byte of R_RX_PAYLOAD is the head's next byte, sampled now, or a free value when there is none (R130). -/
def Obligations.ReadPayloadDataByte : Prop :=
  ∀ (s : State) (m c : Byte) (rest : List Action),
    s.pending = .xfer m :: rest → s.frOpen = true → s.frCmd = some c →
    (∀ e es b, s.rxf = e :: es → e.data[s.frIdx]? = some b → exec .rRxPayload s = .next { s with
      pending := rest, frIdx := s.frIdx + 1, reply := s.reply ++ [b] })
    ∧ ((s.rxf = [] ∨ ∃ e es, s.rxf = e :: es ∧ e.data.length ≤ s.frIdx) →
      exec .rRxPayload s = .next { s with
        pending := rest, frIdx := s.frIdx + 1, reply := s.reply ++ [Config.draw s.draws]
        draws := s.draws + 1 })

/-- The commit of R_RX_PAYLOAD: refused with no data byte; else the head goes, whole, and an empty FIFO stays empty; no
flag changes (R131). -/
def Obligations.ReadPayloadPopsTheHead : Prop :=
  ∀ (s : State) (c : Byte) (rest : List Action),
    s.pending = .csnRise :: rest → s.frOpen = true → s.frCmd = some c →
    (s.frIdx = 0 → exec .rRxPayload s = .refused .payloadReadWithoutData)
    ∧ (s.frIdx ≠ 0 → ∀ e es, s.rxf = e :: es → exec .rRxPayload s = .next { s with
        pending := rest, csn := true, frOpen := false, frCmd := none, frIdx := 0, frBuf := [], rxf := es })
    ∧ (s.frIdx ≠ 0 → s.rxf = [] → exec .rRxPayload s = .next { s with
        pending := rest, csn := true, frOpen := false, frCmd := none, frIdx := 0, frBuf := [] })

/-- A whole frame of R_RX_PAYLOAD over a head payload, with at least one data byte: STATUS, the payload's leading bytes,
free values past its end; the head is removed (R93, R130, R131). -/
def Obligations.ReadPayloadFrame : Prop :=
  ∀ (s : State) (b : Byte) (ds : List Byte) (e : RxEntry) (es : List RxEntry) (rest : List Action),
    s.pending = .frame (b :: ds) :: rest → s.frOpen = false → ds ≠ [] → s.rxf = e :: es →
    exec .rRxPayload s = .next { s with
      pending := rest, csn := true, frOpen := false, frCmd := none, frIdx := 0, frBuf := [], rxf := es
      reply := status s :: (e.data.take ds.length
        ++ (List.range (ds.length - e.data.length)).map fun k => Config.draw (s.draws + k))
      draws := s.draws + (ds.length - e.data.length) }

/-- The commit of W_TX_PAYLOAD: refused with no byte or more than 32, refused when the FIFO is full, else the bytes are
one entry at the tail (R132). -/
def Obligations.WriteTxPayloadPushes : Prop :=
  ∀ (s : State) (c : Byte) (rest : List Action),
    s.pending = .csnRise :: rest → s.frOpen = true → s.frCmd = some c →
    (s.frIdx = 0 ∨ 32 < s.frIdx → exec .wTxPayload s = .refused (.payloadLength s.frIdx))
    ∧ (1 ≤ s.frIdx → s.frIdx ≤ 32 → s.txf.length = s.params.fifoDepth →
        exec .wTxPayload s = .refused .txFifoFull)
    ∧ (1 ≤ s.frIdx → s.frIdx ≤ 32 → s.txf.length ≠ s.params.fifoDepth →
        exec .wTxPayload s = .next { s with
          pending := rest, csn := true, frOpen := false, frCmd := none, frIdx := 0, frBuf := []
          txf := s.txf ++ [{ kind := .tx, data := s.frBuf }] })

/-- The commit of W_ACK_PAYLOAD for a pipe 0 to 5, whatever FEATURE and DYNPD hold: as W_TX_PAYLOAD, the entry being of
kind `Ack p` (R133, R138). -/
def Obligations.WriteAckPayloadPushes : Prop :=
  ∀ (s : State) (c : Byte) (q : Pipe) (rest : List Action),
    s.pending = .csnRise :: rest → s.frOpen = true → s.frCmd = some c →
    (s.frIdx = 0 ∨ 32 < s.frIdx →
        exec (.wAckPayload (BitVec.ofNat 3 q.val)) s = .refused (.payloadLength s.frIdx))
    ∧ (1 ≤ s.frIdx → s.frIdx ≤ 32 → s.txf.length = s.params.fifoDepth →
        exec (.wAckPayload (BitVec.ofNat 3 q.val)) s = .refused .txFifoFull)
    ∧ (1 ≤ s.frIdx → s.frIdx ≤ 32 → s.txf.length ≠ s.params.fifoDepth →
        exec (.wAckPayload (BitVec.ofNat 3 q.val)) s = .next { s with
          pending := rest, csn := true, frOpen := false, frCmd := none, frIdx := 0, frBuf := []
          txf := s.txf ++ [{ kind := .ack q, data := s.frBuf }] })

/-- The commit of FLUSH_TX: refused during a transmission, else every entry goes and no flag changes (R134). -/
def Obligations.FlushTxEmptiesTheFifo : Prop :=
  ∀ (s : State) (c : Byte) (rest : List Action),
    s.pending = .csnRise :: rest → s.frOpen = true → s.frCmd = some c →
    (s.txActive = true → exec .flushTx s = .refused .flushWhileTransmitting)
    ∧ (s.txActive = false → exec .flushTx s = .next { s with
        pending := rest, csn := true, frOpen := false, frCmd := none, frIdx := 0, frBuf := [], txf := [] })

/-- FLUSH_RX: its frame returns STATUS as it is before the flush, every entry of RXF goes, RX_DR is not cleared (R135);
afterwards RX_P_NO is 0b111, RX_EMPTY is 1 and RX_FULL is 0. Its command byte is 0xE2 by default. -/
def Obligations.FlushRxEmptiesTheFifo : Prop :=
  ∀ (s : State) (b c : Byte) (rest : List Action),
    (s.pending = .csnRise :: rest → s.frOpen = true → s.frCmd = some c →
      exec .flushRx s = .next { s with
        pending := rest, csn := true, frOpen := false, frCmd := none, frIdx := 0, frBuf := [], rxf := [] })
    ∧ (s.pending = .frame [b] :: rest → s.frOpen = false → ∃ t, exec .flushRx s = .next t
      ∧ t = { s with
        pending := rest, csn := true, frOpen := false, frCmd := none, frIdx := 0, frBuf := []
        reply := [status s], rxf := [] }
      ∧ (status t).extractLsb' 1 3 = 0b111#3 ∧ (fifoStatus t).getLsbD 0 = true
      ∧ (1 ≤ s.params.fifoDepth → (fifoStatus t).getLsbD 1 = false))
    ∧ encodeByte s.params .flushRx = s.params.opcFlushRx ∧ decodeByte Params.default 0xE2#8 = .flushRx

/-- A NOP frame returns STATUS and changes nothing (R136, R93). -/
def Obligations.NopReturnsStatus : Prop :=
  ∀ (s : State) (b : Byte) (rest : List Action), s.pending = .frame [b] :: rest → s.frOpen = false →
    exec .nop s = .next { s with
      pending := rest, csn := true, frOpen := false, frCmd := none, frIdx := 0, frBuf := []
      reply := [status s] }

/-- No packet FIFO command changes a flag, a register or the interrupt line, or emits an edge (R140). -/
def Obligations.FifoCommandsKeepFlagsAndLine : Prop :=
  ∀ (s t : State) (i : Instr),
    (i = .rRxPayload ∨ i = .wTxPayload ∨ (∃ p, i = .wAckPayload p) ∨ i = .flushTx ∨ i = .flushRx ∨ i = .nop) →
    exec i s = .next t →
    t.rxDr = s.rxDr ∧ t.txDs = s.txDs ∧ t.maxRt = s.maxRt ∧ t.regs = s.regs ∧ irqN t = irqN s
      ∧ t.edges = s.edges ∧ t.ce = s.ce ∧ t.txActive = s.txActive

/-! ### The enable line and TxStart (42_mode_fsm R155 to R160) -/

/-- CE_HIGH and CE_LOW set the line and nothing else: ReceiveReady becomes Listening and back, every other mode stays, so a
committed transmission goes on (R152, R155, R156). -/
def Obligations.EnableLineSteps : Prop :=
  ∀ (s : State) (rest : List Action),
    (s.pending = .ceHigh :: rest → ∃ t, step s = .next t ∧ t = { s with pending := rest, ce := true }
      ∧ mode t = if mode s = .receiveReady then .listening else mode s)
    ∧ (s.pending = .ceLow :: rest → ∃ t, step s = .next t ∧ t = { s with pending := rest, ce := false }
      ∧ mode t = if mode s = .listening then .receiveReady else mode s)

/-- `TxStart` commits the head payload exactly when its guard holds (R160); with the guard false the placed step leaves
the state as it is, the model's choice (notes/assumptions/10.md). -/
def Obligations.TxStartCommitsTheHead : Prop :=
  ∀ (s : State) (rest : List Action), s.pending = .txStart :: rest →
    ((s.regs.config.getLsbD 1 = true ∧ s.regs.config.getLsbD 0 = false ∧ s.ce = true ∧ s.txActive = false
        ∧ s.maxRt = false ∧ ∃ e es, s.txf = e :: es ∧ e.kind = .tx) →
      step s = .next { s with pending := rest, txActive := true })
    ∧ (¬(s.regs.config.getLsbD 1 = true ∧ s.regs.config.getLsbD 0 = false ∧ s.ce = true ∧ s.txActive = false
        ∧ s.maxRt = false ∧ ∃ e es, s.txf = e :: es ∧ e.kind = .tx) →
      step s = .next { s with pending := rest })

/-- `CE_PULSE` is CE_HIGH, TxStart where its guard then holds, CE_LOW (R157). -/
def Obligations.CePulseCommitsOrNot : Prop :=
  ∀ (s : State) (rest : List Action), s.pending = .cePulse :: rest →
    ((s.regs.config.getLsbD 1 = true ∧ s.regs.config.getLsbD 0 = false ∧ s.txActive = false ∧ s.maxRt = false
        ∧ ∃ e es, s.txf = e :: es ∧ e.kind = .tx) →
      step s = .next { s with pending := rest, ce := false, txActive := true })
    ∧ (¬(s.regs.config.getLsbD 1 = true ∧ s.regs.config.getLsbD 0 = false ∧ s.txActive = false ∧ s.maxRt = false
        ∧ ∃ e es, s.txf = e :: es ∧ e.kind = .tx) →
      step s = .next { s with pending := rest, ce := false })

/-! ### The radio's events and reset (42_mode_fsm R165 to R168, 70_reset R260) -/

/-- `EV_RX(p, d)`: with its guard true the payload is at the tail of RXF, RX_DR is set, and an edge is emitted exactly
when the line was high and RX_DR is not masked; with its guard false nothing is queued and no flag is set (R165). That an
event placed with its guard false leaves the state as it is: the model's choice (notes/assumptions/10.md). -/
def Obligations.RxEventQueuesThePayload : Prop :=
  ∀ (s : State) (p : Nat) (d : List Byte) (rest : List Action), s.pending = .evRx p d :: rest →
    (∀ q : Pipe, q.val = p →
      mode s = .listening → s.regs.enRxaddr.getLsbD p = true → s.rxf.length < s.params.fifoDepth →
      (if s.regs.feature.getLsbD 2 = true ∧ s.regs.dynpd.getLsbD p = true then 1 ≤ d.length ∧ d.length ≤ 32
        else d.length = s.regs.rxPw[q].toNat ∧ 1 ≤ s.regs.rxPw[q].toNat) →
      step s = .next
        (if irqN s = true ∧ s.regs.config.getLsbD 6 = false
          then { s with
            pending := rest, rxf := s.rxf ++ [{ pipe := q, data := d }], rxDr := true
            edges := s.edges + 1, dev := { s.dev with calls := s.dev.calls ++ s.dev.cb.toList } }
          else { s with
            pending := rest, rxf := s.rxf ++ [{ pipe := q, data := d }], rxDr := true }))
    ∧ ((6 ≤ p ∨ mode s ≠ .listening ∨ s.regs.enRxaddr.getLsbD p = false ∨ s.params.fifoDepth ≤ s.rxf.length
        ∨ ∃ q : Pipe, q.val = p ∧
          ¬(if s.regs.feature.getLsbD 2 = true ∧ s.regs.dynpd.getLsbD p = true
            then 1 ≤ d.length ∧ d.length ≤ 32
            else d.length = s.regs.rxPw[q].toNat ∧ 1 ≤ s.regs.rxPw[q].toNat)) →
      step s = .next { s with pending := rest })

/-- `EV_TX_OK`: the committed payload leaves TXF, TX_DS is set, the transmission ends; not enabled otherwise (R166), which
leaves the state as it is (the model's choice, notes/assumptions/10.md). -/
def Obligations.TxOkEventCompletes : Prop :=
  ∀ (s : State) (rest : List Action), s.pending = .evTxOk :: rest →
    (s.txActive = true → step s = .next
      (if irqN s = true ∧ s.regs.config.getLsbD 5 = false
        then { s with
          pending := rest, txf := s.txf.tail, txDs := true, txActive := false
          edges := s.edges + 1, dev := { s.dev with calls := s.dev.calls ++ s.dev.cb.toList } }
        else { s with pending := rest, txf := s.txf.tail, txDs := true, txActive := false }))
    ∧ (s.txActive = false → step s = .next { s with pending := rest })

/-- `EV_TX_FAIL`: MAX_RT is set, the transmission ends, the payload stays at the head; not enabled without a transmission
or with pipe 0's auto-acknowledgement off (R167), which leaves the state as it is (the model's choice,
notes/assumptions/10.md). -/
def Obligations.TxFailEventKeepsThePayload : Prop :=
  ∀ (s : State) (rest : List Action), s.pending = .evTxFail :: rest →
    (s.txActive = true → s.regs.enAa.getLsbD 0 = true → step s = .next
      (if irqN s = true ∧ s.regs.config.getLsbD 4 = false
        then { s with
          pending := rest, maxRt := true, txActive := false
          edges := s.edges + 1, dev := { s.dev with calls := s.dev.calls ++ s.dev.cb.toList } }
        else { s with pending := rest, maxRt := true, txActive := false }))
    ∧ (s.txActive = false ∨ s.regs.enAa.getLsbD 0 = false → step s = .next { s with pending := rest })

/-- `EV_ACK_DONE(p)`: the oldest entry of kind `Ack p` leaves TXF, which need not be the head, and TX_DS is set; not enabled
when not Listening, with EN_ACK_PAY clear or with no such entry (R168, R139), which leaves the state as it is (the model's
choice, notes/assumptions/10.md). -/
def Obligations.AckDoneEventRemovesTheOldest : Prop :=
  ∀ (s : State) (p : Nat) (rest : List Action), s.pending = .evAckDone p :: rest →
    (∀ (q : Pipe) (pre post : List TxEntry) (e : TxEntry),
      q.val = p → mode s = .listening → s.regs.feature.getLsbD 1 = true →
      s.txf = pre ++ e :: post → e.kind = .ack q → (∀ x ∈ pre, x.kind ≠ .ack q) →
      step s = .next
        (if irqN s = true ∧ s.regs.config.getLsbD 5 = false
          then { s with
            pending := rest, txf := pre ++ post, txDs := true
            edges := s.edges + 1, dev := { s.dev with calls := s.dev.calls ++ s.dev.cb.toList } }
          else { s with pending := rest, txf := pre ++ post, txDs := true }))
    ∧ ((mode s ≠ .listening ∨ s.regs.feature.getLsbD 1 = false
        ∨ ∀ e ∈ s.txf, ∀ q : Pipe, q.val = p → e.kind ≠ .ack q) →
      step s = .next { s with pending := rest })

/-- `Reset`, in any state: every piece of the block's state takes its reset value (R260). -/
def Obligations.ResetRestoresTheBlock : Prop :=
  ∀ (s : State) (rest : List Action), s.pending = .reset :: rest →
    step s = .next { s with
      pending := rest, csn := true, frOpen := false, frCmd := none, frIdx := 0, frBuf := []
      ce := false, txActive := false, txf := [], rxf := [], rxDr := false, txDs := false, maxRt := false
      regs := s.params.resetRegs }

/-- The derived values after reset (R263), under the default reset values, which are the spec's decision D6 and general
knowledge (notes/assumptions/7.md). -/
def Obligations.DerivedValuesAfterReset : Prop :=
  status State.reset = 0x0E ∧ fifoStatus State.reset = 0x11 ∧ irqN State.reset = true
    ∧ mode State.reset = .powerDown

/-! ### Invariants and whole-machine rules -/

/-- The state after reset meets the invariants of R44, under the default reset values, which are the spec's decision D6
and general knowledge (notes/assumptions/7.md), and the driver defaults the model chose (notes/assumptions/8.md). -/
def Obligations.ResetMeetsTheInvariants : Prop := Inv State.reset

/-- Every step keeps the invariants of R44, from every state that meets them. -/
def Obligations.StepKeepsTheInvariants : Prop :=
  ∀ s t : State, Inv s → step s = .next t → Inv t

/-- A step emits one edge exactly when the line is high before it and low after it, and the attached callback is then
invoked once, with none attached the edge being dropped (R236; R240 with D38). The edges and the invocations are the
model's records (notes/assumptions/4.md). -/
def Obligations.EdgeExactlyWhenTheLineFalls : Prop :=
  ∀ s t : State, step s = .next t →
    t.edges = s.edges + (if irqN s = true ∧ irqN t = false then 1 else 0)
      ∧ t.dev.calls = s.dev.calls ++ (if irqN s = true ∧ irqN t = false then s.dev.cb.toList else [])

/-- Only a radio event or a write of CONFIG can emit an edge (R239). -/
def Obligations.OnlyEventsAndConfigWritesEmitEdges : Prop :=
  ∀ s t : State, step s = .next t → t.edges ≠ s.edges →
    (∃ p d rest, s.pending = .evRx p d :: rest) ∨ (∃ rest, s.pending = .evTxOk :: rest)
      ∨ (∃ rest, s.pending = .evTxFail :: rest) ∨ (∃ p rest, s.pending = .evAckDone p :: rest)
      ∨ endsFrameOf s (.wRegister .config)

/-- Each flag is set only by its radio event, and a flag is cleared only by a write of STATUS or by reset (R19). -/
def Obligations.FlagsChangeOnlyByTheirCauses : Prop :=
  ∀ s t : State, step s = .next t →
    (s.rxDr = false → t.rxDr = true → ∃ p d rest, s.pending = .evRx p d :: rest)
    ∧ (s.txDs = false → t.txDs = true →
        (∃ rest, s.pending = .evTxOk :: rest) ∨ ∃ p rest, s.pending = .evAckDone p :: rest)
    ∧ (s.maxRt = false → t.maxRt = true → ∃ rest, s.pending = .evTxFail :: rest)
    ∧ ((s.rxDr = true ∧ t.rxDr = false) ∨ (s.txDs = true ∧ t.txDs = false)
        ∨ (s.maxRt = true ∧ t.maxRt = false) →
      endsFrameOf s (.wRegister .status) ∨ ∃ rest, s.pending = .reset :: rest)

/-- A stored register changes only by a register write or by reset (R71, R169). -/
def Obligations.RegistersChangeOnlyByWrites : Prop :=
  ∀ s t : State, step s = .next t → t.regs ≠ s.regs →
    (∃ r, endsFrameOf s (.wRegister r)) ∨ ∃ rest, s.pending = .reset :: rest

/-- Nothing but a write of CONFIG leaves PowerDown (R153). -/
def Obligations.PowerDownIsLeftOnlyByConfigWrite : Prop :=
  ∀ s t : State, paramsOk s.params = true → step s = .next t → mode s = .powerDown → mode t ≠ .powerDown →
    endsFrameOf s (.wRegister .config)

/-- While MAX_RT is pending no step commits a payload to air (R160, R281). -/
def Obligations.PendingMaxRtBlocksTransmission : Prop :=
  ∀ s t : State, step s = .next t → s.maxRt = true → s.txActive = false → t.txActive = false

/-- A committed transmission ends only by its completion event or by reset (R156, R160, R170). -/
def Obligations.TransmissionEndsOnlyByCompletion : Prop :=
  ∀ s t : State, step s = .next t → s.txActive = true → t.txActive = false →
    (∃ rest, s.pending = .evTxOk :: rest) ∨ (∃ rest, s.pending = .evTxFail :: rest)
      ∨ ∃ rest, s.pending = .reset :: rest

/-- Both FIFOs are first-in first-out: a step leaves a FIFO, removes its head, appends one entry or empties it; only
`EV_ACK_DONE` takes an entry out of the middle of TXF, the oldest of its pipe (R139). -/
def Obligations.FifosAreFirstInFirstOut : Prop :=
  ∀ s t : State, step s = .next t →
    (t.rxf = s.rxf ∨ t.rxf = s.rxf.tail ∨ t.rxf = [] ∨ ∃ e, t.rxf = s.rxf ++ [e])
    ∧ (t.txf = s.txf ∨ t.txf = s.txf.tail ∨ t.txf = [] ∨ (∃ e, t.txf = s.txf ++ [e])
      ∨ ∃ (q : Pipe) (pre post : List TxEntry) (e : TxEntry) (rest : List Action),
          s.pending = .evAckDone q.val :: rest ∧ s.txf = pre ++ e :: post ∧ e.kind = .ack q
            ∧ (∀ x ∈ pre, x.kind ≠ .ack q) ∧ t.txf = pre ++ post)

/-! ### Driver operations (43_host_sequences) -/

/-- `set_channel(c)` leaves min(c, 127) in RF_CH and in the cache, and no other register changed (R192), wherever radio
events fall between its steps, inside its frame too (R71, R180). -/
def Obligations.SetChannelClamps : Prop :=
  ∀ (s : State) (c : Nat) (gaps : List Nat) (evs rest : List Action),
    s.params.mapOk = true → held s .rfCh = false → s.frOpen = false →
    (∀ e ∈ evs, isRadioEvent e = true) → gaps.length = evs.length →
    s.pending = .op (.setChannel c) gaps :: (evs ++ rest) →
    ∃ t : State, Host.Core.run Sys2Proof.core (if gaps = [] then 3 else evs.length + 6) s = .next t
      ∧ t.regs = { s.regs with rfCh := BitVec.ofNat 8 (min c 127) } ∧ t.dev.channel = min c 127
      ∧ t.pending = rest

/-- `set_rf_frequency(f)`: the channel is f - 2400 inside [2400, 2525] and 2 outside (R193). -/
def Obligations.SetRfFrequencyFallsBack : Prop :=
  ∀ (s : State) (f : Nat) (rest : List Action),
    s.params.mapOk = true → held s .rfCh = false → s.frOpen = false →
    s.pending = .op (.setRfFrequency f) [] :: rest →
    ∃ t : State, Host.Core.run Sys2Proof.core 3 s = .next t ∧ t.pending = rest
      ∧ (2400 ≤ f ∧ f ≤ 2525 → t.regs.rfCh.toNat = f - 2400)
      ∧ (f < 2400 ∨ 2525 < f → t.regs.rfCh.toNat = 2)

/-- `set_payload_size(pipe, size)` stores min(size, 32) in the pipe's RX_PW and in the cache (R201). -/
def Obligations.SetPayloadSizeClamps : Prop :=
  ∀ (s : State) (q : Pipe) (n : Nat) (rest : List Action),
    s.params.mapOk = true → held s (.rxPw q) = false → s.frOpen = false →
    s.pending = .op (.setPayloadSize q.val n) [] :: rest →
    ∃ t : State, Host.Core.run Sys2Proof.core 3 s = .next t ∧ t.pending = rest
      ∧ t.regs.rxPw[q].toNat = min n 32 ∧ t.dev.payloadSize = min n 32

/-- `set_power_up_and_mode(Receiver)` sets CONFIG bits 0 and 1 and leaves bits 2 to 7 unchanged (R188). -/
def Obligations.SetPowerUpAndModeKeepsTheRest : Prop :=
  ∀ (s : State) (rest : List Action),
    s.params.mapOk = true → s.params.crcForcedByAa = false → s.regs.config.getLsbD 7 = false →
    held s .config = false → s.frOpen = false → s.txActive = false →
    s.pending = .op (.setPowerUpAndMode .receiver) [] :: rest →
    ∃ t : State, Host.Core.run Sys2Proof.core 5 s = .next t ∧ t.pending = rest
      ∧ t.regs.config.getLsbD 0 = true ∧ t.regs.config.getLsbD 1 = true
      ∧ (∀ k, 2 ≤ k → k < 8 → t.regs.config.getLsbD k = s.regs.config.getLsbD k)
      ∧ t.dev.mode = .receiver

/-- The per-pipe auto-acknowledge setter really sets or clears the pipe's bit and no other, wherever radio events fall
between its steps, inside and between its two frames too; a pipe above 5 issues nothing (R199, R183, R71, R180). -/
def Obligations.SetAutoAckPipeTouchesOneBit : Prop :=
  ∀ (s : State) (e : Bool) (pipe : Nat) (gaps : List Nat) (evs rest : List Action),
    s.params.mapOk = true → held s .enAa = false → s.regs.enAa &&& 0xC0#8 = 0#8 → s.frOpen = false →
    (∀ a ∈ evs, isRadioEvent a = true) → gaps.length = evs.length →
    s.pending = .op (.setAutoAckPipe e pipe) gaps :: (evs ++ rest) →
    (pipe ≤ 5 → ∃ t : State,
      Host.Core.run Sys2Proof.core (if gaps = [] then 4 else evs.length + 10) s = .next t ∧ t.pending = rest
      ∧ t.regs.enAa.getLsbD pipe = e
      ∧ ∀ k, k < 8 → k ≠ pipe → t.regs.enAa.getLsbD k = s.regs.enAa.getLsbD k)
    ∧ (5 < pipe → step s = .next { s with pending := evs ++ rest })

/-- `attach_receive_payload(pipe, addr, size)`: the address, the enable bit and the width of the pipe are as asked, and the
other enable bits are kept (R202). -/
def Obligations.AttachReceivePayloadConfiguresThePipe : Prop :=
  ∀ (s : State) (q : Pipe) (a : Address) (n : Nat) (rest : List Action),
    s.params.mapOk = true → s.rmw = [] → s.regs.enRxaddr &&& 0xC0#8 = 0#8 → s.frOpen = false →
    s.pending = .op (.attachReceivePayload q.val a n) [] :: rest →
    ∃ t : State, Host.Core.run Sys2Proof.core 7 s = .next t ∧ t.pending = rest
      ∧ t.regs.rxAddr[q] = a ∧ t.regs.rxPw[q].toNat = min n 32 ∧ t.regs.enRxaddr.getLsbD q.val = true
      ∧ ∀ k, k < 8 → k ≠ q.val → t.regs.enRxaddr.getLsbD k = s.regs.enRxaddr.getLsbD k

/-- `send_packet(buffer)` in TransmitReady with an empty TX FIFO: the payload, cut to 32 bytes, is committed to air and
the line is low again (R205, R157). -/
def Obligations.SendPacketCommitsThePayload : Prop :=
  ∀ (s : State) (buf : List Byte) (rest : List Action),
    s.params.mapOk = true → 1 ≤ s.params.fifoDepth → s.frOpen = false → buf ≠ [] → s.txf = [] →
    s.maxRt = false → mode s = .transmitReady → s.pending = .op (.sendPacket buf) [] :: rest →
    ∃ t : State, Host.Core.run Sys2Proof.core 3 s = .next t ∧ t.pending = rest
      ∧ t.txf = [{ kind := .tx, data := buf.take 32 }] ∧ mode t = .transmitting ∧ t.ce = false
      ∧ t.regs = s.regs

/-- `clear_interrupt_flags()` is the one frame that writes 0x7E to STATUS (`[27 7E]` under the default address): it leaves
all three flags clear and the line released with no edge (R210, R108, R241, R236). -/
def Obligations.ClearInterruptFlagsReleasesTheLine : Prop :=
  ∀ (s : State) (rest : List Action),
    s.params.mapOk = true → held s .status = false → s.frOpen = false →
    s.pending = .op .clearInterruptFlags [] :: rest →
    step s = .next { s with pending := .frame [encodeByte s.params (.wRegister .status), 0x7E] :: rest }
    ∧ (s.params.addrs = RegAddrs.default → encodeByte s.params (.wRegister .status) = 0x27)
    ∧ ∃ t : State, Host.Core.run Sys2Proof.core 2 s = .next t ∧ t.pending = rest
      ∧ t.rxDr = false ∧ t.txDs = false ∧ t.maxRt = false ∧ irqN t = true ∧ t.edges = s.edges
end

