-- ==== Sys2Proof/Laws/State.lean ====
section
/-! SUPPORT. One lemma per field of the state per named update: what the update writes there, or that it leaves the
field alone. All hold by unfolding and are simp lemmas, so that no later proof unfolds a record update. -/

namespace Sys2Proof.Machine

variable (s : State) (m : Byte) (te : TxEntry) (re : RxEntry)

/-! ### popAction -/

@[simp] theorem popAction_params : (popAction s).params = s.params := rfl
@[simp] theorem popAction_csn : (popAction s).csn = s.csn := rfl
@[simp] theorem popAction_frOpen : (popAction s).frOpen = s.frOpen := rfl
@[simp] theorem popAction_frCmd : (popAction s).frCmd = s.frCmd := rfl
@[simp] theorem popAction_frIdx : (popAction s).frIdx = s.frIdx := rfl
@[simp] theorem popAction_frBuf : (popAction s).frBuf = s.frBuf := rfl
@[simp] theorem popAction_ce : (popAction s).ce = s.ce := rfl
@[simp] theorem popAction_txActive : (popAction s).txActive = s.txActive := rfl
@[simp] theorem popAction_txf : (popAction s).txf = s.txf := rfl
@[simp] theorem popAction_rxf : (popAction s).rxf = s.rxf := rfl
@[simp] theorem popAction_rxDr : (popAction s).rxDr = s.rxDr := rfl
@[simp] theorem popAction_txDs : (popAction s).txDs = s.txDs := rfl
@[simp] theorem popAction_maxRt : (popAction s).maxRt = s.maxRt := rfl
@[simp] theorem popAction_regs : (popAction s).regs = s.regs := rfl
@[simp] theorem popAction_dev : (popAction s).dev = s.dev := rfl
@[simp] theorem popAction_pending : (popAction s).pending = s.pending.tail := rfl
@[simp] theorem popAction_reply : (popAction s).reply = s.reply := rfl
@[simp] theorem popAction_rmw : (popAction s).rmw = s.rmw := rfl
@[simp] theorem popAction_edges : (popAction s).edges = s.edges := rfl
@[simp] theorem popAction_draws : (popAction s).draws = s.draws := rfl

/-! ### openFrame -/

@[simp] theorem openFrame_params : (openFrame s).params = s.params := rfl
@[simp] theorem openFrame_csn : (openFrame s).csn = false := rfl
@[simp] theorem openFrame_frOpen : (openFrame s).frOpen = true := rfl
@[simp] theorem openFrame_frCmd : (openFrame s).frCmd = none := rfl
@[simp] theorem openFrame_frIdx : (openFrame s).frIdx = 0 := rfl
@[simp] theorem openFrame_frBuf : (openFrame s).frBuf = [] := rfl
@[simp] theorem openFrame_ce : (openFrame s).ce = s.ce := rfl
@[simp] theorem openFrame_txActive : (openFrame s).txActive = s.txActive := rfl
@[simp] theorem openFrame_txf : (openFrame s).txf = s.txf := rfl
@[simp] theorem openFrame_rxf : (openFrame s).rxf = s.rxf := rfl
@[simp] theorem openFrame_rxDr : (openFrame s).rxDr = s.rxDr := rfl
@[simp] theorem openFrame_txDs : (openFrame s).txDs = s.txDs := rfl
@[simp] theorem openFrame_maxRt : (openFrame s).maxRt = s.maxRt := rfl
@[simp] theorem openFrame_regs : (openFrame s).regs = s.regs := rfl
@[simp] theorem openFrame_dev : (openFrame s).dev = s.dev := rfl
@[simp] theorem openFrame_pending : (openFrame s).pending = s.pending := rfl
@[simp] theorem openFrame_reply : (openFrame s).reply = [] := rfl
@[simp] theorem openFrame_rmw : (openFrame s).rmw = s.rmw := rfl
@[simp] theorem openFrame_edges : (openFrame s).edges = s.edges := rfl
@[simp] theorem openFrame_draws : (openFrame s).draws = s.draws := rfl

/-! ### commandByte -/

@[simp] theorem commandByte_params : (commandByte m s).params = s.params := rfl
@[simp] theorem commandByte_csn : (commandByte m s).csn = s.csn := rfl
@[simp] theorem commandByte_frOpen : (commandByte m s).frOpen = s.frOpen := rfl
@[simp] theorem commandByte_frCmd : (commandByte m s).frCmd = some m := rfl
@[simp] theorem commandByte_frIdx : (commandByte m s).frIdx = s.frIdx := rfl
@[simp] theorem commandByte_frBuf : (commandByte m s).frBuf = s.frBuf := rfl
@[simp] theorem commandByte_ce : (commandByte m s).ce = s.ce := rfl
@[simp] theorem commandByte_txActive : (commandByte m s).txActive = s.txActive := rfl
@[simp] theorem commandByte_txf : (commandByte m s).txf = s.txf := rfl
@[simp] theorem commandByte_rxf : (commandByte m s).rxf = s.rxf := rfl
@[simp] theorem commandByte_rxDr : (commandByte m s).rxDr = s.rxDr := rfl
@[simp] theorem commandByte_txDs : (commandByte m s).txDs = s.txDs := rfl
@[simp] theorem commandByte_maxRt : (commandByte m s).maxRt = s.maxRt := rfl
@[simp] theorem commandByte_regs : (commandByte m s).regs = s.regs := rfl
@[simp] theorem commandByte_dev : (commandByte m s).dev = s.dev := rfl
@[simp] theorem commandByte_pending : (commandByte m s).pending = s.pending := rfl
@[simp] theorem commandByte_reply : (commandByte m s).reply = s.reply ++ [status s] := rfl
@[simp] theorem commandByte_rmw : (commandByte m s).rmw = s.rmw := rfl
@[simp] theorem commandByte_edges : (commandByte m s).edges = s.edges := rfl
@[simp] theorem commandByte_draws : (commandByte m s).draws = s.draws := rfl

/-! ### closeFrame -/

@[simp] theorem closeFrame_params : (closeFrame s).params = s.params := rfl
@[simp] theorem closeFrame_csn : (closeFrame s).csn = true := rfl
@[simp] theorem closeFrame_frOpen : (closeFrame s).frOpen = false := rfl
@[simp] theorem closeFrame_frCmd : (closeFrame s).frCmd = none := rfl
@[simp] theorem closeFrame_frIdx : (closeFrame s).frIdx = 0 := rfl
@[simp] theorem closeFrame_frBuf : (closeFrame s).frBuf = [] := rfl
@[simp] theorem closeFrame_ce : (closeFrame s).ce = s.ce := rfl
@[simp] theorem closeFrame_txActive : (closeFrame s).txActive = s.txActive := rfl
@[simp] theorem closeFrame_txf : (closeFrame s).txf = s.txf := rfl
@[simp] theorem closeFrame_rxf : (closeFrame s).rxf = s.rxf := rfl
@[simp] theorem closeFrame_rxDr : (closeFrame s).rxDr = s.rxDr := rfl
@[simp] theorem closeFrame_txDs : (closeFrame s).txDs = s.txDs := rfl
@[simp] theorem closeFrame_maxRt : (closeFrame s).maxRt = s.maxRt := rfl
@[simp] theorem closeFrame_regs : (closeFrame s).regs = s.regs := rfl
@[simp] theorem closeFrame_dev : (closeFrame s).dev = s.dev := rfl
@[simp] theorem closeFrame_pending : (closeFrame s).pending = s.pending := rfl
@[simp] theorem closeFrame_reply : (closeFrame s).reply = s.reply := rfl
@[simp] theorem closeFrame_rmw : (closeFrame s).rmw = s.rmw := rfl
@[simp] theorem closeFrame_edges : (closeFrame s).edges = s.edges := rfl
@[simp] theorem closeFrame_draws : (closeFrame s).draws = s.draws := rfl

/-! ### answer -/

@[simp] theorem answer_params : (answer m s).params = s.params := rfl
@[simp] theorem answer_csn : (answer m s).csn = s.csn := rfl
@[simp] theorem answer_frOpen : (answer m s).frOpen = s.frOpen := rfl
@[simp] theorem answer_frCmd : (answer m s).frCmd = s.frCmd := rfl
@[simp] theorem answer_frIdx : (answer m s).frIdx = s.frIdx + 1 := rfl
@[simp] theorem answer_frBuf : (answer m s).frBuf = s.frBuf := rfl
@[simp] theorem answer_ce : (answer m s).ce = s.ce := rfl
@[simp] theorem answer_txActive : (answer m s).txActive = s.txActive := rfl
@[simp] theorem answer_txf : (answer m s).txf = s.txf := rfl
@[simp] theorem answer_rxf : (answer m s).rxf = s.rxf := rfl
@[simp] theorem answer_rxDr : (answer m s).rxDr = s.rxDr := rfl
@[simp] theorem answer_txDs : (answer m s).txDs = s.txDs := rfl
@[simp] theorem answer_maxRt : (answer m s).maxRt = s.maxRt := rfl
@[simp] theorem answer_regs : (answer m s).regs = s.regs := rfl
@[simp] theorem answer_dev : (answer m s).dev = s.dev := rfl
@[simp] theorem answer_pending : (answer m s).pending = s.pending := rfl
@[simp] theorem answer_reply : (answer m s).reply = s.reply ++ [m] := rfl
@[simp] theorem answer_rmw : (answer m s).rmw = s.rmw := rfl
@[simp] theorem answer_edges : (answer m s).edges = s.edges := rfl
@[simp] theorem answer_draws : (answer m s).draws = s.draws := rfl

/-! ### answerDraw -/

@[simp] theorem answerDraw_params : (answerDraw s).params = s.params := rfl
@[simp] theorem answerDraw_csn : (answerDraw s).csn = s.csn := rfl
@[simp] theorem answerDraw_frOpen : (answerDraw s).frOpen = s.frOpen := rfl
@[simp] theorem answerDraw_frCmd : (answerDraw s).frCmd = s.frCmd := rfl
@[simp] theorem answerDraw_frIdx : (answerDraw s).frIdx = s.frIdx + 1 := rfl
@[simp] theorem answerDraw_frBuf : (answerDraw s).frBuf = s.frBuf := rfl
@[simp] theorem answerDraw_ce : (answerDraw s).ce = s.ce := rfl
@[simp] theorem answerDraw_txActive : (answerDraw s).txActive = s.txActive := rfl
@[simp] theorem answerDraw_txf : (answerDraw s).txf = s.txf := rfl
@[simp] theorem answerDraw_rxf : (answerDraw s).rxf = s.rxf := rfl
@[simp] theorem answerDraw_rxDr : (answerDraw s).rxDr = s.rxDr := rfl
@[simp] theorem answerDraw_txDs : (answerDraw s).txDs = s.txDs := rfl
@[simp] theorem answerDraw_maxRt : (answerDraw s).maxRt = s.maxRt := rfl
@[simp] theorem answerDraw_regs : (answerDraw s).regs = s.regs := rfl
@[simp] theorem answerDraw_dev : (answerDraw s).dev = s.dev := rfl
@[simp] theorem answerDraw_pending : (answerDraw s).pending = s.pending := rfl
@[simp] theorem answerDraw_reply : (answerDraw s).reply = s.reply ++ [Config.draw s.draws] := rfl
@[simp] theorem answerDraw_rmw : (answerDraw s).rmw = s.rmw := rfl
@[simp] theorem answerDraw_edges : (answerDraw s).edges = s.edges := rfl
@[simp] theorem answerDraw_draws : (answerDraw s).draws = s.draws + 1 := rfl

/-! ### bufferByte -/

@[simp] theorem bufferByte_params : (bufferByte m s).params = s.params := rfl
@[simp] theorem bufferByte_csn : (bufferByte m s).csn = s.csn := rfl
@[simp] theorem bufferByte_frOpen : (bufferByte m s).frOpen = s.frOpen := rfl
@[simp] theorem bufferByte_frCmd : (bufferByte m s).frCmd = s.frCmd := rfl
@[simp] theorem bufferByte_frIdx : (bufferByte m s).frIdx = s.frIdx + 1 := rfl
@[simp] theorem bufferByte_frBuf : (bufferByte m s).frBuf = s.frBuf ++ [m] := rfl
@[simp] theorem bufferByte_ce : (bufferByte m s).ce = s.ce := rfl
@[simp] theorem bufferByte_txActive : (bufferByte m s).txActive = s.txActive := rfl
@[simp] theorem bufferByte_txf : (bufferByte m s).txf = s.txf := rfl
@[simp] theorem bufferByte_rxf : (bufferByte m s).rxf = s.rxf := rfl
@[simp] theorem bufferByte_rxDr : (bufferByte m s).rxDr = s.rxDr := rfl
@[simp] theorem bufferByte_txDs : (bufferByte m s).txDs = s.txDs := rfl
@[simp] theorem bufferByte_maxRt : (bufferByte m s).maxRt = s.maxRt := rfl
@[simp] theorem bufferByte_regs : (bufferByte m s).regs = s.regs := rfl
@[simp] theorem bufferByte_dev : (bufferByte m s).dev = s.dev := rfl
@[simp] theorem bufferByte_pending : (bufferByte m s).pending = s.pending := rfl
@[simp] theorem bufferByte_reply : (bufferByte m s).reply = s.reply ++ [Config.draw s.draws] := rfl
@[simp] theorem bufferByte_rmw : (bufferByte m s).rmw = s.rmw := rfl
@[simp] theorem bufferByte_edges : (bufferByte m s).edges = s.edges := rfl
@[simp] theorem bufferByte_draws : (bufferByte m s).draws = s.draws + 1 := rfl

/-! ### pushTx -/

@[simp] theorem pushTx_params : (pushTx te s).params = s.params := rfl
@[simp] theorem pushTx_csn : (pushTx te s).csn = s.csn := rfl
@[simp] theorem pushTx_frOpen : (pushTx te s).frOpen = s.frOpen := rfl
@[simp] theorem pushTx_frCmd : (pushTx te s).frCmd = s.frCmd := rfl
@[simp] theorem pushTx_frIdx : (pushTx te s).frIdx = s.frIdx := rfl
@[simp] theorem pushTx_frBuf : (pushTx te s).frBuf = s.frBuf := rfl
@[simp] theorem pushTx_ce : (pushTx te s).ce = s.ce := rfl
@[simp] theorem pushTx_txActive : (pushTx te s).txActive = s.txActive := rfl
@[simp] theorem pushTx_txf : (pushTx te s).txf = s.txf ++ [te] := rfl
@[simp] theorem pushTx_rxf : (pushTx te s).rxf = s.rxf := rfl
@[simp] theorem pushTx_rxDr : (pushTx te s).rxDr = s.rxDr := rfl
@[simp] theorem pushTx_txDs : (pushTx te s).txDs = s.txDs := rfl
@[simp] theorem pushTx_maxRt : (pushTx te s).maxRt = s.maxRt := rfl
@[simp] theorem pushTx_regs : (pushTx te s).regs = s.regs := rfl
@[simp] theorem pushTx_dev : (pushTx te s).dev = s.dev := rfl
@[simp] theorem pushTx_pending : (pushTx te s).pending = s.pending := rfl
@[simp] theorem pushTx_reply : (pushTx te s).reply = s.reply := rfl
@[simp] theorem pushTx_rmw : (pushTx te s).rmw = s.rmw := rfl
@[simp] theorem pushTx_edges : (pushTx te s).edges = s.edges := rfl
@[simp] theorem pushTx_draws : (pushTx te s).draws = s.draws := rfl

/-! ### popTx -/

@[simp] theorem popTx_params : (popTx s).params = s.params := rfl
@[simp] theorem popTx_csn : (popTx s).csn = s.csn := rfl
@[simp] theorem popTx_frOpen : (popTx s).frOpen = s.frOpen := rfl
@[simp] theorem popTx_frCmd : (popTx s).frCmd = s.frCmd := rfl
@[simp] theorem popTx_frIdx : (popTx s).frIdx = s.frIdx := rfl
@[simp] theorem popTx_frBuf : (popTx s).frBuf = s.frBuf := rfl
@[simp] theorem popTx_ce : (popTx s).ce = s.ce := rfl
@[simp] theorem popTx_txActive : (popTx s).txActive = s.txActive := rfl
@[simp] theorem popTx_txf : (popTx s).txf = s.txf.tail := rfl
@[simp] theorem popTx_rxf : (popTx s).rxf = s.rxf := rfl
@[simp] theorem popTx_rxDr : (popTx s).rxDr = s.rxDr := rfl
@[simp] theorem popTx_txDs : (popTx s).txDs = s.txDs := rfl
@[simp] theorem popTx_maxRt : (popTx s).maxRt = s.maxRt := rfl
@[simp] theorem popTx_regs : (popTx s).regs = s.regs := rfl
@[simp] theorem popTx_dev : (popTx s).dev = s.dev := rfl
@[simp] theorem popTx_pending : (popTx s).pending = s.pending := rfl
@[simp] theorem popTx_reply : (popTx s).reply = s.reply := rfl
@[simp] theorem popTx_rmw : (popTx s).rmw = s.rmw := rfl
@[simp] theorem popTx_edges : (popTx s).edges = s.edges := rfl
@[simp] theorem popTx_draws : (popTx s).draws = s.draws := rfl

/-! ### pushRx -/

@[simp] theorem pushRx_params : (pushRx re s).params = s.params := rfl
@[simp] theorem pushRx_csn : (pushRx re s).csn = s.csn := rfl
@[simp] theorem pushRx_frOpen : (pushRx re s).frOpen = s.frOpen := rfl
@[simp] theorem pushRx_frCmd : (pushRx re s).frCmd = s.frCmd := rfl
@[simp] theorem pushRx_frIdx : (pushRx re s).frIdx = s.frIdx := rfl
@[simp] theorem pushRx_frBuf : (pushRx re s).frBuf = s.frBuf := rfl
@[simp] theorem pushRx_ce : (pushRx re s).ce = s.ce := rfl
@[simp] theorem pushRx_txActive : (pushRx re s).txActive = s.txActive := rfl
@[simp] theorem pushRx_txf : (pushRx re s).txf = s.txf := rfl
@[simp] theorem pushRx_rxf : (pushRx re s).rxf = s.rxf ++ [re] := rfl
@[simp] theorem pushRx_rxDr : (pushRx re s).rxDr = s.rxDr := rfl
@[simp] theorem pushRx_txDs : (pushRx re s).txDs = s.txDs := rfl
@[simp] theorem pushRx_maxRt : (pushRx re s).maxRt = s.maxRt := rfl
@[simp] theorem pushRx_regs : (pushRx re s).regs = s.regs := rfl
@[simp] theorem pushRx_dev : (pushRx re s).dev = s.dev := rfl
@[simp] theorem pushRx_pending : (pushRx re s).pending = s.pending := rfl
@[simp] theorem pushRx_reply : (pushRx re s).reply = s.reply := rfl
@[simp] theorem pushRx_rmw : (pushRx re s).rmw = s.rmw := rfl
@[simp] theorem pushRx_edges : (pushRx re s).edges = s.edges := rfl
@[simp] theorem pushRx_draws : (pushRx re s).draws = s.draws := rfl

/-! ### popRx -/

@[simp] theorem popRx_params : (popRx s).params = s.params := rfl
@[simp] theorem popRx_csn : (popRx s).csn = s.csn := rfl
@[simp] theorem popRx_frOpen : (popRx s).frOpen = s.frOpen := rfl
@[simp] theorem popRx_frCmd : (popRx s).frCmd = s.frCmd := rfl
@[simp] theorem popRx_frIdx : (popRx s).frIdx = s.frIdx := rfl
@[simp] theorem popRx_frBuf : (popRx s).frBuf = s.frBuf := rfl
@[simp] theorem popRx_ce : (popRx s).ce = s.ce := rfl
@[simp] theorem popRx_txActive : (popRx s).txActive = s.txActive := rfl
@[simp] theorem popRx_txf : (popRx s).txf = s.txf := rfl
@[simp] theorem popRx_rxf : (popRx s).rxf = s.rxf.tail := rfl
@[simp] theorem popRx_rxDr : (popRx s).rxDr = s.rxDr := rfl
@[simp] theorem popRx_txDs : (popRx s).txDs = s.txDs := rfl
@[simp] theorem popRx_maxRt : (popRx s).maxRt = s.maxRt := rfl
@[simp] theorem popRx_regs : (popRx s).regs = s.regs := rfl
@[simp] theorem popRx_dev : (popRx s).dev = s.dev := rfl
@[simp] theorem popRx_pending : (popRx s).pending = s.pending := rfl
@[simp] theorem popRx_reply : (popRx s).reply = s.reply := rfl
@[simp] theorem popRx_rmw : (popRx s).rmw = s.rmw := rfl
@[simp] theorem popRx_edges : (popRx s).edges = s.edges := rfl
@[simp] theorem popRx_draws : (popRx s).draws = s.draws := rfl

/-! ### clearFlags -/

@[simp] theorem clearFlags_params : (clearFlags m s).params = s.params := rfl
@[simp] theorem clearFlags_csn : (clearFlags m s).csn = s.csn := rfl
@[simp] theorem clearFlags_frOpen : (clearFlags m s).frOpen = s.frOpen := rfl
@[simp] theorem clearFlags_frCmd : (clearFlags m s).frCmd = s.frCmd := rfl
@[simp] theorem clearFlags_frIdx : (clearFlags m s).frIdx = s.frIdx := rfl
@[simp] theorem clearFlags_frBuf : (clearFlags m s).frBuf = s.frBuf := rfl
@[simp] theorem clearFlags_ce : (clearFlags m s).ce = s.ce := rfl
@[simp] theorem clearFlags_txActive : (clearFlags m s).txActive = s.txActive := rfl
@[simp] theorem clearFlags_txf : (clearFlags m s).txf = s.txf := rfl
@[simp] theorem clearFlags_rxf : (clearFlags m s).rxf = s.rxf := rfl
@[simp] theorem clearFlags_rxDr : (clearFlags m s).rxDr = (s.rxDr && !m.getLsbD 6) := rfl
@[simp] theorem clearFlags_txDs : (clearFlags m s).txDs = (s.txDs && !m.getLsbD 5) := rfl
@[simp] theorem clearFlags_maxRt : (clearFlags m s).maxRt = (s.maxRt && !m.getLsbD 4) := rfl
@[simp] theorem clearFlags_regs : (clearFlags m s).regs = s.regs := rfl
@[simp] theorem clearFlags_dev : (clearFlags m s).dev = s.dev := rfl
@[simp] theorem clearFlags_pending : (clearFlags m s).pending = s.pending := rfl
@[simp] theorem clearFlags_reply : (clearFlags m s).reply = s.reply := rfl
@[simp] theorem clearFlags_rmw : (clearFlags m s).rmw = s.rmw := rfl
@[simp] theorem clearFlags_edges : (clearFlags m s).edges = s.edges := rfl
@[simp] theorem clearFlags_draws : (clearFlags m s).draws = s.draws := rfl

/-! ### irqEdge -/

@[simp] theorem irqEdge_params : (irqEdge s).params = s.params := rfl
@[simp] theorem irqEdge_csn : (irqEdge s).csn = s.csn := rfl
@[simp] theorem irqEdge_frOpen : (irqEdge s).frOpen = s.frOpen := rfl
@[simp] theorem irqEdge_frCmd : (irqEdge s).frCmd = s.frCmd := rfl
@[simp] theorem irqEdge_frIdx : (irqEdge s).frIdx = s.frIdx := rfl
@[simp] theorem irqEdge_frBuf : (irqEdge s).frBuf = s.frBuf := rfl
@[simp] theorem irqEdge_ce : (irqEdge s).ce = s.ce := rfl
@[simp] theorem irqEdge_txActive : (irqEdge s).txActive = s.txActive := rfl
@[simp] theorem irqEdge_txf : (irqEdge s).txf = s.txf := rfl
@[simp] theorem irqEdge_rxf : (irqEdge s).rxf = s.rxf := rfl
@[simp] theorem irqEdge_rxDr : (irqEdge s).rxDr = s.rxDr := rfl
@[simp] theorem irqEdge_txDs : (irqEdge s).txDs = s.txDs := rfl
@[simp] theorem irqEdge_maxRt : (irqEdge s).maxRt = s.maxRt := rfl
@[simp] theorem irqEdge_regs : (irqEdge s).regs = s.regs := rfl
@[simp] theorem irqEdge_dev : (irqEdge s).dev = { s.dev with calls := s.dev.calls ++ s.dev.cb.toList } := rfl
@[simp] theorem irqEdge_pending : (irqEdge s).pending = s.pending := rfl
@[simp] theorem irqEdge_reply : (irqEdge s).reply = s.reply := rfl
@[simp] theorem irqEdge_rmw : (irqEdge s).rmw = s.rmw := rfl
@[simp] theorem irqEdge_edges : (irqEdge s).edges = s.edges + 1 := rfl
@[simp] theorem irqEdge_draws : (irqEdge s).draws = s.draws := rfl

/-! ### ceHigh -/

@[simp] theorem ceHigh_params : (ceHigh s).params = s.params := rfl
@[simp] theorem ceHigh_csn : (ceHigh s).csn = s.csn := rfl
@[simp] theorem ceHigh_frOpen : (ceHigh s).frOpen = s.frOpen := rfl
@[simp] theorem ceHigh_frCmd : (ceHigh s).frCmd = s.frCmd := rfl
@[simp] theorem ceHigh_frIdx : (ceHigh s).frIdx = s.frIdx := rfl
@[simp] theorem ceHigh_frBuf : (ceHigh s).frBuf = s.frBuf := rfl
@[simp] theorem ceHigh_ce : (ceHigh s).ce = true := rfl
@[simp] theorem ceHigh_txActive : (ceHigh s).txActive = s.txActive := rfl
@[simp] theorem ceHigh_txf : (ceHigh s).txf = s.txf := rfl
@[simp] theorem ceHigh_rxf : (ceHigh s).rxf = s.rxf := rfl
@[simp] theorem ceHigh_rxDr : (ceHigh s).rxDr = s.rxDr := rfl
@[simp] theorem ceHigh_txDs : (ceHigh s).txDs = s.txDs := rfl
@[simp] theorem ceHigh_maxRt : (ceHigh s).maxRt = s.maxRt := rfl
@[simp] theorem ceHigh_regs : (ceHigh s).regs = s.regs := rfl
@[simp] theorem ceHigh_dev : (ceHigh s).dev = s.dev := rfl
@[simp] theorem ceHigh_pending : (ceHigh s).pending = s.pending := rfl
@[simp] theorem ceHigh_reply : (ceHigh s).reply = s.reply := rfl
@[simp] theorem ceHigh_rmw : (ceHigh s).rmw = s.rmw := rfl
@[simp] theorem ceHigh_edges : (ceHigh s).edges = s.edges := rfl
@[simp] theorem ceHigh_draws : (ceHigh s).draws = s.draws := rfl

/-! ### ceLow -/

@[simp] theorem ceLow_params : (ceLow s).params = s.params := rfl
@[simp] theorem ceLow_csn : (ceLow s).csn = s.csn := rfl
@[simp] theorem ceLow_frOpen : (ceLow s).frOpen = s.frOpen := rfl
@[simp] theorem ceLow_frCmd : (ceLow s).frCmd = s.frCmd := rfl
@[simp] theorem ceLow_frIdx : (ceLow s).frIdx = s.frIdx := rfl
@[simp] theorem ceLow_frBuf : (ceLow s).frBuf = s.frBuf := rfl
@[simp] theorem ceLow_ce : (ceLow s).ce = false := rfl
@[simp] theorem ceLow_txActive : (ceLow s).txActive = s.txActive := rfl
@[simp] theorem ceLow_txf : (ceLow s).txf = s.txf := rfl
@[simp] theorem ceLow_rxf : (ceLow s).rxf = s.rxf := rfl
@[simp] theorem ceLow_rxDr : (ceLow s).rxDr = s.rxDr := rfl
@[simp] theorem ceLow_txDs : (ceLow s).txDs = s.txDs := rfl
@[simp] theorem ceLow_maxRt : (ceLow s).maxRt = s.maxRt := rfl
@[simp] theorem ceLow_regs : (ceLow s).regs = s.regs := rfl
@[simp] theorem ceLow_dev : (ceLow s).dev = s.dev := rfl
@[simp] theorem ceLow_pending : (ceLow s).pending = s.pending := rfl
@[simp] theorem ceLow_reply : (ceLow s).reply = s.reply := rfl
@[simp] theorem ceLow_rmw : (ceLow s).rmw = s.rmw := rfl
@[simp] theorem ceLow_edges : (ceLow s).edges = s.edges := rfl
@[simp] theorem ceLow_draws : (ceLow s).draws = s.draws := rfl

end Sys2Proof.Machine
end

