-- ==== Sys2Proof/Laws/Ops.lean ====
section
/-! SUPPORT. What the shared operations can do, said once: sequencing, the interrupt edge, a data phase, a
command over the bus steps of its frame. -/

namespace Sys2Proof.Machine

/-! ### Sequencing -/

@[simp] theorem andThen_next (s : State) (f : State → Host.Outcome State Fault Refusal) :
    andThen (.next s) f = f s := rfl

@[simp] theorem andThen_refused (r : Refusal) (f : State → Host.Outcome State Fault Refusal) :
    andThen (.refused r) f = .refused r := rfl

theorem andThen_eq_next {o : Host.Outcome State Fault Refusal}
    {f : State → Host.Outcome State Fault Refusal} {t : State} :
    andThen o f = .next t ↔ ∃ u, o = .next u ∧ f u = .next t := by
  cases o <;> simp [andThen]

/-! ### The interrupt line and its edge -/

/-- The line depends on the three flags and on CONFIG only (R235). -/
theorem irqN_congr {s t : State} (h1 : t.rxDr = s.rxDr) (h2 : t.txDs = s.txDs) (h3 : t.maxRt = s.maxRt)
    (h4 : t.regs.config = s.regs.config) : irqN t = irqN s := by
  simp only [irqN, maskRxDr, maskTxDs, maskMaxRt, h1, h2, h3, h4]

/-- Acknowledging can only release the line (R239). -/
theorem irqN_clearFlags (v : Byte) (s : State) (h : irqN s = true) : irqN (clearFlags v s) = true := by
  simp only [irqN, maskRxDr, maskTxDs, maskMaxRt, clearFlags] at *
  revert h
  cases s.rxDr <;> cases s.txDs <;> cases s.maxRt <;> simp <;> grind

theorem settleIrq_eq_self {s t : State} (h : ¬(irqN s = true ∧ irqN t = false)) : settleIrq s t = t := by
  rw [settleIrq, if_neg h]

theorem settleIrq_of_irqN_eq {s t : State} (h : irqN t = irqN s) : settleIrq s t = t :=
  settleIrq_eq_self (by rw [h]; cases irqN s <;> simp)

/-- An edge touches nothing but the count of edges and the driver object. -/
theorem settleIrq_cases (s t : State) :
    settleIrq s t = { t with edges := (settleIrq s t).edges, dev := (settleIrq s t).dev } := by
  unfold settleIrq irqEdge; split <;> rfl

theorem settleIrq_edges (s t : State) :
    (settleIrq s t).edges = t.edges + if irqN s = true ∧ irqN t = false then 1 else 0 := by
  unfold settleIrq; split <;> rfl

theorem settleIrq_calls (s t : State) : (settleIrq s t).dev.calls
      = t.dev.calls ++ if irqN s = true ∧ irqN t = false then t.dev.cb.toList else [] := by
  unfold settleIrq; split <;> simp

@[simp] theorem settleIrq_params (s t : State) : (settleIrq s t).params = t.params := by
  rw [settleIrq_cases]
@[simp] theorem settleIrq_csn (s t : State) : (settleIrq s t).csn = t.csn := by
  rw [settleIrq_cases]
@[simp] theorem settleIrq_frOpen (s t : State) : (settleIrq s t).frOpen = t.frOpen := by
  rw [settleIrq_cases]
@[simp] theorem settleIrq_frCmd (s t : State) : (settleIrq s t).frCmd = t.frCmd := by
  rw [settleIrq_cases]
@[simp] theorem settleIrq_frIdx (s t : State) : (settleIrq s t).frIdx = t.frIdx := by
  rw [settleIrq_cases]
@[simp] theorem settleIrq_frBuf (s t : State) : (settleIrq s t).frBuf = t.frBuf := by
  rw [settleIrq_cases]
@[simp] theorem settleIrq_ce (s t : State) : (settleIrq s t).ce = t.ce := by
  rw [settleIrq_cases]
@[simp] theorem settleIrq_txActive (s t : State) : (settleIrq s t).txActive = t.txActive := by
  rw [settleIrq_cases]
@[simp] theorem settleIrq_txf (s t : State) : (settleIrq s t).txf = t.txf := by
  rw [settleIrq_cases]
@[simp] theorem settleIrq_rxf (s t : State) : (settleIrq s t).rxf = t.rxf := by
  rw [settleIrq_cases]
@[simp] theorem settleIrq_rxDr (s t : State) : (settleIrq s t).rxDr = t.rxDr := by
  rw [settleIrq_cases]
@[simp] theorem settleIrq_txDs (s t : State) : (settleIrq s t).txDs = t.txDs := by
  rw [settleIrq_cases]
@[simp] theorem settleIrq_maxRt (s t : State) : (settleIrq s t).maxRt = t.maxRt := by
  rw [settleIrq_cases]
@[simp] theorem settleIrq_regs (s t : State) : (settleIrq s t).regs = t.regs := by
  rw [settleIrq_cases]
@[simp] theorem settleIrq_pending (s t : State) : (settleIrq s t).pending = t.pending := by
  rw [settleIrq_cases]
@[simp] theorem settleIrq_reply (s t : State) : (settleIrq s t).reply = t.reply := by
  rw [settleIrq_cases]
@[simp] theorem settleIrq_draws (s t : State) : (settleIrq s t).draws = t.draws := by
  rw [settleIrq_cases]

theorem settleIrq_irqN (s t : State) : irqN (settleIrq s t) = irqN t :=
  irqN_congr (by simp) (by simp) (by simp) (by simp)

/-! ### What the bus may touch before a commit -/

/-- `t` differs from `s` in nothing but the frame latches, the chip-select level, the record of returned bytes,
the read-modify-writes under way, the count of free values and the list of pending steps. -/
def busOnly (s t : State) : Prop :=
  t = { s with
    pending := t.pending, csn := t.csn, frOpen := t.frOpen, frCmd := t.frCmd, frIdx := t.frIdx
    frBuf := t.frBuf, reply := t.reply, rmw := t.rmw, draws := t.draws }

theorem busOnly_refl (s : State) : busOnly s s := rfl

theorem busOnly_trans {s t u : State} (h1 : busOnly s t) (h2 : busOnly t u) : busOnly s u := by
  rw [busOnly] at *; rw [h2, h1]

theorem busOnly_popAction (s : State) : busOnly s (popAction s) := rfl
theorem busOnly_openFrame (s : State) : busOnly s (openFrame s) := rfl
theorem busOnly_commandByte (m : Byte) (s : State) : busOnly s (commandByte m s) := rfl
theorem busOnly_closeFrame (s : State) : busOnly s (closeFrame s) := rfl
theorem busOnly_answer (m : Byte) (s : State) : busOnly s (answer m s) := rfl
theorem busOnly_answerDraw (s : State) : busOnly s (answerDraw s) := rfl
theorem busOnly_bufferByte (m : Byte) (s : State) : busOnly s (bufferByte m s) := rfl

/-- The block's state outside the latches, and the host's, are equal. -/
theorem busOnly_fields {s t : State} (h : busOnly s t) :
    t.params = s.params ∧ t.ce = s.ce ∧ t.txActive = s.txActive ∧ t.txf = s.txf ∧ t.rxf = s.rxf
      ∧ t.rxDr = s.rxDr ∧ t.txDs = s.txDs ∧ t.maxRt = s.maxRt ∧ t.regs = s.regs ∧ t.dev = s.dev
      ∧ t.edges = s.edges := by
  rw [h]; simp

theorem busOnly_irqN {s t : State} (h : busOnly s t) : irqN t = irqN s := by
  obtain ⟨-, -, -, -, -, h1, h2, h3, h4, -⟩ := busOnly_fields h
  exact irqN_congr h1 h2 h3 (by rw [h4])

theorem busOnly_status {s t : State} (h : busOnly s t) : status t = status s := by
  rw [h]; rfl

/-! ### Data phases -/

/-- A data byte of a command that goes through leaves the frame open, its command latched, and touches only what
the bus may touch. -/
def DataSound (data : Byte → State → Host.Outcome State Fault Refusal) : Prop :=
  ∀ m s t, data m s = .next t → busOnly s t ∧ t.frOpen = s.frOpen ∧ t.csn = s.csn ∧ t.frCmd = s.frCmd
    ∧ t.pending = s.pending ∧ t.frIdx = s.frIdx + 1

theorem readData_sound (r : Reg) : DataSound (readData r) := by
  intro m s t h
  simp only [readData] at h
  split at h <;> cases h
  · exact ⟨busOnly_answer _ s, rfl, rfl, rfl, rfl, rfl⟩
  · exact ⟨busOnly_answerDraw s, rfl, rfl, rfl, rfl, rfl⟩

theorem bufferData_sound : DataSound bufferData := by
  intro m s t h
  cases h
  exact ⟨busOnly_bufferByte m s, rfl, rfl, rfl, rfl, rfl⟩

theorem payloadData_sound : DataSound payloadData := by
  intro m s t h
  simp only [payloadData] at h
  split at h <;> cases h
  · exact ⟨busOnly_answer _ s, rfl, rfl, rfl, rfl, rfl⟩
  · exact ⟨busOnly_answerDraw s, rfl, rfl, rfl, rfl, rfl⟩

theorem refuseData_sound : DataSound refuseData := by
  intro m s t h; cases h

/-- A whole data phase touches only what the bus may touch and counts its bytes. -/
theorem dataPhase_sound {data : Byte → State → Host.Outcome State Fault Refusal} (hd : DataSound data) :
    ∀ (ms : List Byte) (s t : State), dataPhase data ms s = .next t →
      busOnly s t ∧ t.frOpen = s.frOpen ∧ t.csn = s.csn ∧ t.frCmd = s.frCmd ∧ t.pending = s.pending
        ∧ t.frIdx = s.frIdx + ms.length
  | [], s, t, h => by
      cases h; exact ⟨busOnly_refl s, rfl, rfl, rfl, rfl, rfl⟩
  | m :: ms, s, t, h => by
      obtain ⟨u, hu, ht⟩ := andThen_eq_next.1 h
      obtain ⟨a1, a2, a3, a4, a5, a6⟩ := hd m s u hu
      obtain ⟨b1, b2, b3, b4, b5, b6⟩ := dataPhase_sound hd ms u t ht
      refine ⟨busOnly_trans a1 b1, b2.trans a2, b3.trans a3, b4.trans a4, b5.trans a5, ?_⟩
      rw [b6, a6, List.length_cons]; omega

/-- A write-class data phase buffers its bytes in order, answers each with a free value, and never stops. -/
theorem dataPhase_bufferData : ∀ (ms : List Byte) (s : State), dataPhase bufferData ms s = .next { s with
      frBuf := s.frBuf ++ ms
      reply := s.reply ++ (List.range ms.length).map fun k => Config.draw (s.draws + k)
      frIdx := s.frIdx + ms.length
      draws := s.draws + ms.length }
  | [], s => by simp [dataPhase]
  | m :: ms, s => by
      rw [dataPhase, bufferData, andThen_next, dataPhase_bufferData ms]
      simp only [bufferByte_frBuf, List.length_cons, List.range_succ_eq_map]
      simp [bufferByte, answerDraw, Function.comp_def, Nat.add_assoc, Nat.add_comm]
      intro k _; congr 1; omega

/-! ### A command over the bus steps of its frame -/

variable {data : Byte → State → Host.Outcome State Fault Refusal}
  {commit : State → Host.Outcome State Fault Refusal} {s t : State}

theorem runCommand_xfer {m : Byte} {rest : List Action} (h : s.pending = .xfer m :: rest) :
    runCommand data commit s = xferStep data m (popAction s) := by
  simp [runCommand, h]

theorem runCommand_csnRise {rest : List Action} (h : s.pending = .csnRise :: rest) :
    runCommand data commit s = riseStep commit (popAction s) := by
  simp [runCommand, h]

theorem runCommand_frame {b : Byte} {ds : List Byte} {rest : List Action}
    (h : s.pending = .frame (b :: ds) :: rest) :
    runCommand data commit s = frameStep data commit b ds (popAction s) := by
  simp [runCommand, h]

/-- Chip-select rises over a latched command: the commit, the closing, the edge. -/
theorem riseStep_some {b : Byte} (ho : s.frOpen = true) (hc : s.frCmd = some b) :
    riseStep commit s = andThen (commit s) fun t => .next (settleIrq s (closeFrame t)) := by
  simp [riseStep, ho, hc]

/-- What one bus step of a command can do (R82, R83, R93): latch the command byte, exchange a data byte, close a
frame that has no byte, or commit at the end of the frame. -/
theorem runCommand_cases (hd : DataSound data) (h : runCommand data commit s = .next t) :
    (∃ m rest, s.pending = .xfer m :: rest ∧ s.frOpen = true ∧ s.frCmd = none
        ∧ t = commandByte m (popAction s))
    ∨ (∃ m rest b, s.pending = .xfer m :: rest ∧ s.frOpen = true ∧ s.frCmd = some b
        ∧ data m (popAction s) = .next t)
    ∨ (∃ rest, s.pending = .csnRise :: rest ∧ s.frOpen = true ∧ s.frCmd = none
        ∧ t = closeFrame (popAction s))
    ∨ (∃ rest b u, s.pending = .csnRise :: rest ∧ s.frOpen = true ∧ s.frCmd = some b
        ∧ commit (popAction s) = .next u ∧ t = settleIrq (popAction s) (closeFrame u))
    ∨ ∃ rest b ds v u, s.pending = .frame (b :: ds) :: rest ∧ s.frOpen = false
        ∧ dataPhase data ds (commandByte b (openFrame (popAction s))) = .next v
        ∧ commit v = .next u ∧ t = settleIrq v (closeFrame u) := by
  unfold runCommand at h
  split at h
  · rename_i m rest hp
    cases ho : s.frOpen <;> cases hc : s.frCmd <;> simp [xferStep, ho, hc] at h
    · exact .inl ⟨m, rest, hp, rfl, rfl, h.symm⟩
    · exact .inr (.inl ⟨m, rest, _, hp, rfl, rfl, h⟩)
  · rename_i rest hp
    cases ho : s.frOpen <;> cases hc : s.frCmd <;> simp [riseStep, ho, hc] at h
    · exact .inr (.inr (.inl ⟨rest, hp, rfl, rfl, h.symm⟩))
    · obtain ⟨u, hu, ht⟩ := andThen_eq_next.1 h
      cases ht
      exact .inr (.inr (.inr (.inl ⟨rest, _, u, hp, rfl, rfl, hu, rfl⟩)))
  · rename_i b ds rest hp
    cases ho : s.frOpen <;> simp [frameStep, ho] at h
    obtain ⟨v, hv, hr⟩ := andThen_eq_next.1 h
    obtain ⟨-, hvo, -, hvc, -, -⟩ := dataPhase_sound hd ds _ _ hv
    rw [riseStep_some (b := b) (hvo.trans rfl) (hvc.trans rfl)] at hr
    obtain ⟨u, hu, ht⟩ := andThen_eq_next.1 hr
    cases ht
    exact .inr (.inr (.inr (.inr ⟨rest, b, ds, v, u, hp, rfl, hv, hu, rfl⟩)))
  · cases h

end Sys2Proof.Machine
end

