-- ==== Sys2Proof/Laws/Commands.lean ====
section
/-! SUPPORT. The commit of each command, and what `exec` can do: every command is one shared run with its own
data byte and commit. -/

namespace Sys2Proof.Machine

/-- What a data byte of the command does (R82). -/
def dataOf : Instr → Byte → State → Host.Outcome State Fault Refusal
  | .rRegister r   => readData r
  | .wRegister _   => bufferData
  | .rRxPayload    => payloadData
  | .wTxPayload    => bufferData
  | .wAckPayload _ => bufferData
  | .flushTx       => refuseData
  | .flushRx       => refuseData
  | .nop           => refuseData
  | .reserved b    => fun _ s => .refused (.reservedCommand b (status s))

/-- The commit of the command (R83); a reserved command has none. -/
def commitOf : Instr → State → Host.Outcome State Fault Refusal
  | .rRegister _     => commitNothing
  | .wRegister r     => commitWrite r
  | .rRxPayload      => commitPop
  | .wTxPayload      => commitPush .tx
  | .wAckPayload ppp => fun s =>
      if h : ppp.toNat < 6 then commitPush (.ack ⟨ppp.toNat, h⟩) s
      else .refused (.reservedCommand (encodeByte s.params (.wAckPayload ppp)) (status s))
  | .flushTx         => commitFlushTx
  | .flushRx         => commitFlushRx
  | .nop             => commitNothing
  | .reserved b      => fun s => .refused (.reservedCommand b (status s))

theorem dataOf_sound (i : Instr) : DataSound (dataOf i) := by
  cases i with
  | rRegister r => exact readData_sound r
  | wRegister r => exact bufferData_sound
  | rRxPayload => exact payloadData_sound
  | wTxPayload => exact bufferData_sound
  | wAckPayload ppp => exact bufferData_sound
  | flushTx => exact refuseData_sound
  | flushRx => exact refuseData_sound
  | nop => exact refuseData_sound
  | reserved b => intro m s t h; cases h

/-- A reserved command byte never answers a next state (R90). -/
theorem runReserved_ne_next (b : Byte) (s t : State) : runReserved b s ≠ .next t := by
  unfold runReserved; split <;> split <;> simp

/-- A command that is not reserved is its data byte and its commit, run over the bus. -/
theorem exec_eq_runCommand {i : Instr} (hr : ∀ b, i ≠ .reserved b)
    (ha : ∀ ppp, i = .wAckPayload ppp → ppp.toNat < 6) (s : State) :
    exec i s = runCommand (dataOf i) (commitOf i) s := by
  cases i with
  | wAckPayload ppp =>
      have h := ha ppp rfl
      have hc : commitOf (.wAckPayload ppp) = commitPush (.ack ⟨ppp.toNat, h⟩) := by
        funext u; simp [commitOf, h]
      simp only [exec, execWAckPayload, h, hc, dataOf, ↓reduceDIte]
  | reserved b => exact absurd rfl (hr b)
  | rRegister r => rfl
  | wRegister r => rfl
  | rRxPayload => rfl
  | wTxPayload => rfl
  | flushTx => rfl
  | flushRx => rfl
  | nop => rfl

/-- Where `exec` answers a next state, the command is not reserved. -/
theorem exec_next_runs {i : Instr} {s t : State} (h : exec i s = .next t) :
    runCommand (dataOf i) (commitOf i) s = .next t := by
  rw [← exec_eq_runCommand ?_ ?_ s, h]
  · rintro b rfl; exact runReserved_ne_next b s t h
  · rintro ppp rfl
    by_contra hp
    simp only [exec, execWAckPayload, hp, ↓reduceDIte] at h
    exact runReserved_ne_next _ s t h

/-- Every next state of `exec`: nothing but the bus was touched, or a frame of this command ended with its
commit (R82, R83, R93). -/
theorem exec_cases {i : Instr} {s t : State} (h : exec i s = .next t) :
    busOnly s t
    ∨ ∃ v u, busOnly s v ∧ commitOf i v = .next u ∧ t = settleIrq v (closeFrame u)
        ∧ ((∃ rest b, s.pending = .csnRise :: rest ∧ s.frCmd = some b ∧ v = popAction s)
          ∨ ∃ rest b ds, s.pending = .frame (b :: ds) :: rest ∧ v.pending = rest ∧ v.frCmd = some b) := by
  rcases runCommand_cases (dataOf_sound i) (exec_next_runs h) with
    ⟨m, rest, hp, -, -, rfl⟩ | ⟨m, rest, b, hp, -, -, hx⟩ | ⟨rest, hp, -, -, rfl⟩
      | ⟨rest, b, u, hp, -, hc, hu, rfl⟩ | ⟨rest, b, ds, v, u, hp, -, hv, hu, rfl⟩
  · exact .inl rfl
  · exact .inl (busOnly_trans (busOnly_popAction s) (dataOf_sound i m _ t hx).1)
  · exact .inl rfl
  · exact .inr ⟨popAction s, u, rfl, hu, rfl, .inl ⟨rest, b, hp, hc, rfl⟩⟩
  · obtain ⟨hb, -, -, hc, hq, -⟩ := dataPhase_sound (dataOf_sound i) ds _ v hv
    have hs : busOnly s v := busOnly_trans (busOnly_popAction s)
      (busOnly_trans (busOnly_openFrame _) (busOnly_trans (busOnly_commandByte b _) hb))
    refine .inr ⟨v, u, hs, hu, rfl, .inr ⟨rest, b, ds, hp, ?_, hc.trans rfl⟩⟩
    rw [hq]; simp [hp]

/-! ### What each commit can do -/

theorem configWrite_cases {v : Byte} {s t : State} (h : configWrite v s = .next t) :
    v.getLsbD 7 = false ∧ (s.txActive = true → v.getLsbD 1 = pwrUp s ∧ v.getLsbD 0 = primRx s)
      ∧ t = { s with regs := { s.regs with config := v } } := by
  simp only [configWrite] at h
  by_cases h7 : v.getLsbD 7 = true
  · simp [h7] at h
  · by_cases ht : s.txActive = true ∧ (v.getLsbD 1 ≠ pwrUp s ∨ v.getLsbD 0 ≠ primRx s)
    · rw [if_neg h7, if_pos ht] at h; cases h
    · rw [if_neg h7, if_neg ht] at h
      cases h
      refine ⟨by simpa using h7, fun hx => ?_, rfl⟩
      by_contra hc
      exact ht ⟨hx, by by_contra hd; push Not at hd; exact hc hd⟩

theorem byteWrite_cases {r : Reg} {v : Byte} {s t : State} (h : byteWrite r v s = .next t) :
    byteLegal r v = true ∧ t = { s with regs := storeByte r v s.regs } := by
  simp only [byteWrite] at h
  by_cases h1 : inWmask r v = false
  · simp [h1] at h
  · by_cases h2 : isRxPw r = true ∧ 32#8 < v
    · rw [if_neg h1, if_pos h2] at h; cases h
    · rw [if_neg h1, if_neg h2] at h
      cases h
      refine ⟨?_, rfl⟩
      simp only [byteLegal, Bool.and_eq_true, Bool.or_eq_true, decide_eq_true_eq, Bool.not_eq_true']
      refine ⟨by simpa using h1, ?_⟩
      by_cases h3 : isRxPw r = true
      · exact .inr (BitVec.not_lt.1 fun hc => h2 ⟨h3, hc⟩)
      · exact .inl (by simpa using h3)

theorem addrWrite_cases {r : Reg} {buf : List Byte} {s t : State} (h : addrWrite r buf s = .next t) :
    ∃ a, toAddress buf = some a ∧ t = { s with regs := storeAddr r a s.regs } := by
  simp only [addrWrite] at h
  split at h
  · rename_i a ha; cases h; exact ⟨a, ha, rfl⟩
  · cases h

/-- What a register write can do: store a legal CONFIG byte, clear flags, store a legal byte in a 1-byte register, or
store an address (R105). -/
theorem commitWrite_cases {r : Reg} {s t : State} (h : commitWrite r s = .next t) :
    (∃ v, r = .config ∧ v.getLsbD 7 = false
        ∧ (s.txActive = true → v.getLsbD 1 = pwrUp s ∧ v.getLsbD 0 = primRx s)
        ∧ t = { s with regs := { s.regs with config := v } })
    ∨ (∃ v, r = .status ∧ t = clearFlags v s)
    ∨ (∃ v, isByteReg r = true ∧ byteLegal r v = true ∧ t = { s with regs := storeByte r v s.regs })
    ∨ ∃ a, regWidth r = 5 ∧ t = { s with regs := storeAddr r a s.regs } := by
  unfold commitWrite at h
  by_cases hn : s.frIdx = regWidth r
  · rw [if_pos hn] at h
    cases r with
    | config => exact .inl ⟨_, rfl, configWrite_cases h⟩
    | status =>
        simp only [writeValue, statusWrite] at h
        split at h
        · cases h
        · cases h; exact .inr (.inl ⟨_, rfl, rfl⟩)
    | fifoStatus => cases h
    | enAa => obtain ⟨h1, h2⟩ := byteWrite_cases h; exact .inr (.inr (.inl ⟨_, rfl, h1, h2⟩))
    | enRxaddr => obtain ⟨h1, h2⟩ := byteWrite_cases h; exact .inr (.inr (.inl ⟨_, rfl, h1, h2⟩))
    | rfCh => obtain ⟨h1, h2⟩ := byteWrite_cases h; exact .inr (.inr (.inl ⟨_, rfl, h1, h2⟩))
    | rfSetup => obtain ⟨h1, h2⟩ := byteWrite_cases h; exact .inr (.inr (.inl ⟨_, rfl, h1, h2⟩))
    | rxPw p => obtain ⟨h1, h2⟩ := byteWrite_cases h; exact .inr (.inr (.inl ⟨_, rfl, h1, h2⟩))
    | dynpd => obtain ⟨h1, h2⟩ := byteWrite_cases h; exact .inr (.inr (.inl ⟨_, rfl, h1, h2⟩))
    | feature => obtain ⟨h1, h2⟩ := byteWrite_cases h; exact .inr (.inr (.inl ⟨_, rfl, h1, h2⟩))
    | rxAddr p => obtain ⟨a, -, h2⟩ := addrWrite_cases h; exact .inr (.inr (.inr ⟨a, rfl, h2⟩))
    | txAddr => obtain ⟨a, -, h2⟩ := addrWrite_cases h; exact .inr (.inr (.inr ⟨a, rfl, h2⟩))
  · rw [if_neg hn] at h; cases h

theorem commitPop_cases {s t : State} (h : commitPop s = .next t) : s.frIdx ≠ 0 ∧ t = popRx s := by
  simp only [commitPop] at h
  split at h
  · cases h
  · rename_i hn; cases h; exact ⟨hn, rfl⟩

theorem commitPush_cases {k : TxKind} {s t : State} (h : commitPush k s = .next t) :
    1 ≤ s.frIdx ∧ s.frIdx ≤ maxPayload ∧ s.txf.length ≠ s.params.fifoDepth
      ∧ t = pushTx { kind := k, data := s.frBuf } s := by
  simp only [commitPush] at h
  by_cases h1 : s.frIdx = 0 ∨ maxPayload < s.frIdx
  · rw [if_pos h1] at h; cases h
  · by_cases h2 : txFull s = true
    · rw [if_neg h1, if_pos h2] at h; cases h
    · rw [if_neg h1, if_neg h2] at h
      cases h
      push Not at h1
      exact ⟨Nat.one_le_iff_ne_zero.2 h1.1, h1.2, by simpa [txFull] using h2, rfl⟩

theorem commitFlushTx_cases {s t : State} (h : commitFlushTx s = .next t) :
    s.txActive = false ∧ t = { s with txf := [] } := by
  simp only [commitFlushTx] at h
  cases hx : s.txActive <;> simp [hx] at h
  exact ⟨rfl, h.symm⟩

end Sys2Proof.Machine
end

