-- ==== Sys2Proof/Laws/Decode.lean ====
section
/-! SUPPORT. Addresses and registers name each other, and the two operand fields survive being put into a command
byte and taken out again. -/

namespace Sys2Proof

theorem Reg.mem_all (r : Reg) : r ∈ Reg.all := by
  cases r with
  | rxAddr p => revert p; decide
  | rxPw p => revert p; decide
  | config => decide
  | enAa => decide
  | enRxaddr => decide
  | rfCh => decide
  | rfSetup => decide
  | status => decide
  | txAddr => decide
  | fifoStatus => decide
  | dynpd => decide
  | feature => decide

/-- In a list whose images are all different, the first element with the image of `r` is `r`. -/
theorem find?_of_nodup_map {f : Reg → RegAddr} {r : Reg} :
    ∀ {l : List Reg}, (l.map f).Nodup → r ∈ l → l.find? (fun x => f x == f r) = some r
  | x :: xs, hn, hr => by
      rw [List.map_cons, List.nodup_cons] at hn
      rcases List.mem_cons.1 hr with rfl | hm
      · simp
      · have hx : f x ≠ f r := fun hc => hn.1 (hc ▸ List.mem_map_of_mem hm)
        rw [List.find?_cons_of_neg (by simpa using hx)]
        exact find?_of_nodup_map hn.2 hm

/-- The parts of `Params.mapOk`, each under its own name. -/
theorem Params.mapOk_parts {p : Params} (h : p.mapOk = true) :
    [p.opcRRxPayload, p.opcWTxPayload, p.opcFlushTx, p.opcFlushRx, p.opcNop].Nodup
    ∧ (∀ b ∈ [p.opcRRxPayload, p.opcWTxPayload, p.opcFlushTx, p.opcFlushRx, p.opcNop],
        isRegByte b = false ∧ isAckByte p b = false)
    ∧ isRegByte p.opcWAckPayload = false ∧ p.opcWAckPayload.extractLsb' 0 3 = 0#3
    ∧ (Reg.all.map p.addrOf).Nodup := by
  simp only [Params.mapOk, Bool.and_eq_true, decide_eq_true_eq, List.all_eq_true, Bool.not_eq_true',
    beq_iff_eq] at h
  exact ⟨h.1.1.1.1, h.1.1.1.2, h.1.1.2, h.1.2, h.2⟩

/-- The register at a register's address is that register (D3). -/
theorem Params.regAt_addrOf {p : Params} (h : p.mapOk = true) (r : Reg) :
    p.regAt (p.addrOf r) = some r :=
  find?_of_nodup_map (Params.mapOk_parts h).2.2.2.2 (Reg.mem_all r)

theorem Params.addrOf_of_regAt {p : Params} {a : RegAddr} {r : Reg} (h : p.regAt a = some r) :
    p.addrOf r = a := by
  simpa using List.find?_some h

/-! ### Fields of a command byte -/

theorem readByte_op (a : RegAddr) : (0x00#8 ||| a.zeroExtend 8).extractLsb' 5 3 = 0b000#3 := by
  revert a; decide

theorem writeByte_op (a : RegAddr) : (0x20#8 ||| a.zeroExtend 8).extractLsb' 5 3 = 0b001#3 := by
  revert a; decide

theorem readByte_addr (a : RegAddr) : (0x00#8 ||| a.zeroExtend 8).extractLsb' 0 5 = a := by
  revert a; decide

theorem writeByte_addr (a : RegAddr) : (0x20#8 ||| a.zeroExtend 8).extractLsb' 0 5 = a := by
  revert a; decide

/-- The two halves of a byte at bit `k`, put together again. -/
theorem read_of_fields (b : Byte) (h : b.extractLsb' 5 3 = 0b000#3) :
    0x00#8 ||| (b.extractLsb' 0 5).zeroExtend 8 = b := by
  revert b; decide +revert

theorem write_of_fields (b : Byte) (h : b.extractLsb' 5 3 = 0b001#3) :
    0x20#8 ||| (b.extractLsb' 0 5).zeroExtend 8 = b := by
  revert b; decide +revert

/-- The pipe field over a base whose low three bits are clear (R86). -/
theorem ackByte_pipe (base : Byte) (ppp : BitVec 3) (h : base.extractLsb' 0 3 = 0#3) :
    (base ||| ppp.zeroExtend 8).extractLsb' 0 3 = ppp := by
  ext i hi
  have h8 : i < 8 := by omega
  have hb : base[i] = false := by
    have := congrArg (fun v => v.getLsbD i) h
    simpa [hi, BitVec.getLsbD_eq_getElem h8] using this
  simp [hb, h8, BitVec.getLsbD_eq_getElem hi]

theorem ackByte_base (base : Byte) (ppp : BitVec 3) :
    (base ||| ppp.zeroExtend 8).extractLsb' 3 5 = base.extractLsb' 3 5 := by
  ext i hi
  simp

/-- A byte with the base's five high bits is the base over the byte's own pipe field. -/
theorem ack_of_fields (base b : Byte) (h : base.extractLsb' 0 3 = 0#3)
    (hb : b.extractLsb' 3 5 = base.extractLsb' 3 5) :
    base ||| (b.extractLsb' 0 3).zeroExtend 8 = b := by
  ext i hi
  by_cases h3 : i < 3
  · have hz : base[i] = false := by
      have := congrArg (fun v => v.getLsbD i) h
      simpa [h3, BitVec.getLsbD_eq_getElem hi] using this
    simp [h3, hz, hi]
  · have he : b[i] = base[i] := by
      have := congrArg (fun v => v.getLsbD (i - 3)) hb
      have h5 : i - 3 < 5 := by omega
      have h6 : 3 + (i - 3) = i := by omega
      simpa [h5, h6, BitVec.getLsbD_eq_getElem hi] using this
    simp [h3, he]

/-- A byte of a register format has one of the two register opcodes (R84). -/
theorem isRegByte_iff (b : Byte) :
    isRegByte b = true ↔ b.extractLsb' 5 3 = 0b000#3 ∨ b.extractLsb' 5 3 = 0b001#3 := by
  revert b; decide

/-- Whether a byte is of a register format is said by its five high bits. -/
theorem isRegByte_congr {b c : Byte} (h : b.extractLsb' 3 5 = c.extractLsb' 3 5) :
    isRegByte b = isRegByte c := by
  have hx : ∀ x : Byte, isRegByte x = ((x.extractLsb' 3 5).extractLsb' 3 2 == 0#2) := by decide
  rw [hx, hx, h]

/-! ### Decoding, format by format -/

theorem decodeByte_read {p : Params} {b : Byte} (h : b.extractLsb' 5 3 = 0b000#3) :
    decodeByte p b = (p.regAt (b.extractLsb' 0 5)).elim (.reserved b) .rRegister := by
  rw [decodeByte, if_pos (by simpa using h)]
  cases p.regAt (b.extractLsb' 0 5) <;> rfl

theorem decodeByte_write {p : Params} {b : Byte} (h : b.extractLsb' 5 3 = 0b001#3) :
    decodeByte p b = (p.regAt (b.extractLsb' 0 5)).elim (.reserved b) .wRegister := by
  rw [decodeByte, if_neg (by simp [h]), if_pos (by simpa using h)]
  cases p.regAt (b.extractLsb' 0 5) <;> rfl

theorem decodeByte_other {p : Params} {b : Byte} (h : isRegByte b = false) :
    decodeByte p b =
      if b == p.opcRRxPayload then .rRxPayload
      else if b == p.opcWTxPayload then .wTxPayload
      else if isAckByte p b then .wAckPayload (b.extractLsb' 0 3)
      else if b == p.opcFlushTx then .flushTx
      else if b == p.opcFlushRx then .flushRx
      else if b == p.opcNop then .nop
      else .reserved b := by
  have h2 := mt (isRegByte_iff b).2 (by simp [h])
  push Not at h2
  rw [decodeByte, if_neg (by simpa using h2.1), if_neg (by simpa using h2.2)]
  rfl

/-- Under admissible addresses a register command's byte decodes to it. -/
theorem decodeByte_encode_rRegister {p : Params} (h : p.mapOk = true) (r : Reg) :
    decodeByte p (encodeByte p (.rRegister r)) = .rRegister r := by
  simp only [encodeByte]
  rw [decodeByte_read (readByte_op _), readByte_addr, Params.regAt_addrOf h]; rfl

theorem decodeByte_encode_wRegister {p : Params} (h : p.mapOk = true) (r : Reg) :
    decodeByte p (encodeByte p (.wRegister r)) = .wRegister r := by
  simp only [encodeByte]
  rw [decodeByte_write (writeByte_op _), writeByte_addr, Params.regAt_addrOf h]; rfl

end Sys2Proof
end

