-- ==== Sys2Proof/Laws/Registers.lean ====
section
/-! SUPPORT. The register file as operand: what a write stores and keeps, what a read phase returns. -/

namespace Sys2Proof.Machine

/-! ### Reads -/

/-- A register reads the same whatever the bus does before a commit (R82). -/
theorem busOnly_regByte {s t : State} (h : busOnly s t) (r : Reg) (i : Nat) :
    regByte t r i = regByte s r i := by
  rw [h]; cases r <;> rfl

theorem dataPhase_append {data : Byte → State → Host.Outcome State Fault Refusal} :
    ∀ (xs ys : List Byte) (s : State),
      dataPhase data (xs ++ ys) s = andThen (dataPhase data xs s) (dataPhase data ys)
  | [], _, _ => rfl
  | x :: xs, ys, s => by
      simp only [List.cons_append, dataPhase]
      cases data x s with
      | next u => exact dataPhase_append xs ys u
      | fault f => rfl
      | refused r => rfl

/-- A read phase inside the width returns the register's bytes (R100, R102). -/
theorem dataPhase_readData_within (r : Reg) : ∀ (ms : List Byte) (s : State),
    s.frIdx + ms.length ≤ regWidth r → dataPhase (readData r) ms s = .next { s with
      reply := s.reply ++ (List.range ms.length).map fun k => regByte s r (s.frIdx + k)
      frIdx := s.frIdx + ms.length }
  | [], s, _ => by simp [dataPhase]
  | m :: ms, s, h => by
      simp only [List.length_cons] at h
      have hi : s.frIdx < regWidth r := by omega
      have hr : ∀ k, regByte (answer (regByte s r s.frIdx) s) r k = regByte s r k :=
        fun k => busOnly_regByte (busOnly_answer _ s) r k
      rw [dataPhase, readData, if_pos hi, andThen_next,
        dataPhase_readData_within r ms _ (by simp only [answer_frIdx]; omega)]
      simp only [hr, List.length_cons, List.range_succ_eq_map]
      simp [answer, Function.comp_def, Nat.add_assoc, Nat.add_comm]
      intro k _; congr 1; omega

/-- A read phase past the width returns free values (R103). -/
theorem dataPhase_readData_past (r : Reg) : ∀ (ms : List Byte) (s : State),
    regWidth r ≤ s.frIdx → dataPhase (readData r) ms s = .next { s with
      reply := s.reply ++ (List.range ms.length).map fun k => Config.draw (s.draws + k)
      frIdx := s.frIdx + ms.length
      draws := s.draws + ms.length }
  | [], s, _ => by simp [dataPhase]
  | m :: ms, s, h => by
      rw [dataPhase, readData, if_neg (Nat.not_lt.2 h), andThen_next,
        dataPhase_readData_past r ms _ (by simp only [answerDraw_frIdx]; omega)]
      simp only [List.length_cons, List.range_succ_eq_map]
      simp [answerDraw, Function.comp_def, Nat.add_assoc, Nat.add_comm]
      intro k _; congr 1; omega

/-! ### Writes -/

/-- A 1-byte register that is written holds the value (R110). -/
theorem storedByte_storeByte_self {r : Reg} (h : isByteReg r = true ∨ r = .config) (v : Byte) (g : Regs) :
    storedByte (storeByte r v g) r = v := by
  rcases h with h | rfl
  · cases r <;> simp_all [isByteReg, storeByte, storedByte]
  · rfl

/-- Every other register keeps its byte (R110). -/
theorem storedByte_storeByte_other {r r' : Reg} (h : r' ≠ r) (v : Byte) (g : Regs) :
    storedByte (storeByte r v g) r' = storedByte g r' := by
  cases r with
  | rxPw p =>
      cases r' with
      | rxPw q =>
          have hv : p.val ≠ q.val := fun hc => h (by rw [Fin.ext hc])
          simp [storeByte, storedByte, hv]
      | _ => rfl
  | _ => cases r' <;> first | rfl | exact absurd rfl h

/-- Writing an address register touches no 1-byte register (R111). -/
theorem storedByte_storeAddr (r r' : Reg) (a : Address) (g : Regs) :
    storedByte (storeAddr r a g) r' = storedByte g r' := by
  cases r <;> cases r' <;> rfl

theorem storeAddr_config (r : Reg) (a : Address) (g : Regs) : (storeAddr r a g).config = g.config := by
  cases r <;> rfl

/-- A byte write of another register keeps CONFIG. -/
theorem storeByte_config {r : Reg} (h : isByteReg r = true) (v : Byte) (g : Regs) :
    (storeByte r v g).config = g.config := by
  cases r <;> first | rfl | cases h

/-- R44 (c), register by register. -/
theorem regsLegal_iff (g : Regs) : regsLegal g = true ↔ ∀ r, byteLegal r (storedByte g r) = true := by
  simp only [regsLegal, List.all_eq_true]
  refine ⟨fun h r => h r ?_, fun h r _ => h r⟩
  cases r with
  | rxAddr p => revert p; decide
  | rxPw p => revert p; decide
  | _ => decide

/-- A write of a legal byte keeps the register file legal (R44 (c)). -/
theorem regsLegal_storeByte {r : Reg} {v : Byte} {g : Regs} (hg : regsLegal g = true)
    (hv : byteLegal r v = true) : regsLegal (storeByte r v g) = true := by
  rw [regsLegal_iff] at *
  intro r'
  by_cases h : r' = r
  · subst h
    cases r' <;> first | exact hg _ | simpa [storeByte, storedByte] using hv
  · rw [storedByte_storeByte_other h]; exact hg r'

theorem regsLegal_storeAddr {r : Reg} {a : Address} {g : Regs} (hg : regsLegal g = true) :
    regsLegal (storeAddr r a g) = true := by
  rw [regsLegal_iff] at *
  intro r'; rw [storedByte_storeAddr]; exact hg r'

/-- Only bit 7 of CONFIG is reserved (R21). -/
theorem byteLegal_config (v : Byte) : byteLegal .config v = true ↔ v.getLsbD 7 = false := by
  revert v; decide

/-- Five bytes make an address, in bus order (R62). -/
theorem toAddress_toList (a : Address) : toAddress a.toList = some a := by
  obtain ⟨⟨l⟩, h⟩ := a
  match l, h with
  | [x0, x1, x2, x3, x4], _ => rfl

end Sys2Proof.Machine
end

