-- ==== Sys2Proof/Laws/Step.lean ====
section
/-! SUPPORT. Everything one step can do, said once: the invariants and the whole-machine rules cite this instead
of unfolding the step. -/

namespace Sys2Proof.Machine

theorem stepFrame_cons (b : Byte) (ds : List Byte) (s : State) :
    stepFrame (b :: ds) s = sendCommand (decodeByte s.params b) s := rfl

/-! ### Commands the host sends (R213) -/

/-- Where the host's command answers a next state, that is the command's own. -/
theorem sendCommand_next {i : Instr} {s t : State} (h : sendCommand i s = .next t) : exec i s = .next t := by
  unfold sendCommand at h
  split at h
  · split at h
    · cases h
    · exact h
  · exact h

/-- A register command to a register with no read-modify-write under way is sent. -/
theorem sendCommand_of_regOf {i : Instr} {s : State} {r : Reg} (hr : regOf i = some r) (hh : held s r = false) :
    sendCommand i s = exec i s := by
  simp [sendCommand, hr, hh]

/-- Any other command is sent. -/
theorem sendCommand_of_none {i : Instr} {s : State} (hr : regOf i = none) : sendCommand i s = exec i s := by
  simp [sendCommand, hr]

@[simp] theorem held_nil {s : State} (h : s.rmw = []) (r : Reg) : held s r = false := by simp [held, h]

theorem held_congr {s t : State} (h : t.rmw = s.rmw) (r : Reg) : held t r = held s r := by simp [held, h]

/-- Once released, the register is not held. -/
theorem held_release (r : Reg) (s : State) : held (release r s) r = false := by
  simp [held, release, List.any_filter]

/-- A frame-ending `exec` seen from a state that differs from it in the pending steps only. -/
theorem exec_ends {i : Instr} {s s' t : State} (hb : busOnly s s') (h : exec i s' = .next t)
    (he : ∀ v, ((∃ rest b, s'.pending = .csnRise :: rest ∧ s'.frCmd = some b ∧ v = popAction s')
          ∨ ∃ rest b ds, s'.pending = .frame (b :: ds) :: rest ∧ v.pending = rest ∧ v.frCmd = some b) →
        endsFrameOf s i) :
    busOnly s t ∨ ∃ i v u, busOnly s v ∧ commitOf i v = .next u ∧ t = settleIrq v (closeFrame u)
      ∧ endsFrameOf s i := by
  rcases exec_cases h with h1 | ⟨v, u, hv, hu, ht, hw⟩
  · exact .inl (busOnly_trans hb h1)
  · exact .inr ⟨i, v, u, busOnly_trans hb hv, hu, ht, he v hw⟩

/-- An exchange ends no frame. -/
theorem exec_xfer_ends {i : Instr} {s s' t : State} {m : Byte} {rest : List Action} (hb : busOnly s s')
    (hp : s'.pending = .xfer m :: rest) (h : exec i s' = .next t) :
    busOnly s t ∨ ∃ i v u, busOnly s v ∧ commitOf i v = .next u ∧ t = settleIrq v (closeFrame u)
      ∧ endsFrameOf s i :=
  exec_ends hb h fun v hv => by
    rcases hv with ⟨rest, b, hq, -⟩ | ⟨rest, b, ds, hq, -⟩ <;> simp [hp] at hq

theorem stepXfer_ends {s s' t : State} {m x : Byte} {rest : List Action} (hb : busOnly s s')
    (hp : s'.pending = .xfer x :: rest) (h : stepXfer m s' = .next t) :
    busOnly s t ∨ ∃ i v u, busOnly s v ∧ commitOf i v = .next u ∧ t = settleIrq v (closeFrame u)
      ∧ endsFrameOf s i := by
  unfold stepXfer at h
  split at h
  · exact exec_xfer_ends hb hp h
  · exact exec_xfer_ends hb hp (sendCommand_next h)

/-- Every next state of `step`: only the bus, the latches and the pending steps were touched; or a frame ended with a
command's commit; or the host wrote its cache or took a result; or one of the steps that are not bus steps was
taken. -/
theorem step_cases {s t : State} (h : step s = .next t) :
    busOnly s t
    ∨ (∃ i v u, busOnly s v ∧ commitOf i v = .next u ∧ t = settleIrq v (closeFrame u) ∧ endsFrameOf s i)
    ∨ (∃ w rest, s.pending = .cache w :: rest
        ∧ t = { popAction s with dev := writeCache w (readByte s) s.dev })
    ∨ (∃ r rest, s.pending = .ret r :: rest
        ∧ t = { popAction s with
            dev := { s.dev with result := readerResult r s }
            draws := if r = .rate then s.draws + 1 else s.draws })
    ∨ (∃ rest, s.pending = .ceHigh :: rest ∧ t = ceHigh (popAction s))
    ∨ (∃ rest, s.pending = .ceLow :: rest ∧ t = ceLow (popAction s))
    ∨ (∃ rest, s.pending = .cePulse :: rest ∧ t = cePulse (popAction s))
    ∨ (∃ rest, s.pending = .txStart :: rest ∧ t = txStart (popAction s))
    ∨ (∃ p d rest, s.pending = .evRx p d :: rest ∧ t = evRx p d (popAction s))
    ∨ (∃ rest, s.pending = .evTxOk :: rest ∧ t = evTxOk (popAction s))
    ∨ (∃ rest, s.pending = .evTxFail :: rest ∧ t = evTxFail (popAction s))
    ∨ (∃ p rest, s.pending = .evAckDone p :: rest ∧ t = evAckDone p (popAction s))
    ∨ ∃ rest, s.pending = .reset :: rest ∧ t = resetBlock (popAction s) := by
  unfold step at h
  split at h
  · cases h; exact .inl (busOnly_refl _)
  · simp only [stepCsnFall] at h
    split at h
    · cases h
    · cases h; exact .inl rfl
  · rename_i m rest hp
    rcases stepXfer_ends (s := s) (busOnly_refl s) hp h with h1 | h1
    · exact .inl h1
    · exact .inr (.inl h1)
  · rename_i rest hp
    simp only [stepCsnRise] at h
    split at h
    · rename_i b hc
      rcases exec_ends (busOnly_refl s) h
          (fun v _ => .inl ⟨rest, b, hp, hc, rfl⟩) with h1 | h1
      · exact .inl h1
      · exact .inr (.inl h1)
    · split at h
      · cases h; exact .inl rfl
      · cases h
  · rename_i bs rest hp
    cases bs with
    | nil =>
        simp only [stepFrame, decodeFrame] at h
        split at h
        · cases h
        · cases h; exact .inl rfl
    | cons b ds =>
        rw [stepFrame_cons] at h
        rcases exec_ends (busOnly_refl s) (sendCommand_next h)
            (fun v _ => .inr (.inl ⟨rest, b, ds, hp, rfl⟩)) with h1 | h1
        · exact .inl h1
        · exact .inr (.inl h1)
  · rename_i rest hp; cases h; exact .inr (.inr (.inr (.inr (.inl ⟨rest, hp, rfl⟩))))
  · rename_i rest hp; cases h; exact .inr (.inr (.inr (.inr (.inr (.inl ⟨rest, hp, rfl⟩)))))
  · rename_i rest hp; cases h; exact .inr (.inr (.inr (.inr (.inr (.inr (.inl ⟨rest, hp, rfl⟩))))))
  · rename_i rest hp; cases h
    exact .inr (.inr (.inr (.inr (.inr (.inr (.inr (.inl ⟨rest, hp, rfl⟩)))))))
  · rename_i p d rest hp; cases h
    exact .inr (.inr (.inr (.inr (.inr (.inr (.inr (.inr (.inl ⟨p, d, rest, hp, rfl⟩))))))))
  · rename_i rest hp; cases h
    exact .inr (.inr (.inr (.inr (.inr (.inr (.inr (.inr (.inr (.inl ⟨rest, hp, rfl⟩)))))))))
  · rename_i rest hp; cases h
    exact .inr (.inr (.inr (.inr (.inr (.inr (.inr (.inr (.inr (.inr (.inl ⟨rest, hp, rfl⟩))))))))))
  · rename_i p rest hp; cases h
    exact .inr (.inr (.inr (.inr (.inr (.inr (.inr (.inr (.inr (.inr (.inr
      (.inl ⟨p, rest, hp, rfl⟩)))))))))))
  · rename_i rest hp; cases h
    exact .inr (.inr (.inr (.inr (.inr (.inr (.inr (.inr (.inr (.inr (.inr (.inr ⟨rest, hp, rfl⟩)))))))))))
  · simp only [stepOp] at h
    split at h
    · cases h; exact .inl rfl
    · cases h
  · simp only [stepKeep] at h
    split at h
    · cases h; exact .inl rfl
    · cases h
  · rename_i r keep bits rest hp
    simp only [stepWriteBack] at h
    split at h
    · rename_i c _
      rw [stepFrame_cons] at h
      rcases exec_ends (s := s) (s' := { release r s with pending :=
            (.frame [encodeByte s.params (.wRegister r), (c &&& keep) ||| bits]) :: s.pending.tail }) rfl
          (sendCommand_next h) (fun v _ => .inr (.inr ⟨rest, r, keep, bits, hp, rfl⟩)) with h1 | h1
      · exact .inl h1
      · exact .inr (.inl h1)
    · cases h
  · rename_i r rest hp
    rcases exec_xfer_ends (s := s) (s' := { s with pending :=
        (.xfer (encodeByte s.params (.wRegister r))) :: s.pending.tail }) rfl rfl h with h1 | h1
    · exact .inl h1
    · exact .inr (.inl h1)
  · rename_i r keep bits rest hp
    simp only [stepBackData] at h
    split at h
    · rename_i c _
      rcases stepXfer_ends (s := s) (s' := { release r s with pending :=
          (.xfer ((c &&& keep) ||| bits)) :: s.pending.tail }) rfl rfl h with h1 | h1
      · exact .inl h1
      · exact .inr (.inl h1)
    · cases h
  · cases h; exact .inl rfl
  · simp only [stepAcquire] at h
    split at h
    · cases h
    · cases h; exact .inl rfl
  · rename_i w rest hp; cases h
    exact .inr (.inr (.inl ⟨w, rest, hp, rfl⟩))
  · rename_i r rest hp; cases h
    exact .inr (.inr (.inr (.inl ⟨r, rest, hp, rfl⟩)))

end Sys2Proof.Machine
end

