-- ==== Sys2Proof/Laws/Frames.lean ====
section
/-! SUPPORT. Whole frames (R93): the state at the commit of a write-class command, and the steps a driver operation
is made of. -/

namespace Sys2Proof.Machine

/-- The host's run of the core, at the model's own types, so that it can be rewritten. -/
def runSteps (k : Nat) (s : State) : Host.Outcome State Fault Refusal := Host.Core.run Sys2Proof.core k s

theorem run_eq_runSteps (k : Nat) (s : State) : Host.Core.run Sys2Proof.core k s = runSteps k s := rfl

@[simp] theorem runSteps_zero (s : State) : runSteps 0 s = .next s := rfl

/-- A run is its first step, then the rest of it. -/
theorem runSteps_succ (k : Nat) (s : State) : runSteps (k + 1) s = andThen (step s) (runSteps k) := by
  have h : Sys2Proof.core.step s = step s := rfl
  simp only [runSteps, Host.Core.run, h]
  cases step s <;> rfl

/-- A run goes on from the state the first step answers. -/
theorem runSteps_next {s t : State} (h : step s = .next t) (k : Nat) : runSteps (k + 1) s = runSteps k t := by
  rw [runSteps_succ, h, andThen_next]

/-- The state in which a whole frame of a write-class command commits: the frame is open, its data bytes are buffered,
each was answered with a free value. -/
def bufferedFrame (b : Byte) (ds : List Byte) (s : State) : State :=
  { s with
    pending := s.pending.tail, csn := false, frOpen := true, frCmd := some b, frIdx := ds.length, frBuf := ds
    reply := status s :: (List.range ds.length).map fun k => Config.draw (s.draws + k)
    draws := s.draws + ds.length }

theorem busOnly_bufferedFrame (b : Byte) (ds : List Byte) (s : State) : busOnly s (bufferedFrame b ds s) := rfl

/-- A whole frame of a write-class command is its commit in that state (R93, R105, R132, R133). -/
theorem frameStep_bufferData {commit : State → Host.Outcome State Fault Refusal} {s : State}
    (ho : s.frOpen = false) (b : Byte) (ds : List Byte) :
    frameStep bufferData commit b ds (popAction s)
      = andThen (commit (bufferedFrame b ds s)) fun t =>
          .next (settleIrq (bufferedFrame b ds s) (closeFrame t)) := by
  have hv : dataPhase bufferData ds (commandByte b (openFrame (popAction s)))
      = .next (bufferedFrame b ds s) := by
    rw [dataPhase_bufferData]; simp [bufferedFrame, commandByte, openFrame, popAction]; rfl
  rw [frameStep, popAction_frOpen, ho, if_neg (by decide), hv, andThen_next,
    riseStep_some (b := b) rfl rfl]

/-- A whole frame that writes a register of one byte or five (R105). -/
theorem step_writeFrame {s : State} {r : Reg} {ds : List Byte} {rest : List Action}
    (hm : s.params.mapOk = true) (ho : s.frOpen = false) (hh : held s r = false)
    (hp : s.pending = .frame (encodeByte s.params (.wRegister r) :: ds) :: rest) :
    step s = andThen (commitWrite r (bufferedFrame (encodeByte s.params (.wRegister r)) ds s)) fun t =>
      .next (settleIrq (bufferedFrame (encodeByte s.params (.wRegister r)) ds s) (closeFrame t)) := by
  simp only [step, hp, stepFrame_cons]
  rw [decodeByte_encode_wRegister hm, sendCommand_of_regOf rfl hh]
  exact (runCommand_frame hp).trans (frameStep_bufferData ho _ _)

/-- The commit of a legal byte to a 1-byte register other than CONFIG and STATUS (R110). -/
theorem commitWrite_byteReg {s : State} {r : Reg} {v : Byte} (hr : isByteReg r = true) (hv : byteLegal r v = true)
    (hn : s.frIdx = 1) (hb : s.frBuf = [v]) :
    commitWrite r s = .next { s with regs := storeByte r v s.regs } := by
  have h1 : commitWrite r s = byteWrite r v s := by
    rw [commitWrite, hb, hn]; cases r <;> first | rfl | cases hr
  simp only [byteLegal, Bool.and_eq_true, Bool.or_eq_true, decide_eq_true_eq, Bool.not_eq_true'] at hv
  rw [h1, byteWrite, if_neg (by rw [hv.1]; decide), if_neg]
  rintro ⟨h2, h3⟩
  rcases hv.2 with h | h
  · rw [h] at h2; cases h2
  · exact absurd h3 (BitVec.not_lt.2 h)

/-- The write frame of a 1-byte register other than CONFIG and STATUS, of a legal byte (R110). -/
theorem step_writeByteFrame {s : State} {r : Reg} {v : Byte} {rest : List Action}
    (hm : s.params.mapOk = true) (ho : s.frOpen = false) (hh : held s r = false) (hr : isByteReg r = true)
    (hv : byteLegal r v = true)
    (hp : s.pending = .frame [encodeByte s.params (.wRegister r), v] :: rest) :
    step s = .next { s with
      pending := rest, csn := true, frOpen := false, frCmd := none, frIdx := 0, frBuf := []
      reply := [status s, Config.draw s.draws], draws := s.draws + 1
      regs := storeByte r v s.regs } := by
  rw [step_writeFrame hm ho hh hp]
  generalize encodeByte s.params (.wRegister r) = b
  have hc : commitWrite r (bufferedFrame b [v] s)
      = .next { bufferedFrame b [v] s with regs := storeByte r v s.regs } :=
    commitWrite_byteReg hr hv rfl rfl
  rw [hc, andThen_next, settleIrq_of_irqN_eq]
  · simp [closeFrame, bufferedFrame, hp]
  · exact irqN_congr rfl rfl rfl (storeByte_config hr v s.regs)

/-- The write frame of an address register (R111). -/
theorem step_writeAddrFrame {s : State} {r : Reg} {a : Address} {rest : List Action}
    (hm : s.params.mapOk = true) (ho : s.frOpen = false) (hh : held s r = false) (hr : regWidth r = 5)
    (hp : s.pending = .frame (encodeByte s.params (.wRegister r) :: a.toList) :: rest) :
    step s = .next { s with
      pending := rest, csn := true, frOpen := false, frCmd := none, frIdx := 0, frBuf := []
      reply := status s :: (List.range 5).map fun k => Config.draw (s.draws + k)
      draws := s.draws + 5, regs := storeAddr r a s.regs } := by
  rw [step_writeFrame hm ho hh hp]
  generalize encodeByte s.params (.wRegister r) = b
  have hc : commitWrite r (bufferedFrame b a.toList s)
      = .next { bufferedFrame b a.toList s with regs := storeAddr r a s.regs } := by
    have h1 : commitWrite r (bufferedFrame b a.toList s) = addrWrite r a.toList (bufferedFrame b a.toList s) := by
      have hn : (bufferedFrame b a.toList s).frIdx = regWidth r := by rw [hr]; simp [bufferedFrame]
      rw [commitWrite, if_pos hn]
      cases r <;> first | rfl | cases hr
    rw [h1, addrWrite, toAddress_toList]; rfl
  rw [hc, andThen_next, settleIrq_of_irqN_eq]
  · simp [closeFrame, bufferedFrame, hp]
  · exact irqN_congr rfl rfl rfl (storeAddr_config r a s.regs)

/-- The second frame of `rmw` is the write frame of the byte it computes (R183). -/
theorem step_writeBack {s : State} {r : Reg} {keep bits c : Byte} {rest : List Action}
    (hp : s.pending = .writeBack r keep bits :: rest) (hr : s.rmw.lookup r = some c) :
    step s = step { release r s with pending :=
      (.frame [encodeByte s.params (.wRegister r), (c &&& keep) ||| bits]) :: rest } := by
  simp [step, hp, stepWriteBack, hr]

/-- The byte just read is kept for the second frame (R183). -/
theorem step_keep {s : State} {r : Reg} {x c : Byte} {xs : List Byte} {rest : List Action}
    (hp : s.pending = .keep r :: rest) (hr : s.reply = x :: c :: xs) :
    step s = .next { s with pending := rest, rmw := (r, c) :: s.rmw } := by
  simp [step, hp, stepKeep, readByte, hr, popAction]

/-- A driver operation is replaced by its expansion, with what is drawn in between (R180). -/
theorem step_opWith {s : State} {o : DriverOp} {gaps : List Nat} {as rest : List Action}
    (hp : s.pending = .op o gaps :: rest) (he : expand s.params s.dev o = some as) :
    step s = .next { s with pending := interleave gaps as rest } := by
  simp [step, hp, stepOp, he]

/-- With nothing drawn in between, the expansion stands in front of what follows. -/
theorem step_op {s : State} {o : DriverOp} {as rest : List Action}
    (hp : s.pending = .op o [] :: rest) (he : expand s.params s.dev o = some as) :
    step s = .next { s with pending := as ++ rest } :=
  step_opWith hp he

/-- A write of the driver's cache (R181). -/
theorem step_cache {s : State} {w : CacheWrite} {rest : List Action} (hp : s.pending = .cache w :: rest) :
    step s = .next { s with pending := rest, dev := writeCache w (readByte s) s.dev } := by
  simp [step, hp, stepCache, popAction]

end Sys2Proof.Machine
end

