-- ==== Sys2Proof/Laws/Payload.lean ====
section
/-! SUPPORT. The packet FIFOs: what a payload read returns, and the removal of an acknowledge payload. -/

namespace Sys2Proof.Machine

/-- A payload read inside the head payload returns its bytes (R130). -/
theorem dataPhase_payloadData_within (e : RxEntry) (es : List RxEntry) : ∀ (ms : List Byte) (s : State),
    s.rxf = e :: es → s.frIdx + ms.length ≤ e.data.length →
    dataPhase payloadData ms s = .next { s with
      reply := s.reply ++ (e.data.drop s.frIdx).take ms.length
      frIdx := s.frIdx + ms.length }
  | [], s, _, _ => by simp [dataPhase]
  | m :: ms, s, hx, h => by
      simp only [List.length_cons] at h
      have hi : s.frIdx < e.data.length := by omega
      have hb : headByte s s.frIdx = some e.data[s.frIdx] := by simp [headByte, hx, hi]
      simp only [dataPhase, payloadData, hb, andThen_next]
      rw [dataPhase_payloadData_within e es ms _ (by simpa using hx) (by simp only [answer_frIdx]; omega)]
      simp only [answer, List.length_cons, List.drop_eq_getElem_cons hi, List.take_succ_cons]
      simp [Nat.add_assoc, Nat.add_comm]

/-- A payload read past the head payload, or with no payload queued, returns free values (R130, R131). -/
theorem dataPhase_payloadData_past : ∀ (ms : List Byte) (s : State),
    (∀ k, s.frIdx ≤ k → headByte s k = none) → dataPhase payloadData ms s = .next { s with
      reply := s.reply ++ (List.range ms.length).map fun k => Config.draw (s.draws + k)
      frIdx := s.frIdx + ms.length
      draws := s.draws + ms.length }
  | [], s, _ => by simp [dataPhase]
  | m :: ms, s, h => by
      simp only [dataPhase, payloadData, h s.frIdx (Nat.le_refl _), andThen_next]
      rw [dataPhase_payloadData_past ms (answerDraw s)
        (fun k hk => h k (by rw [answerDraw_frIdx] at hk; omega))]
      simp only [List.length_cons, List.range_succ_eq_map]
      simp [answerDraw, Function.comp_def, Nat.add_assoc, Nat.add_comm]
      intro k _; congr 1; omega

/-! ### The oldest entry of a pipe (R139, R168) -/

/-- The entry removed is the first of its pipe; the others keep their order. -/
theorem removeAck_append {q : Pipe} {e : TxEntry} {post : List TxEntry} (he : e.kind = .ack q) :
    ∀ {pre : List TxEntry}, (∀ x ∈ pre, x.kind ≠ .ack q) → removeAck q (pre ++ e :: post) = pre ++ post
  | [], _ => by simp [removeAck, he]
  | x :: xs, h => by
      have hx := h x (by simp)
      simp only [List.cons_append, removeAck, if_neg hx]
      rw [removeAck_append he (fun y hy => h y (by simp [hy]))]

/-- Where the pipe has an entry, there is a first one. -/
theorem exists_first_ack {q : Pipe} : ∀ {l : List TxEntry}, (∃ e ∈ l, e.kind = .ack q) →
    ∃ pre e post, l = pre ++ e :: post ∧ e.kind = .ack q ∧ ∀ x ∈ pre, x.kind ≠ .ack q
  | x :: xs, h => by
      by_cases hx : x.kind = .ack q
      · exact ⟨[], x, xs, rfl, hx, by simp⟩
      · obtain ⟨e, he, hk⟩ := h
        have hm : e ∈ xs := by
          rcases List.mem_cons.1 he with rfl | hm
          · exact absurd hk hx
          · exact hm
        obtain ⟨pre, e', post, h1, h2, h3⟩ := exists_first_ack ⟨e, hm, hk⟩
        refine ⟨x :: pre, e', post, by rw [h1]; rfl, h2, fun y hy => ?_⟩
        rcases List.mem_cons.1 hy with rfl | hy
        · exact hx
        · exact h3 y hy

end Sys2Proof.Machine
end

