-- ==== Sys2Proof/Laws/Modes.lean ====
section
/-! SUPPORT. The guards of the block's own step and of the radio's events, in the spec's terms, and when setting a
flag makes the interrupt line fall. -/

namespace Sys2Proof.Machine

/-! ### The operating mode, branch by branch (R150) -/

theorem mode_of_not_pwrUp {s : State} (h : pwrUp s = false) : mode s = .powerDown := by
  rw [mode, if_pos h]

theorem mode_of_primRx {s : State} (h : pwrUp s = true) (hp : primRx s = true) :
    mode s = if s.ce = true then .listening else .receiveReady := by
  rw [mode, if_neg (by rw [h]; decide), if_pos hp]

theorem mode_of_primTx {s : State} (h : pwrUp s = true) (hp : primRx s = false) :
    mode s = if s.txActive = true then .transmitting else .transmitReady := by
  rw [mode, if_neg (by rw [h]; decide), if_neg (by rw [hp]; decide)]

/-! ### Guards -/

/-- The guard of R160. -/
theorem txStartEnabled_iff (s : State) : txStartEnabled s = true ↔
    pwrUp s = true ∧ primRx s = false ∧ s.ce = true ∧ s.txActive = false ∧ s.maxRt = false
      ∧ ∃ e es, s.txf = e :: es ∧ e.kind = .tx := by
  simp only [txStartEnabled, headIsTx, Bool.and_eq_true, Bool.not_eq_true']
  rcases h : s.txf with _ | ⟨e, es⟩
  · simp
  · simp only [decide_eq_true_eq, List.cons.injEq]
    constructor
    · rintro ⟨⟨⟨⟨⟨a, b⟩, c⟩, d⟩, k⟩, f⟩; exact ⟨a, b, c, d, f, e, es, ⟨rfl, rfl⟩, k⟩
    · rintro ⟨a, b, c, d, f, e', es', ⟨rfl, rfl⟩, k⟩; exact ⟨⟨⟨⟨⟨a, b⟩, c⟩, d⟩, k⟩, f⟩

/-- The guard of R165 on an existing pipe. -/
theorem evRxEnabled_iff (s : State) (q : Pipe) (d : List Byte) : evRxEnabled s q d = true ↔
    mode s = .listening ∧ s.regs.enRxaddr.getLsbD q.val = true ∧ s.rxf.length < s.params.fifoDepth
      ∧ if s.regs.feature.getLsbD 2 = true ∧ s.regs.dynpd.getLsbD q.val = true
        then 1 ≤ d.length ∧ d.length ≤ 32
        else d.length = s.regs.rxPw[q].toNat ∧ 1 ≤ s.regs.rxPw[q].toNat := by
  simp only [evRxEnabled, rxLengthOk, enDpl, Bool.and_eq_true, decide_eq_true_eq, and_assoc]
  refine and_congr_right fun _ => and_congr_right fun _ => and_congr_right fun _ => ?_
  split <;> simp only [Bool.and_eq_true, decide_eq_true_eq, beq_iff_eq]
  exact Iff.rfl

/-- The guard of R168 on an existing pipe. -/
theorem evAckEnabled_iff (s : State) (q : Pipe) : evAckEnabled s q = true ↔
    mode s = .listening ∧ (∃ e ∈ s.txf, e.kind = .ack q) ∧ s.regs.feature.getLsbD 1 = true := by
  simp only [evAckEnabled, enAckPay, Bool.and_eq_true, decide_eq_true_eq, List.any_eq_true, and_assoc]

/-- `TxStart` sets the latch or changes nothing (R160). -/
theorem txStart_eq (s : State) : txStart s = { s with txActive := s.txActive || txStartEnabled s } := by
  unfold txStart
  cases h : txStartEnabled s
  · simp
  · simp

/-- A pulse leaves the line low and has committed the head payload where the guard held with the line high
(R157). -/
theorem cePulse_eq (s : State) :
    cePulse s = { s with ce := false, txActive := s.txActive || txStartEnabled { s with ce := true } } := by
  rw [cePulse, txStart_eq]; rfl

/-- An edge settles to one more edge exactly when the line was high and the condition for its fall holds. -/
theorem settleIrq_eq_ite {s t : State} {masked : Bool}
    (h : irqN s = true → (irqN t = false ↔ masked = false)) :
    settleIrq s t = if irqN s = true ∧ masked = false
      then { t with edges := t.edges + 1, dev := { t.dev with calls := t.dev.calls ++ t.dev.cb.toList } }
      else t := by
  unfold settleIrq irqEdge
  exact if_congr (and_congr_right h) rfl rfl

/-- Setting RX_DR makes a high line fall exactly when it is not masked (R239). -/
theorem irqN_set_rxDr (s : State) (f : List RxEntry) (h : irqN s = true) :
    irqN { s with rxf := f, rxDr := true } = false ↔ s.regs.config.getLsbD 6 = false := by
  revert h
  simp only [irqN, maskRxDr, maskTxDs, maskMaxRt]
  generalize BitVec.getLsbD _ 6 = a
  generalize BitVec.getLsbD _ 5 = b
  generalize BitVec.getLsbD _ 4 = c
  cases s.rxDr <;> cases s.txDs <;> cases s.maxRt <;> cases a <;> cases b <;> cases c <;> decide

/-- Setting TX_DS makes a high line fall exactly when it is not masked (R239). -/
theorem irqN_set_txDs (s : State) (f : List TxEntry) (x : Bool) (h : irqN s = true) :
    irqN { s with txf := f, txDs := true, txActive := x } = false ↔ s.regs.config.getLsbD 5 = false := by
  revert h
  simp only [irqN, maskRxDr, maskTxDs, maskMaxRt]
  generalize BitVec.getLsbD _ 6 = a
  generalize BitVec.getLsbD _ 5 = b
  generalize BitVec.getLsbD _ 4 = c
  cases s.rxDr <;> cases s.txDs <;> cases s.maxRt <;> cases a <;> cases b <;> cases c <;> decide

/-- Setting MAX_RT makes a high line fall exactly when it is not masked (R239). -/
theorem irqN_set_maxRt (s : State) (x : Bool) (h : irqN s = true) :
    irqN { s with maxRt := true, txActive := x } = false ↔ s.regs.config.getLsbD 4 = false := by
  revert h
  simp only [irqN, maskRxDr, maskTxDs, maskMaxRt]
  generalize BitVec.getLsbD _ 6 = a
  generalize BitVec.getLsbD _ 5 = b
  generalize BitVec.getLsbD _ 4 = c
  cases s.rxDr <;> cases s.txDs <;> cases s.maxRt <;> cases a <;> cases b <;> cases c <;> decide

/-! ### What each event can do -/

/-- `EV_RX` changes nothing, or queues one payload of 1 to 32 bytes, sets RX_DR and settles the line (R165). -/
theorem evRx_cases (p : Nat) (d : List Byte) (s : State) (hw : ∀ q : Pipe, s.regs.rxPw[q].toNat ≤ 32) :
    evRx p d s = s
    ∨ ∃ q : Pipe, q.val = p ∧ s.rxf.length < s.params.fifoDepth ∧ 1 ≤ d.length ∧ d.length ≤ 32
        ∧ evRx p d s = settleIrq s { s with rxf := s.rxf ++ [{ pipe := q, data := d }], rxDr := true } := by
  unfold evRx
  split
  · rename_i hlt
    split
    · rename_i he
      obtain ⟨-, -, hf, hl⟩ := (evRxEnabled_iff s ⟨p, hlt⟩ d).1 he
      have hw' := hw ⟨p, hlt⟩
      refine .inr ⟨⟨p, hlt⟩, rfl, hf, ?_, ?_, rfl⟩
      · split at hl <;> omega
      · split at hl <;> omega
    · exact .inl rfl
  · exact .inl rfl

/-- `EV_RX` without regard to lengths: nothing, or one payload at the tail and RX_DR (R165). -/
theorem evRx_shape (p : Nat) (d : List Byte) (s : State) :
    evRx p d s = s ∨ ∃ e, evRx p d s = settleIrq s { s with rxf := s.rxf ++ [e], rxDr := true } := by
  unfold evRx
  split
  · split
    · exact .inr ⟨_, rfl⟩
    · exact .inl rfl
  · exact .inl rfl

/-- `EV_TX_OK` changes nothing, or removes the committed head, sets TX_DS, ends the transmission and settles the line
(R166). -/
theorem evTxOk_cases (s : State) :
    evTxOk s = s ∨ s.txActive = true
      ∧ evTxOk s = settleIrq s { s with txf := s.txf.tail, txDs := true, txActive := false } := by
  unfold evTxOk
  split
  · rename_i h; exact .inr ⟨h, rfl⟩
  · exact .inl rfl

/-- `EV_TX_FAIL` changes nothing, or sets MAX_RT, ends the transmission and settles the line (R167). -/
theorem evTxFail_cases (s : State) :
    evTxFail s = s ∨ s.txActive = true
      ∧ evTxFail s = settleIrq s { s with maxRt := true, txActive := false } := by
  unfold evTxFail
  split
  · rename_i h; exact .inr ⟨h.1, rfl⟩
  · exact .inl rfl

/-- `EV_ACK_DONE` changes nothing, or removes the oldest acknowledge payload of its pipe, sets TX_DS and settles the line;
it is enabled only while listening (R168). -/
theorem evAckDone_cases (p : Nat) (s : State) :
    evAckDone p s = s
    ∨ ∃ (q : Pipe) (pre post : List TxEntry) (e : TxEntry), q.val = p ∧ mode s = .listening
        ∧ s.txf = pre ++ e :: post ∧ e.kind = .ack q ∧ (∀ x ∈ pre, x.kind ≠ .ack q)
        ∧ evAckDone p s = settleIrq s { s with txf := pre ++ post, txDs := true } := by
  unfold evAckDone
  split
  · rename_i hlt
    split
    · rename_i he
      obtain ⟨hm, hx, -⟩ := (evAckEnabled_iff s ⟨p, hlt⟩).1 he
      obtain ⟨pre, e, post, h1, h2, h3⟩ := exists_first_ack hx
      refine .inr ⟨⟨p, hlt⟩, pre, post, e, rfl, hm, h1, h2, h3, ?_⟩
      rw [h1, removeAck_append h2 h3]
    · exact .inl rfl
  · exact .inl rfl

end Sys2Proof.Machine
end

