-- ==== Sys2Proof/Laws/Driver.lean ====
section
/-! SUPPORT. Driver operations with radio events between their steps (R71, R180): what an event leaves alone, and that
an operation's effect, stated by assertions no event disturbs, survives every way of drawing events in. -/

namespace Sys2Proof.Machine

/-- `t` differs from `s` in nothing but what a radio event writes (R169): the FIFOs, the flags, `tx_active`, the record
of edges and of invocations, and the list of pending steps. -/
def radioOnly (s t : State) : Prop :=
  t = { s with
    pending := t.pending, txf := t.txf, rxf := t.rxf, rxDr := t.rxDr, txDs := t.txDs, maxRt := t.maxRt
    txActive := t.txActive, edges := t.edges, dev := { s.dev with calls := t.dev.calls } }

theorem radioOnly_settleIrq {s v u : State} (h : radioOnly s u) : radioOnly s (settleIrq v u) := by
  unfold settleIrq
  split
  · rw [radioOnly, h]; rfl
  · exact h

/-- A radio event always completes, and writes nothing else (R165 to R168). -/
theorem step_radioEvent {s : State} {e : Action} {rest : List Action} (he : isRadioEvent e = true)
    (hp : s.pending = e :: rest) : ∃ t, step s = .next t ∧ t.pending = rest ∧ radioOnly s t := by
  have hpop : (popAction s).pending = rest := by simp [hp]
  cases e <;> cases he
  · rename_i p d
    refine ⟨evRx p d (popAction s), by simp [step, hp], ?_⟩
    rcases evRx_shape p d (popAction s) with h | ⟨_, h⟩ <;> rw [h]
    · exact ⟨hpop, rfl⟩
    · exact ⟨by simpa using hpop, radioOnly_settleIrq rfl⟩
  · refine ⟨evTxOk (popAction s), by simp [step, hp], ?_⟩
    rcases evTxOk_cases (popAction s) with h | ⟨_, h⟩ <;> rw [h]
    · exact ⟨hpop, rfl⟩
    · exact ⟨by simpa using hpop, radioOnly_settleIrq rfl⟩
  · refine ⟨evTxFail (popAction s), by simp [step, hp], ?_⟩
    rcases evTxFail_cases (popAction s) with h | ⟨_, h⟩ <;> rw [h]
    · exact ⟨hpop, rfl⟩
    · exact ⟨by simpa using hpop, radioOnly_settleIrq rfl⟩
  · rename_i p
    refine ⟨evAckDone p (popAction s), by simp [step, hp], ?_⟩
    rcases evAckDone_cases p (popAction s) with h | ⟨_, _, _, _, _, _, _, _, _, h⟩ <;> rw [h]
    · exact ⟨hpop, rfl⟩
    · exact ⟨by simpa using hpop, radioOnly_settleIrq rfl⟩

/-! ### What is drawn in -/

@[simp] theorem draw_zero (as : List Action) : draw 0 false as = ([], as) := by cases as <;> simp [draw]

/-- A radio event is drawn alone and as it is. -/
theorem draw_radioEvent {e : Action} (as : List Action) (he : isRadioEvent e = true) :
    draw 1 false (e :: as) = ([e], as) := by
  cases e <;> cases he <;> simp [draw, agentOf, gapsOf, frameAfter]

theorem weave_radioEvent {e : Action} (n : Nat) (gs : List Nat) (as rest : List Action)
    (he : isRadioEvent e = true) :
    weave (n :: gs) as (e :: rest) = (cut n as).1 ++ e :: weave gs (cut n as).2 rest := by
  simp only [weave, draw_radioEvent rest he]
  cases e <;> cases he <;> rfl

/-- A draw ends in front of an `acquire` at the latest. -/
theorem draw_before_acquire (n : Nat) (o : Bool) (ds rest : List Action) :
    ∃ es, (draw n o (ds ++ .acquire :: rest)).2 = es ++ .acquire :: rest := by
  induction ds generalizing n o with
  | nil => exact ⟨[], by simp [draw, agentOf]⟩
  | cons d ds ih =>
      rw [List.cons_append, draw]
      split
      · exact ⟨d :: ds, rfl⟩
      · exact ih _ _

/-- What an interrupted operation has still to do stands behind an `acquire`, and stays there: a callback's operation
draws nothing of it in between its own steps (R213). -/
theorem interleave_before_acquire (gaps : List Nat) (as ds rest : List Action) :
    ∃ xs, interleave gaps as (ds ++ .acquire :: rest) = xs ++ .acquire :: rest := by
  have weave_ : ∀ (gs : List Nat) (as ds : List Action),
      ∃ xs, weave gs as (ds ++ .acquire :: rest) = xs ++ .acquire :: rest := by
    intro gs
    induction gs with
    | nil => exact fun as ds => ⟨as ++ ds, by simp [weave]⟩
    | cons n gs ih =>
        intro as ds
        obtain ⟨es, hes⟩ := draw_before_acquire 1 false ds rest
        rw [weave]
        split
        · exact ⟨as ++ ds, by simp⟩
        · rename_i a u after h
          rw [h] at hes
          obtain ⟨xs, hxs⟩ := ih (cut n as).2 es
          exact ⟨(cut n as).1 ++ (drawnIn (a :: u) ++ xs), by rw [show after = _ from hes, hxs]; simp⟩
  cases gaps with
  | nil => exact ⟨as ++ ds, by simp [interleave]⟩
  | cons n gs => exact weave_ _ _ _

/-- An assertion no radio event disturbs. -/
def Stable (P : State → Prop) : Prop := ∀ s t, radioOnly s t → P s → P t

/-- The step `a`, taken from any state with `P`, completes and leads to `Q`. -/
def Takes (a : Action) (P Q : State → Prop) : Prop :=
  ∀ s rest, P s → s.pending = a :: rest → ∃ t, step s = .next t ∧ t.pending = rest ∧ Q t

/-- The steps `as`, taken one after another from any state with `P`, all complete and lead to `Q`; the assertions
between them are undisturbed by radio events. -/
def Goes : List Action → (State → Prop) → (State → Prop) → Prop
  | [], P, Q      => ∀ s, P s → Q s
  | a :: as, P, Q => ∃ R, Stable R ∧ Takes a P R ∧ Goes as R Q

theorem runSteps_add (k n : Nat) (s : State) : runSteps (k + n) s = andThen (runSteps k s) (runSteps n) := by
  induction k generalizing s with
  | zero => simp
  | succ k ih =>
      rw [Nat.succ_add, runSteps_succ, runSteps_succ]
      cases step s <;> simp [andThen, ih]

/-- Steps with nothing between them. -/
theorem Goes.run {as : List Action} {P Q : State → Prop} (h : Goes as P Q) {s : State} {rest : List Action}
    (hs : P s) (hp : s.pending = as ++ rest) :
    ∃ t, runSteps as.length s = .next t ∧ t.pending = rest ∧ Q t := by
  induction as generalizing P s with
  | nil => exact ⟨s, rfl, hp, h s hs⟩
  | cons a as ih =>
      obtain ⟨R, -, h1, h2⟩ := h
      obtain ⟨t, ht, hq, hr⟩ := h1 s (as ++ rest) hs hp
      rw [List.length_cons, runSteps_next ht]
      exact ih h2 hr hq

theorem cut_length (n : Nat) (as : List Action) : (cut n as).1.length + (cut n as).2.length = as.length := by
  induction as generalizing n with
  | nil => cases n <;> rfl
  | cons a as ih =>
      cases n <;> simp only [cut] <;> split <;> simp only [List.length_cons, List.length_nil]
      · have := ih 0; omega
      · omega
      · rename_i k _; have := ih (k + 1); omega
      · rename_i k _; have := ih k; omega

/-- Steps can be stopped after any cut, at an assertion no event disturbs. -/
theorem Goes.cut {as : List Action} {P Q : State → Prop} (hP : Stable P) (h : Goes as P Q) (n : Nat) :
    ∃ R, Stable R ∧ Goes (Machine.cut n as).1 P R ∧ Goes (Machine.cut n as).2 R Q := by
  induction as generalizing P n with
  | nil => cases n <;> exact ⟨P, hP, fun _ h => h, h⟩
  | cons a as ih =>
      have hcons : ∀ k, ∃ R, Stable R ∧ Goes (a :: (Machine.cut k as).1) P R ∧ Goes (Machine.cut k as).2 R Q := by
        intro k
        obtain ⟨R, hR, h1, h2⟩ := h
        obtain ⟨R', a1, a2, a3⟩ := ih hR h2 k
        exact ⟨R', a1, ⟨R, hR, h1, a2⟩, a3⟩
      cases n <;> simp only [Machine.cut] <;> split
      · exact hcons _
      · exact ⟨P, hP, fun _ h => h, h⟩
      · exact hcons _
      · exact hcons _

/-- Steps with radio events drawn in between, wherever they fall (R71, R180). -/
theorem Goes.weave {as evs rest : List Action} {gaps : List Nat} {P Q : State → Prop} (h : Goes as P Q)
    (hP : Stable P) (he : ∀ e ∈ evs, isRadioEvent e = true) (hl : gaps.length = evs.length) {s : State} (hs : P s)
    (hp : s.pending = Machine.weave gaps as (evs ++ rest)) :
    ∃ t, runSteps (as.length + evs.length) s = .next t ∧ t.pending = rest ∧ Q t := by
  induction gaps generalizing as evs P s with
  | nil =>
      cases evs with
      | nil => exact h.run hs hp
      | cons e es => cases hl
  | cons n gs ih =>
      cases evs with
      | nil => cases hl
      | cons e es =>
          obtain ⟨R, hR, h1, h2⟩ := h.cut hP n
          have hev := he e (by simp)
          have hp' : s.pending = (Machine.cut n as).1
              ++ (e :: Machine.weave gs (Machine.cut n as).2 (es ++ rest)) := by
            rw [hp, List.cons_append, weave_radioEvent n gs as _ hev]
          obtain ⟨t, ht, hq, hr⟩ := h1.run hs hp'
          obtain ⟨u, hu, hq', hr'⟩ := step_radioEvent hev hq
          obtain ⟨v, hv, hx⟩ := ih h2 hR (fun x hx => he x (by simp [hx])) (by simpa using hl) (hR t u hr' hr) hq'
          refine ⟨v, ?_, hx⟩
          have hlen := cut_length n as
          rw [show as.length + (e :: es).length
              = (Machine.cut n as).1.length + ((Machine.cut n as).2.length + es.length + 1) by simp; omega,
            runSteps_add, ht, andThen_next, runSteps_next hu, hv]

/-! ### The byte steps of a register frame, as assertions no event disturbs -/

/-- The parameters, the registers and the read-modify-writes under way are these, the frame is open or closed, and its
latches and the bytes returned meet `F` and `T`. -/
def OnBus (p : Params) (g : Regs) (m : List (Reg × Byte)) (o : Bool) (F : Option Byte → Nat → List Byte → Prop)
    (T : List Byte → Prop) (s : State) : Prop :=
  s.params = p ∧ s.regs = g ∧ s.rmw = m ∧ s.frOpen = o ∧ F s.frCmd s.frIdx s.frBuf ∧ T s.reply

theorem OnBus_stable {p g m o F T} : Stable (OnBus p g m o F T) := by
  rintro s t h ⟨a, b, c, d, e, f⟩
  rw [h]; exact ⟨a, b, c, d, e, f⟩

/-- Between frames, with nothing said of the latches. -/
abbrev Idle (p : Params) (g : Regs) (m : List (Reg × Byte)) : (List Byte → Prop) → State → Prop :=
  OnBus p g m false fun _ _ _ => True

/-- In a frame just opened. -/
abbrev Opened (p : Params) (g : Regs) (m : List (Reg × Byte)) : State → Prop :=
  OnBus p g m true (fun c n b => c = none ∧ n = 0 ∧ b = []) fun r => r = []

/-- After the command byte `c` and `bs` as write data. -/
abbrev Sent (p : Params) (g : Regs) (m : List (Reg × Byte)) (c : Byte) (bs : List Byte) :
    (List Byte → Prop) → State → Prop :=
  OnBus p g m true fun c' n b => c' = some c ∧ n = bs.length ∧ b = bs

variable {p : Params} {g : Regs} {m : List (Reg × Byte)}

theorem takes_csnFall {F T} : Takes .csnFall (OnBus p g m false F T) (Opened p g m) := by
  rintro s rest ⟨a, b, c, d, e, f⟩ hp
  refine ⟨openFrame (popAction s), ?_, by simp [hp], a, b, c, rfl, ⟨rfl, rfl, rfl⟩, rfl⟩
  simp only [step, hp, stepCsnFall, d, Bool.false_eq_true, ↓reduceIte]

/-- The command byte of a register command to a register that is not held. -/
theorem takes_command {i : Instr} {r : Reg} (hi : regOf i = some r) (hd : decodeByte p (encodeByte p i) = i)
    (hh : (m.any fun e => e.1 == r) = false) :
    Takes (.xfer (encodeByte p i)) (Opened p g m) (Sent p g m (encodeByte p i) [] fun r => ∃ x, r = [x]) := by
  rintro s rest ⟨rfl, rfl, rfl, d, ⟨e1, e2, e3⟩, f⟩ hp
  refine ⟨commandByte (encodeByte s.params i) (popAction s), ?_, by simp [hp], rfl, rfl, rfl, d, ⟨rfl, e2, e3⟩,
    by simp [f]⟩
  simp only [step, hp, stepXfer, e1]
  rw [hd, sendCommand_of_regOf hi hh,
    exec_eq_runCommand (by rintro b rfl; cases hi) (by rintro b rfl; cases hi), runCommand_xfer hp]
  simp only [xferStep, popAction_frOpen, d, popAction_frCmd, e1, ↓reduceIte]

theorem takes_backCmd {r : Reg} (hm : p.mapOk = true) :
    Takes (.backCmd r) (Opened p g m) (Sent p g m (encodeByte p (.wRegister r)) [] fun _ => True) := by
  rintro s rest ⟨rfl, rfl, rfl, d, ⟨e1, e2, e3⟩, f⟩ hp
  refine ⟨commandByte (encodeByte s.params (.wRegister r)) (popAction s), ?_, by simp [hp], rfl, rfl, rfl, d,
    ⟨rfl, e2, e3⟩, trivial⟩
  simp only [step, hp, stepBackCmd, e1, Option.getD_none]
  rw [decodeByte_encode_wRegister hm]
  simp only [exec, execWRegister]
  rw [runCommand_xfer rfl]
  simp [xferStep, d, e1, popAction, hp]

theorem takes_writeData {r : Reg} {v : Byte} {T} (hm : p.mapOk = true) :
    Takes (.xfer v) (Sent p g m (encodeByte p (.wRegister r)) [] T)
      (Sent p g m (encodeByte p (.wRegister r)) [v] fun _ => True) := by
  rintro s rest ⟨rfl, rfl, rfl, d, ⟨e1, e2, e3⟩, f⟩ hp
  refine ⟨bufferByte v (popAction s), ?_, by simp [hp], rfl, rfl, rfl, d, ⟨e1, by simp [e2], by simp [e3]⟩,
    trivial⟩
  simp only [step, hp, stepXfer, e1]
  rw [decodeByte_encode_wRegister hm]
  simp only [exec, execWRegister]
  rw [runCommand_xfer hp]
  simp only [xferStep, popAction_frOpen, d, popAction_frCmd, e1, ↓reduceIte, bufferData]

/-- The data byte of the second frame of `rmw`: computed from the byte its first frame read. -/
theorem takes_backData {r : Reg} {keep bits c : Byte} {T} (hm : p.mapOk = true) (hc : m.lookup r = some c) :
    Takes (.backData r keep bits) (Sent p g m (encodeByte p (.wRegister r)) [] T)
      (Sent p g (m.filter fun e => e.1 != r) (encodeByte p (.wRegister r)) [(c &&& keep) ||| bits]
        fun _ => True) := by
  rintro s rest ⟨rfl, rfl, rfl, d, ⟨e1, e2, e3⟩, f⟩ hp
  refine ⟨bufferByte ((c &&& keep) ||| bits) (popAction (release r s)), ?_, by simp [release, hp], rfl, rfl, rfl, d,
    ⟨e1, by simp [release, e2], by simp [release, e3]⟩, trivial⟩
  simp only [step, hp, stepBackData, hc, stepXfer]
  rw [show (release r s).frCmd = some (encodeByte s.params (.wRegister r)) from e1]
  simp only
  rw [show (release r s).params = s.params from rfl, decodeByte_encode_wRegister hm]
  simp only [exec, execWRegister]
  rw [runCommand_xfer rfl]
  simp [xferStep, d, e1, popAction, release, bufferData, hp]

/-- The commit of a legal byte (R110). -/
theorem takes_writeRise {r : Reg} {v : Byte} {T} (hm : p.mapOk = true) (hr : isByteReg r = true)
    (hv : byteLegal r v = true) :
    Takes .csnRise (Sent p g m (encodeByte p (.wRegister r)) [v] T) (Idle p (storeByte r v g) m fun _ => True) := by
  rintro s rest ⟨rfl, rfl, rfl, d, ⟨e1, e2, e3⟩, f⟩ hp
  refine ⟨closeFrame { popAction s with regs := storeByte r v s.regs }, ?_, by simp [hp], rfl, rfl, rfl, rfl, trivial,
    trivial⟩
  simp only [step, hp, stepCsnRise, e1]
  rw [decodeByte_encode_wRegister hm]
  simp only [exec, execWRegister]
  rw [runCommand_csnRise hp, riseStep_some (b := encodeByte s.params (.wRegister r)) (by simpa) (by simpa),
    commitWrite_byteReg hr hv (by simpa using e2) (by simpa using e3), andThen_next, settleIrq_of_irqN_eq]
  · rfl
  · exact irqN_congr rfl rfl rfl (storeByte_config hr v s.regs)

theorem regByte_of_isByteReg {r : Reg} (hr : isByteReg r = true) (s : State) : regByte s r 0 = storedByte s.regs r := by
  cases r <;> first | rfl | cases hr

/-- The data byte of a read of a stored 1-byte register (R101). -/
theorem takes_readData {r : Reg} {k : Byte} (hm : p.mapOk = true) (hr : isByteReg r = true) :
    Takes (.xfer k) (Sent p g m (encodeByte p (.rRegister r)) [] fun r => ∃ x, r = [x])
      (OnBus p g m true (fun c _ _ => c = some (encodeByte p (.rRegister r)))
        fun bs => ∃ x, bs = [x, storedByte g r]) := by
  rintro s rest ⟨rfl, rfl, rfl, d, ⟨e1, e2, e3⟩, x, f⟩ hp
  refine ⟨answer (storedByte s.regs r) (popAction s), ?_, by simp [hp], rfl, rfl, rfl, d, e1, x, by simp [f]⟩
  have hw : regWidth r = 1 := by cases r <;> first | rfl | cases hr
  simp only [step, hp, stepXfer, e1]
  rw [decodeByte_encode_rRegister hm]
  simp only [exec, execRRegister]
  rw [runCommand_xfer hp]
  simp [xferStep, d, e1, readData, e2, hw, regByte_of_isByteReg hr]

theorem takes_readRise {r : Reg} {T} (hm : p.mapOk = true) :
    Takes .csnRise (OnBus p g m true (fun c _ _ => c = some (encodeByte p (.rRegister r))) T) (Idle p g m T) := by
  rintro s rest ⟨rfl, rfl, rfl, d, e1, f⟩ hp
  refine ⟨closeFrame (popAction s), ?_, by simp [hp], rfl, rfl, rfl, rfl, trivial, f⟩
  simp only [step, hp, stepCsnRise, e1]
  rw [decodeByte_encode_rRegister hm]
  simp only [exec, execRRegister]
  rw [runCommand_csnRise hp, riseStep_some (b := encodeByte s.params (.rRegister r)) (by simpa) (by simpa)]
  simp only [commitNothing, andThen_next]
  rw [settleIrq_of_irqN_eq (by rfl)]

theorem takes_keep {r : Reg} {c : Byte} :
    Takes (.keep r) (Idle p g m fun bs => ∃ x, bs = [x, c]) (Idle p g ((r, c) :: m) fun _ => True) := by
  rintro s rest ⟨rfl, rfl, rfl, d, -, x, f⟩ hp
  exact ⟨_, step_keep hp f, rfl, rfl, rfl, rfl, d, trivial, trivial⟩

/-- The bare steps of a write frame of a 1-byte register, before others. -/
theorem Goes.writeFrame {as : List Action} {Q F T} {r : Reg} {v : Byte} (hm : p.mapOk = true)
    (hh : (m.any fun e => e.1 == r) = false) (hr : isByteReg r = true) (hv : byteLegal r v = true)
    (h : Goes as (Idle p (storeByte r v g) m fun _ => True) Q) :
    Goes (bareSteps (Machine.writeFrame p r [v]) ++ as) (OnBus p g m false F T) Q :=
  ⟨_, OnBus_stable, takes_csnFall,
    _, OnBus_stable, takes_command (i := .wRegister r) rfl (decodeByte_encode_wRegister hm r) hh,
    _, OnBus_stable, takes_writeData hm, _, OnBus_stable, takes_writeRise hm hr hv, h⟩

/-- The bare steps of a read-modify-write of a 1-byte register, before others (R183). -/
theorem Goes.rmw {as : List Action} {Q F T} {r : Reg} {keep bits : Byte} (hm : p.mapOk = true)
    (hh : (m.any fun e => e.1 == r) = false) (hr : isByteReg r = true)
    (hv : byteLegal r ((storedByte g r &&& keep) ||| bits) = true)
    (h : ∀ m', Goes as (Idle p (storeByte r ((storedByte g r &&& keep) ||| bits) g) m' fun _ => True) Q) :
    Goes ((rmwSteps p r keep bits).flatMap bareSteps ++ as) (OnBus p g m false F T) Q :=
  ⟨_, OnBus_stable, takes_csnFall,
    _, OnBus_stable, takes_command (i := .rRegister r) rfl (decodeByte_encode_rRegister hm r) hh,
    _, OnBus_stable, takes_readData hm hr, _, OnBus_stable, takes_readRise hm, _, OnBus_stable, takes_keep,
    _, OnBus_stable, takes_csnFall, _, OnBus_stable, takes_backCmd hm,
    _, OnBus_stable, takes_backData hm (by simp), _, OnBus_stable, takes_writeRise hm hr hv, h _⟩

end Sys2Proof.Machine
end

