-- ==== Sys2Proof/Laws/PerInstr.lean ====
section
/-! SUPPORT. A fact about every command as syntax, one lemma per constructor: its command byte is one of the bytes with a
defined command (R89) exactly when the command is not a reserved byte (R90). -/

namespace Sys2Proof.Laws.DefinedByte

/-- The commands R89 gives a row of their own. -/
def isDefined : Instr → Bool
  | .rRegister _   => true
  | .wRegister _   => true
  | .rRxPayload    => true
  | .wTxPayload    => true
  | .wAckPayload _ => true
  | .flushTx       => true
  | .flushRx       => true
  | .nop           => true
  | .reserved _    => false

/-- Under every admissible choice of bytes and addresses, the byte of the well-formed command is a defined one
exactly when the command is. -/
def Statement (i : Instr) : Prop :=
  ∀ p : Params, p.mapOk = true → i.wf p = true → isDefinedByte p (encodeByte p i) = isDefined i

theorem rRegister (r : Reg) : Statement (.rRegister r) := by
  intro p hm _
  have h : isRegByte (encodeByte p (.rRegister r)) = true :=
    (isRegByte_iff _).2 (.inl (readByte_op _))
  rw [isDefinedByte, if_pos h]
  simp only [encodeByte, readByte_addr, Params.regAt_addrOf hm, isDefined, Option.isSome_some]

theorem wRegister (r : Reg) : Statement (.wRegister r) := by
  intro p hm _
  have h : isRegByte (encodeByte p (.wRegister r)) = true :=
    (isRegByte_iff _).2 (.inr (writeByte_op _))
  rw [isDefinedByte, if_pos h]
  simp only [encodeByte, writeByte_addr, Params.regAt_addrOf hm, isDefined, Option.isSome_some]

/-- A fixed byte (R85) that is one of the five is defined. -/
theorem fixed {p : Params} (hm : p.mapOk = true) {b : Byte}
    (hb : b ∈ [p.opcRRxPayload, p.opcWTxPayload, p.opcFlushTx, p.opcFlushRx, p.opcNop]) :
    isDefinedByte p b = true := by
  have h := ((Params.mapOk_parts hm).2.1 b hb).1
  rw [isDefinedByte, if_neg (by simp [h])]
  simp only [List.mem_cons, List.not_mem_nil, or_false] at hb
  rcases hb with rfl | rfl | rfl | rfl | rfl <;> simp

theorem rRxPayload : Statement .rRxPayload := fun _ hm _ => fixed hm (by simp [encodeByte])
theorem wTxPayload : Statement .wTxPayload := fun _ hm _ => fixed hm (by simp [encodeByte])
theorem flushTx : Statement .flushTx := fun _ hm _ => fixed hm (by simp [encodeByte])
theorem flushRx : Statement .flushRx := fun _ hm _ => fixed hm (by simp [encodeByte])
theorem nop : Statement .nop := fun _ hm _ => fixed hm (by simp [encodeByte])

theorem wAckPayload (ppp : BitVec 3) : Statement (.wAckPayload ppp) := by
  intro p hm hw
  obtain ⟨-, -, ha, hb, -⟩ := Params.mapOk_parts hm
  have h5 : (encodeByte p (.wAckPayload ppp)).extractLsb' 3 5 = p.opcWAckPayload.extractLsb' 3 5 :=
    ackByte_base _ _
  have h3 : (encodeByte p (.wAckPayload ppp)).extractLsb' 0 3 = ppp := ackByte_pipe _ _ hb
  have hk : isAckByte p (encodeByte p (.wAckPayload ppp)) = true := by
    simpa [isAckByte, h5, h3] using (of_decide_eq_true hw : ppp ≤ 5#3)
  rw [isDefinedByte, if_neg (by rw [isRegByte_congr h5, ha]; decide)]
  simp [hk, isDefined]

theorem reserved (b : Byte) : Statement (.reserved b) := by
  intro p _ hw
  simpa [Instr.wf, encodeByte, isDefined] using hw

end Sys2Proof.Laws.DefinedByte
end

