-- ==== Sys2Proof/Tests/Slice0.lean ====
section
/-! SUPPORT. Tests of the model: ill-formed terms the checks refuse, command bytes written out from the spec's encoding,
single steps whose expected values are the spec's own (spec/95_test_vectors.md, named in the comments), and for each statement with
hypotheses a state that meets them. -/

namespace Sys2Proof.Tests

open Sys2Proof.Machine

/-! ### Helpers -/

/-- What is seen of the state a step answers. -/
def see {α : Type} (o : Host.Outcome State Fault Refusal) (f : State → α) : Option α :=
  match o with
  | .next t    => some (f t)
  | .fault _   => none
  | .refused _ => none

/-- Why a step is refused. -/
def why (o : Host.Outcome State Fault Refusal) : Option Refusal :=
  match o with
  | .next _    => none
  | .fault _   => none
  | .refused r => some r

/-- The state after reset with one step placed. -/
def placed (a : Action) : State := { State.reset with pending := [a] }

/-- The same inside an open frame: the command byte `c`, and the data bytes buffered and counted so far. -/
def inFrame (c : Byte) (n : Nat) (buf : List Byte) (a : Action) : State :=
  { placed a with csn := false, frOpen := true, frCmd := some c, frIdx := n, frBuf := buf }

/-- The state with another CONFIG. -/
def cfg (v : Byte) (s : State) : State := { s with regs := { s.regs with config := v } }

/-- A transmitter in standby with a payload at the head (95_test_vectors M1). -/
def standby (a : Action) : State := { cfg 0x0A (placed a) with txf := [{ kind := .tx, data := [0xAA, 0xBB] }] }

/-- A transmission in progress (95_test_vectors, after M1). -/
def onAir (a : Action) : State := { standby a with txActive := true }

/-- A listening receiver, pipe 0 two bytes wide (95_test_vectors M14). -/
def listening (a : Action) : State :=
  { cfg 0x0B (placed a) with
    ce := true, regs := { Regs.default with config := 0x0B, rxPw := #v[2, 0, 0, 0, 0, 0] } }

/-- A listening receiver with an acknowledge payload for pipe 1 (95_test_vectors M20). -/
def acking (a : Action) : State :=
  { cfg 0x0B (placed a) with
    ce := true, txf := [{ kind := .ack 1, data := [0x5A] }]
    regs := { Regs.default with config := 0x0B, feature := 0x06 } }

/-! ### WellFormed refuses what is ill formed -/

theorem test_wf_ack_pipe_six : (Instr.wAckPayload 6).wf Params.default = false := by decide
theorem test_wf_ack_pipe_five : (Instr.wAckPayload 5).wf Params.default = true := by decide
theorem test_wf_reserved_nop : (Instr.reserved 0xFF).wf Params.default = false := by decide
theorem test_wf_reserved_register : (Instr.reserved 0x25).wf Params.default = false := by decide
theorem test_wf_reserved_unmapped : (Instr.reserved 0x03).wf Params.default = true := by decide
theorem test_map_default : Params.default.mapOk = true := by decide
theorem test_map_same_opcode : { Params.default with opcNop := 0xE1 }.mapOk = false := by decide
theorem test_map_opcode_in_registers : { Params.default with opcNop := 0x3F }.mapOk = false := by decide
theorem test_map_opcode_in_ack_block : { Params.default with opcNop := 0xA9 }.mapOk = false := by decide
theorem test_map_ack_in_registers : { Params.default with opcWAckPayload := 0x28 }.mapOk = false := by decide
theorem test_map_ack_low_bits : { Params.default with opcWAckPayload := 0xA9 }.mapOk = false := by decide
theorem test_map_same_address :
    { Params.default with addrs := { RegAddrs.default with feature := 0x1C } }.mapOk = false := by decide
theorem test_params_default : paramsOk Params.default = true := by decide
theorem test_params_no_fifo : paramsOk { Params.default with fifoDepth := 0 } = false := by decide
theorem test_params_powered_reset :
    paramsOk { Params.default with resetRegs := { Regs.default with config := 0x0A } } = false := by decide

/-! ### Decoding (30_encoding R84 to R90, 95_test_vectors F8) -/

/-- `000AAAAA` reads and `001AAAAA` writes, at the 22 addresses of R20. -/
theorem test_decode_registers :
    ([(0b00000#5, Reg.config), (0b00001, .enAa), (0b00010, .enRxaddr), (0b00101, .rfCh), (0b00110, .rfSetup),
      (0b00111, .status), (0b01010, .rxAddr 0), (0b01011, .rxAddr 1), (0b01100, .rxAddr 2), (0b01101, .rxAddr 3),
      (0b01110, .rxAddr 4), (0b01111, .rxAddr 5), (0b10000, .txAddr), (0b10001, .rxPw 0), (0b10010, .rxPw 1),
      (0b10011, .rxPw 2), (0b10100, .rxPw 3), (0b10101, .rxPw 4), (0b10110, .rxPw 5), (0b10111, .fifoStatus),
      (0b11100, .dynpd), (0b11101, .feature)] : List (RegAddr × Reg)).all (fun x =>
        decide (decodeByte Params.default (0b000#3 ++ x.1) = .rRegister x.2)
          && decide (decodeByte Params.default (0b001#3 ++ x.1) = .wRegister x.2)) = true := by decide +kernel

theorem test_decode_rRxPayload : decodeByte Params.default 0b01100001#8 = .rRxPayload := by decide
theorem test_decode_wTxPayload : decodeByte Params.default 0b10100000#8 = .wTxPayload := by decide
theorem test_decode_wAckPayload : decodeByte Params.default 0b10101101#8 = .wAckPayload 0b101 := by decide
theorem test_decode_flushTx : decodeByte Params.default 0b11100001#8 = .flushTx := by decide
theorem test_decode_flushRx : decodeByte Params.default 0b11100010#8 = .flushRx := by decide
theorem test_decode_nop : decodeByte Params.default 0b11111111#8 = .nop := by decide
theorem test_decode_reserved_ack : decodeByte Params.default 0b10101110#8 = .reserved 0xAE := by decide
theorem test_decode_reserved_unmapped : decodeByte Params.default 0b00111011#8 = .reserved 0x3B := by decide
theorem test_decode_frame_empty : decodeFrame Params.default [] = .error .noCommandByte := by decide
theorem test_frame_byte : frameByte 0x20 0x11 = some 0x31 := by decide                    -- H20
theorem test_frame_byte_range : frameByte 0x20 0x20 = none := by decide                   -- H20

/-- 44 register commands to mapped addresses and eleven others: 55 bytes; 181 block bytes and 20 register
bytes are reserved (R89). -/
theorem test_reserved_count :
    ((List.range 256).filter fun n => !isDefinedByte Params.default (BitVec.ofNat 8 n)).length = 201 := by
  decide +kernel

/-! ### R_REGISTER -/

/-- `[00 FF] -> [0E 08]` (95_test_vectors 2.2). -/
theorem test_read_config : see (step (placed (.frame [0x00, 0xFF]))) (·.reply) = some [0x0E, 0x08] := by decide
/-- `[0C FF FF FF FF FF] -> [0E C3 C2 C2 C2 C2]` (95_test_vectors 2.2). -/
theorem test_read_address :
    see (step (placed (.frame [0x0C, 0xFF, 0xFF, 0xFF, 0xFF, 0xFF]))) (·.reply)
      = some [0x0E, 0xC3, 0xC2, 0xC2, 0xC2, 0xC2] := by decide

/-! ### W_REGISTER -/

/-- A17: unmasking a pending flag makes the line fall at the end of the frame. -/
theorem test_write_config_edge :
    see (step { cfg 0x7A (placed (.frame [0x20, 0x0A])) with txDs := true })
      (fun t => (t.reply.head?, t.regs.config, irqN t, t.edges)) = some (some 0x2E, 0x0A, false, 1) := by decide
/-- A12: `[27 40]` clears RX_DR alone. -/
theorem test_write_status :
    see (step { placed (.frame [0x27, 0x40]) with rxDr := true, txDs := true })
      (fun t => (t.reply.head?, t.rxDr, status t)) = some (some 0x6E, false, 0x2E) := by decide
/-- A19: `[20 0C]` while transmitting. -/
theorem test_write_config_on_air :
    why (step (cfg 0x0E (onAir (.frame [0x20, 0x0C])))) = some (.modeChangeWhileTransmitting 0x0C) := by decide
/-- A16: `[37 00]`. -/
theorem test_write_fifo_status :
    why (step (placed (.frame [0x37, 0x00]))) = some (.readOnlyRegister .fifoStatus) := by decide
/-- A10: a payload width of 33. -/
theorem test_write_width : why (step (placed (.frame [0x31, 0x21]))) = some (.payloadWidth 0x21) := by decide
/-- A11: four bytes to an address register. -/
theorem test_write_length :
    why (step (placed (.frame [0x30, 0x11, 0x22, 0x33, 0x44]))) = some (.writeLength .txAddr 4) := by decide

/-! ### The packet FIFO commands -/

/-- B9: `[61 FF FF FF] -> [42 10 20 30]`; STATUS is then 0x40. -/
theorem test_read_payload :
    see (step { placed (.frame [0x61, 0xFF, 0xFF, 0xFF]) with
        rxDr := true, rxf := [{ pipe := 1, data := [0x10, 0x20, 0x30] }, { pipe := 0, data := [0xAA] }] })
      (fun t => (t.reply, t.rxf, status t))
      = some ([0x42, 0x10, 0x20, 0x30], [{ pipe := 0, data := [0xAA] }], 0x40) := by decide
/-- B14: `[61]`. -/
theorem test_read_payload_empty : why (step (placed (.frame [0x61]))) = some .payloadReadWithoutData := by decide
/-- B5: the third payload fills the FIFO: STATUS 0x0F, FIFO_STATUS 0x21. -/
theorem test_write_payload_fills :
    see (step { placed (.frame [0xA0, 0x03]) with
        txf := [{ kind := .tx, data := [1] }, { kind := .tx, data := [2] }] })
      (fun t => (t.reply.head?, t.txf.length, status t, fifoStatus t)) = some (some 0x0E, 3, 0x0F, 0x21) := by decide
/-- B6: the fourth is refused. -/
theorem test_write_payload_full :
    why (step { placed (.frame [0xA0, 0x04]) with
        txf := [{ kind := .tx, data := [1] }, { kind := .tx, data := [2] }, { kind := .tx, data := [3] }] })
      = some .txFifoFull := by decide
/-- B7: `[AD 09]`. -/
theorem test_write_ack :
    see (step (placed (.frame [0xAD, 0x09]))) (fun t => (t.txf, fifoStatus t))
      = some ([{ kind := .ack 5, data := [0x09] }], 0x01) := by decide
/-- F6: pipe 6. -/
theorem test_write_ack_pipe_six :
    why (step (placed (.frame [0xAE, 0x00]))) = some (.reservedCommand 0xAE 0x0E) := by decide
/-- B15: `[E1]`. -/
theorem test_flush_tx :
    see (step { placed (.frame [0xE1]) with txf := [{ kind := .tx, data := [1] }, { kind := .ack 1, data := [2] }] })
      (fun t => (t.reply, t.txf, fifoStatus t)) = some ([0x0E], [], 0x11) := by decide
/-- B16: `[E1]` while transmitting. -/
theorem test_flush_tx_on_air : why (step (onAir (.frame [0xE1]))) = some .flushWhileTransmitting := by decide
/-- B17: `[E2] -> [40]`; RX_DR stays. -/
theorem test_flush_rx :
    see (step { placed (.frame [0xE2]) with
        rxDr := true
        rxf := [{ pipe := 0, data := [1] }, { pipe := 1, data := [2] }, { pipe := 2, data := [3] }] })
      (fun t => (t.reply, status t, fifoStatus t)) = some ([0x40], 0x4E, 0x11) := by decide
/-- B19: `[E2 FF]`. -/
theorem test_flush_rx_data : why (step (placed (.frame [0xE2, 0xFF]))) = some (.dataByteAfterCommand 0xFF) := by decide
/-- B20: `[FF] -> [1F]`. -/
theorem test_nop :
    see (step { placed (.frame [0xFF]) with
        maxRt := true
        txf := [{ kind := .tx, data := [1] }, { kind := .tx, data := [2] }, { kind := .tx, data := [3] }] })
      (·.reply) = some [0x1F] := by decide
/-- B19: `[FF FF]`. -/
theorem test_nop_data : why (step (placed (.frame [0xFF, 0xFF]))) = some (.dataByteAfterCommand 0xFF) := by decide
/-- F5: `[40] -> [0E]`, refused there. -/
theorem test_reserved : why (step (placed (.frame [0x40]))) = some (.reservedCommand 0x40 0x0E) := by decide
/-- A4: `[1B FF]`. -/
theorem test_reserved_unmapped :
    why (step (placed (.frame [0x1B, 0xFF]))) = some (.reservedCommand 0x1B 0x0E) := by decide

/-! ### Lines, events, the driver -/

/-- M1. -/
theorem test_pulse_commits :
    see (step (standby .cePulse)) (fun t => (t.txActive, mode t, t.ce)) = some (true, .transmitting, false) := by decide
/-- M5: MAX_RT pending. -/
theorem test_pulse_blocked :
    see (step { standby .cePulse with maxRt := true }) (·.txActive) = some false := by decide
/-- M8. -/
theorem test_tx_ok :
    see (step (onAir .evTxOk)) (fun t => (t.txf, status t, mode t, t.edges))
      = some ([], 0x2E, .transmitReady, 1) := by decide
/-- M9. -/
theorem test_tx_fail :
    see (step (onAir .evTxFail)) (fun t => (t.txf.length, status t, mode t, t.edges))
      = some (1, 0x1E, .transmitReady, 1) := by decide
/-- M14. -/
theorem test_rx :
    see (step (listening (.evRx 0 [0xDE, 0xAD]))) (fun t => (t.rxf, status t, t.edges))
      = some ([{ pipe := 0, data := [0xDE, 0xAD] }], 0x40, 1) := by decide
/-- M15: wrong length. -/
theorem test_rx_length :
    see (step (listening (.evRx 0 [0xDE]))) (fun t => (t.rxf, t.rxDr)) = some ([], false) := by decide
/-- M20. -/
theorem test_ack_done :
    see (step (acking (.evAckDone 1))) (fun t => (t.txf, t.txDs, t.edges)) = some ([], true, 1) := by decide
/-- M21: no entry for pipe 0. -/
theorem test_ack_done_other :
    see (step (acking (.evAckDone 0))) (fun t => (t.txf.length, t.txDs)) = some (1, false) := by decide
/-- I5: the line is low already, so there is no edge. -/
theorem test_rx_no_edge :
    see (step { listening (.evRx 0 [0xDE, 0xAD]) with txDs := true }) (fun t => (status t, t.edges))
      = some (0x60, 0) := by decide
/-- H12: the write of `set_auto_acknowledgement(false, 0)` after its read returned 3F, and a callback has read STATUS
since (R183, R213). -/
theorem test_auto_ack_write :
    see (step { placed (.writeBack .enAa 0xFE 0x00) with rmw := [(.enAa, 0x3F)], reply := [0x2E] })
      (fun t => (t.regs.enAa, t.rmw)) = some (0x3E, []) := by decide
/-- R213: no command to EN_AA while its read-modify-write is between its two frames; another register is free. -/
theorem test_rmw_same_register :
    why (step { placed (.frame [0x21, 0x00]) with rmw := [(.enAa, 0x3F)] }) = some (.rmwInterrupted .enAa) := by decide
theorem test_rmw_other_register :
    see (step { placed (.frame [0x25, 0x02]) with rmw := [(.enAa, 0x3F)] }) (·.regs.rfCh) = some 0x02 := by decide
/-- R213: a callback does not act inside an open frame. -/
theorem test_acquire_open : why (step (inFrame 0x20 0 [] .acquire)) = some .callbackInOpenFrame := by decide
/-- R71, R180: a radio event inside the frame `[25 0A]` of `set_channel(10)`. -/
theorem test_op_event_inside :
    see (step { State.reset with pending := [.op (.setChannel 10) [2], .evTxOk, .reset] }) (·.pending)
      = some [.csnFall, .xfer 0x25, .evTxOk, .xfer 0x0A, .csnRise, .cache (.channel 10), .reset] := by decide
/-- R183, R213: a callback's status frame between the two frames of H12. -/
theorem test_op_callback_between :
    see (step { State.reset with pending := [.op (.setAutoAckPipe false 0) [4], .frame [0xFF]] }) (·.pending)
      = some [.csnFall, .xfer 0x01, .xfer 0xFF, .csnRise, .keep .enAa, .acquire, .frame [0xFF], .acquire, .csnFall,
          .backCmd .enAa, .backData .enAa 0xFE 0x00, .csnRise] := by decide
/-- R213: a lone exchange inside an operation's frame is the callback's, and refused there. -/
theorem test_op_callback_xfer :
    see (step { State.reset with pending := [.op (.sendPacket [0xAA, 0xBB]) [3], .xfer 0x55] }) (·.pending)
      = some [.csnFall, .xfer 0xA0, .xfer 0xAA, .acquire, .xfer 0x55, .acquire, .xfer 0xBB, .csnRise, .ceHigh,
          .txStart, .ceLow] := by decide
/-- R213: a callback's operation draws a radio event in between its own steps, and no step of the operation it
interrupts. -/
theorem test_op_callback_gaps :
    see (step { State.reset with pending := [.op .startTransfer [1, 7], .acquire, .csnFall] }) (·.pending)
        = some [.ceHigh, .txStart, .ceLow, .acquire, .csnFall]
      ∧ see (step { State.reset with pending := [.op (.setAutoAck false) [1], .op .startTransfer [1], .evTxOk] })
          (·.pending)
        = some [.csnFall, .acquire, .op .startTransfer [1], .evTxOk, .acquire, .xfer 0x21, .xfer 0x00,
            .csnRise] := by decide
/-- R213: a callback's frame placed byte by byte is drawn in whole, with the event inside it. -/
theorem test_op_callback_bytes :
    see (step { State.reset with pending :=
        [.op .stopListening [1, 0], .csnFall, .evTxOk, .xfer 0xFF, .csnRise, .evTxFail] }) (·.pending)
      = some [.ceLow, .acquire, .csnFall, .evTxOk, .xfer 0xFF, .csnRise, .acquire, .evTxFail, .csnFall, .xfer 0xE2,
          .csnRise, .csnFall, .xfer 0xE1, .csnRise] := by decide
/-- H15, with the wait of R190. -/
theorem test_start_listening :
    see (step (placed (.op .startListening []))) (·.pending)
      = some [.frame [0xE2], .frame [0xE1], .ceHigh, .wait Params.default.listenDelay] := by decide
/-- H16. -/
theorem test_stop_listening :
    see (step (placed (.op .stopListening []))) (·.pending) = some [.ceLow, .frame [0xE2], .frame [0xE1]] := by decide
/-- S1: `set_channel(1000)` issues `[25 7F]`. -/
theorem test_set_channel :
    see (step (placed (.op (.setChannel 1000) []))) (·.pending)
      = some [.frame [0x25, 0x7F], .cache (.channel 127)] := by decide
/-- H7 with H8: the power is written in the Transceiver mode only. -/
theorem test_power_other_mode :
    see (step (placed (.op (.setRfOutputPower .dbm18) []))) (·.pending) = some [] := by decide

/-! ### Each statement's hypotheses are met, each clause of it by a state of its own -/

theorem test_witness_DecodeOfEncodeIsIdentity :
    Params.default.mapOk = true ∧ (Instr.wAckPayload 5).wf Params.default = true
      ∧ (Instr.reserved 0x40).wf Params.default = true := by decide

theorem test_witness_EncodeOfDecodeIsIdentity : Params.default.mapOk = true := by decide

theorem test_witness_StepRunsTheDecodedCommand :
    (placed (.xfer 0x61)).pending = [.xfer 0x61] ∧ (placed (.xfer 0x61)).frCmd = none
      ∧ (inFrame 0x61 0 [] (.xfer 0xFF)).pending = [.xfer 0xFF] ∧ (inFrame 0x61 0 [] (.xfer 0xFF)).frCmd = some 0x61
      ∧ (inFrame 0x61 1 [] .csnRise).pending = [.csnRise] ∧ (inFrame 0x61 1 [] .csnRise).frCmd = some 0x61
      ∧ (placed (.frame [0xE1])).pending = [.frame [0xE1]]
      ∧ (∀ r ∈ Reg.all, held (placed (.frame [0x25, 0])) r = false)
      ∧ (let s := { placed (.frame [0x21, 0]) with rmw := [(.enAa, 0x3F)] };
          s.pending = [.frame [0x21, 0]] ∧ regOf (decodeByte s.params 0x21) = some .enAa ∧ held s .enAa = true)
      ∧ (let s := { placed (.writeBack .enAa 0xFE 0x00) with rmw := [(.enAa, 0x3F)] };
          s.params.mapOk = true ∧ s.pending = [.writeBack .enAa 0xFE 0x00] ∧ s.rmw.lookup .enAa = some 0x3F)
      ∧ (let s := { placed (.backCmd .enAa) with frOpen := true };
          s.params.mapOk = true ∧ s.pending = [.backCmd .enAa] ∧ s.frCmd = none)
      ∧ (let s := { inFrame 0x21 0 [] (.backData .enAa 0xFE 0x00) with rmw := [(.enAa, 0x3F)] };
          s.params.mapOk = true ∧ s.pending = [.backData .enAa 0xFE 0x00]
            ∧ s.frCmd = some (encodeByte s.params (.wRegister .enAa)) ∧ s.rmw.lookup .enAa = some 0x3F)
      ∧ (inFrame 0x20 0 [] .acquire).pending = [.acquire] ∧ (inFrame 0x20 0 [] .acquire).frOpen = true
      ∧ (placed .acquire).pending = [.acquire] ∧ (placed .acquire).frOpen = false := by decide

theorem test_witness_EmptyFrameOpensAndCloses :
    (placed .csnFall).pending = [.csnFall] ∧ (placed .csnFall).frOpen = false
      ∧ (inFrame 0xFF 0 [] .csnFall).pending = [.csnFall] ∧ (inFrame 0xFF 0 [] .csnFall).frOpen = true
      ∧ { placed .csnRise with frOpen := true }.pending = [.csnRise]
      ∧ { placed .csnRise with frOpen := true }.frOpen = true ∧ { placed .csnRise with frOpen := true }.frCmd = none
      ∧ (placed .csnRise).pending = [.csnRise] ∧ (placed .csnRise).frOpen = false
      ∧ (placed .csnRise).frCmd = none := by decide

theorem test_witness_CommandByteReturnsStatus :
    (∀ b, Instr.rRxPayload ≠ .reserved b) ∧ Instr.rRxPayload.wf State.reset.params = true
      ∧ { placed (.xfer 0x61) with frOpen := true }.pending = [.xfer 0x61]
      ∧ { placed (.xfer 0x61) with frOpen := true }.frOpen = true
      ∧ { placed (.xfer 0x61) with frOpen := true }.frCmd = none :=
  ⟨nofun, by decide⟩

theorem test_witness_ReservedCommandIsRefused :
    { placed (.xfer 0x40) with frOpen := true }.pending = [.xfer 0x40]
      ∧ { placed (.xfer 0x40) with frOpen := true }.frOpen = true
      ∧ (placed (.frame [0x40])).pending = [.frame [0x40]] ∧ (placed (.frame [0x40])).frOpen = false
      ∧ 6 ≤ (6#3).toNat ∧ 6 ≤ (7#3).toNat := by decide

theorem test_witness_WriteDataIsBuffered :
    isWriteClass (.wRegister .config) = true ∧ (Instr.wRegister .config).wf State.reset.params = true
      ∧ (inFrame 0x20 0 [] (.xfer 0x0A)).pending = [.xfer 0x0A] ∧ (inFrame 0x20 0 [] (.xfer 0x0A)).frOpen = true
      ∧ (inFrame 0x20 0 [] (.xfer 0x0A)).frCmd = some 0x20 := by decide

theorem test_witness_DataByteAfterFlushOrNopIsRefused :
    (Instr.nop = .flushTx ∨ Instr.nop = .flushRx ∨ Instr.nop = .nop)
      ∧ (inFrame 0xFF 0 [] (.xfer 0xFF)).pending = [.xfer 0xFF] ∧ (inFrame 0xFF 0 [] (.xfer 0xFF)).frOpen = true
      ∧ (inFrame 0xFF 0 [] (.xfer 0xFF)).frCmd = some 0xFF := by decide

theorem test_witness_FrameIsItsByteSteps :
    (placed (.frame [0x00, 0xFF])).pending = [.frame [0x00, 0xFF]]
      ∧ (placed (.frame [0x00, 0xFF])).frOpen = false := by decide

theorem test_witness_StatusBits :
    (placed .reset).rxf = []
      ∧ { placed .reset with rxf := [{ pipe := 5, data := [1] }] }.rxf = [{ pipe := 5, data := [1] }] := by decide

theorem test_witness_ReadRegisterDataByte :
    (inFrame 0x0A 4 [] (.xfer 0xFF)).pending = [.xfer 0xFF] ∧ (inFrame 0x0A 4 [] (.xfer 0xFF)).frOpen = true
      ∧ (inFrame 0x0A 4 [] (.xfer 0xFF)).frCmd = some 0x0A
      ∧ (inFrame 0x0A 4 [] (.xfer 0xFF)).frIdx < regWidth (.rxAddr 0)
      ∧ (inFrame 0x0A 5 [] (.xfer 0xFF)).pending = [.xfer 0xFF] ∧ (inFrame 0x0A 5 [] (.xfer 0xFF)).frOpen = true
      ∧ (inFrame 0x0A 5 [] (.xfer 0xFF)).frCmd = some 0x0A
      ∧ regWidth (.rxAddr 0) ≤ (inFrame 0x0A 5 [] (.xfer 0xFF)).frIdx := by decide

theorem test_witness_ReadRegisterFrame :
    (placed (.frame [0x0A, 0xFF])).pending = [.frame [0x0A, 0xFF]]
      ∧ (placed (.frame [0x0A, 0xFF])).frOpen = false := by decide

theorem test_witness_WriteLengthIsChecked :
    (inFrame 0x30 4 [1, 2, 3, 4] .csnRise).pending = [.csnRise] ∧ (inFrame 0x30 4 [1, 2, 3, 4] .csnRise).frOpen = true
      ∧ (inFrame 0x30 4 [1, 2, 3, 4] .csnRise).frCmd = some 0x30
      ∧ (inFrame 0x30 4 [1, 2, 3, 4] .csnRise).frIdx ≠ regWidth .txAddr
      ∧ (inFrame 0x20 0 [] .csnRise).frIdx ≠ regWidth .config := by decide

/-- The frame that writes `v` to CONFIG, at its end, with a transmission in progress or none. -/
def configRise (v : Byte) (tx : Bool) : State := { cfg 0x0E (inFrame 0x20 1 [v] .csnRise) with txActive := tx }

theorem test_witness_WriteConfigCommits :
    (∀ v : Byte, (configRise v true).pending = [.csnRise] ∧ (configRise v true).frOpen = true
      ∧ (configRise v true).frCmd = some 0x20 ∧ (configRise v true).frIdx = 1 ∧ (configRise v true).frBuf = [v])
      ∧ (0x80#8).getLsbD 7 = true
      ∧ (0x0C#8).getLsbD 7 = false ∧ (configRise 0x0C true).txActive = true
      ∧ (0x0C#8).getLsbD 1 ≠ (configRise 0x0C true).regs.config.getLsbD 1
      ∧ (0x4E#8).getLsbD 7 = false
      ∧ ((configRise 0x4E true).txActive = true →
          (0x4E#8).getLsbD 1 = (configRise 0x4E true).regs.config.getLsbD 1
            ∧ (0x4E#8).getLsbD 0 = (configRise 0x4E true).regs.config.getLsbD 0) :=
  ⟨fun _ => ⟨rfl, rfl, rfl, rfl, rfl⟩, by decide⟩

theorem test_witness_WriteStatusClearsFlags :
    (inFrame 0x27 1 [0x40] .csnRise).pending = [.csnRise] ∧ (inFrame 0x27 1 [0x40] .csnRise).frOpen = true
      ∧ (inFrame 0x27 1 [0x40] .csnRise).frCmd = some 0x27 ∧ (inFrame 0x27 1 [0x40] .csnRise).frIdx = 1
      ∧ (inFrame 0x27 1 [0x40] .csnRise).frBuf = [0x40] ∧ (0x40#8).getLsbD 7 = false
      ∧ (inFrame 0x27 1 [0x80] .csnRise).frBuf = [0x80] ∧ (0x80#8).getLsbD 7 = true := by decide

theorem test_witness_WriteByteRegisterCommits :
    isByteReg (.rxPw 0) = true ∧ isByteReg .enAa = true
      ∧ (∀ v : Byte, (inFrame 0x31 1 [v] .csnRise).pending = [.csnRise] ∧ (inFrame 0x31 1 [v] .csnRise).frOpen = true
          ∧ (inFrame 0x31 1 [v] .csnRise).frCmd = some 0x31 ∧ (inFrame 0x31 1 [v] .csnRise).frIdx = 1
          ∧ (inFrame 0x31 1 [v] .csnRise).frBuf = [v])
      ∧ 0x40#8 &&& ~~~regWmask (.rxPw 0) ≠ 0#8 ∧ 0x40#8 &&& ~~~regWmask .enAa ≠ 0#8
      ∧ 33#8 &&& ~~~regWmask (.rxPw 0) = 0#8 ∧ isRxPw (.rxPw 0) = true ∧ 32 < (33#8).toNat
      ∧ 32#8 &&& ~~~regWmask (.rxPw 0) = 0#8 ∧ (32#8).toNat ≤ 32
      ∧ 0x3F#8 &&& ~~~regWmask .enAa = 0#8 ∧ isRxPw .enAa = false :=
  ⟨by decide, by decide, fun _ => ⟨rfl, rfl, rfl, rfl, rfl⟩, by decide⟩

theorem test_witness_WriteAddressRegisterCommits :
    (inFrame 0x2F 5 [1, 2, 3, 4, 5] .csnRise).pending = [.csnRise]
      ∧ (inFrame 0x2F 5 [1, 2, 3, 4, 5] .csnRise).frOpen = true
      ∧ (inFrame 0x2F 5 [1, 2, 3, 4, 5] .csnRise).frCmd = some 0x2F
      ∧ (inFrame 0x2F 5 [1, 2, 3, 4, 5] .csnRise).frIdx = 5
      ∧ (inFrame 0x2F 5 [1, 2, 3, 4, 5] .csnRise).frBuf = (#v[1, 2, 3, 4, 5] : Address).toList := by decide

theorem test_witness_WriteFifoStatusIsRefused :
    (inFrame 0x37 1 [0] .csnRise).pending = [.csnRise] ∧ (inFrame 0x37 1 [0] .csnRise).frOpen = true
      ∧ (inFrame 0x37 1 [0] .csnRise).frCmd = some 0x37 ∧ (inFrame 0x37 1 [0] .csnRise).frIdx = 1 := by decide

theorem test_witness_AddressRegisterRoundTrip :
    let s := { State.reset with pending := [.frame [0x2F, 1, 2, 3, 4, 5], .frame [0x0F, 0xFF, 0xFF, 0xFF, 0xFF, 0xFF]] }
    s.params.mapOk = true ∧ held s (.rxAddr 5) = false ∧ regWidth (.rxAddr 5) = 5 ∧ s.frOpen = false
      ∧ ([0xFF, 0xFF, 0xFF, 0xFF, 0xFF] : List Byte).length = 5
      ∧ s.pending = .frame (encodeByte s.params (.wRegister (.rxAddr 5)) :: (#v[1, 2, 3, 4, 5] : Address).toList)
        :: .frame (encodeByte s.params (.rRegister (.rxAddr 5)) :: [0xFF, 0xFF, 0xFF, 0xFF, 0xFF]) :: [] := by decide

/-- A frame of R_RX_PAYLOAD with `n` bytes read, over a payload of two bytes or none. -/
def payloadRead (n : Nat) (a : Action) (full : Bool) : State :=
  { inFrame 0x61 n [] a with rxf := if full then [{ pipe := 0, data := [1, 2] }] else [] }

theorem test_witness_ReadPayloadDataByte :
    (payloadRead 1 (.xfer 0xFF) true).pending = [.xfer 0xFF] ∧ (payloadRead 1 (.xfer 0xFF) true).frOpen = true
      ∧ (payloadRead 1 (.xfer 0xFF) true).frCmd = some 0x61
      ∧ (payloadRead 1 (.xfer 0xFF) true).rxf = [{ pipe := 0, data := [1, 2] }]
      ∧ ([1, 2] : List Byte)[(payloadRead 1 (.xfer 0xFF) true).frIdx]? = some 2
      ∧ (payloadRead 2 (.xfer 0xFF) true).rxf = [{ pipe := 0, data := [1, 2] }]
      ∧ ([1, 2] : List Byte).length ≤ (payloadRead 2 (.xfer 0xFF) true).frIdx
      ∧ (payloadRead 0 (.xfer 0xFF) false).rxf = [] := by decide

theorem test_witness_ReadPayloadPopsTheHead :
    (payloadRead 0 .csnRise true).pending = [.csnRise] ∧ (payloadRead 0 .csnRise true).frOpen = true
      ∧ (payloadRead 0 .csnRise true).frCmd = some 0x61 ∧ (payloadRead 0 .csnRise true).frIdx = 0
      ∧ (payloadRead 1 .csnRise true).frIdx ≠ 0
      ∧ (payloadRead 1 .csnRise true).rxf = [{ pipe := 0, data := [1, 2] }]
      ∧ (payloadRead 1 .csnRise false).frIdx ≠ 0 ∧ (payloadRead 1 .csnRise false).rxf = [] := by decide

theorem test_witness_ReadPayloadFrame :
    let s := { placed (.frame [0x61, 0xFF]) with rxf := [{ pipe := 0, data := [1, 2] }] }
    s.pending = [.frame [0x61, 0xFF]] ∧ s.frOpen = false ∧ ([0xFF] : List Byte) ≠ []
      ∧ s.rxf = [{ pipe := 0, data := [1, 2] }] := by decide

theorem test_witness_WriteTxPayloadPushes :
    (inFrame 0xA0 1 [1] .csnRise).pending = [.csnRise] ∧ (inFrame 0xA0 1 [1] .csnRise).frOpen = true
      ∧ (inFrame 0xA0 1 [1] .csnRise).frCmd = some 0xA0
      ∧ (inFrame 0xA0 0 [] .csnRise).frIdx = 0 ∧ 32 < (inFrame 0xA0 33 [] .csnRise).frIdx
      ∧ 1 ≤ (inFrame 0xA0 1 [1] .csnRise).frIdx ∧ (inFrame 0xA0 32 [] .csnRise).frIdx ≤ 32
      ∧ (inFrame 0xA0 1 [1] .csnRise).txf.length ≠ (inFrame 0xA0 1 [1] .csnRise).params.fifoDepth
      ∧ { inFrame 0xA0 1 [1] .csnRise with txf := List.replicate 3 { kind := .tx, data := [1] } }.txf.length
        = State.reset.params.fifoDepth := by decide

theorem test_witness_WriteAckPayloadPushes :
    (inFrame 0xAD 1 [1] .csnRise).pending = [.csnRise] ∧ (inFrame 0xAD 1 [1] .csnRise).frOpen = true
      ∧ (inFrame 0xAD 1 [1] .csnRise).frCmd = some 0xAD
      ∧ (inFrame 0xAD 0 [] .csnRise).frIdx = 0 ∧ 32 < (inFrame 0xAD 33 [] .csnRise).frIdx
      ∧ 1 ≤ (inFrame 0xAD 1 [1] .csnRise).frIdx ∧ (inFrame 0xAD 32 [] .csnRise).frIdx ≤ 32
      ∧ (inFrame 0xAD 1 [1] .csnRise).txf.length ≠ (inFrame 0xAD 1 [1] .csnRise).params.fifoDepth
      ∧ { inFrame 0xAD 1 [1] .csnRise with txf := List.replicate 3 { kind := .tx, data := [1] } }.txf.length
        = State.reset.params.fifoDepth := by decide

theorem test_witness_FlushTxEmptiesTheFifo :
    (inFrame 0xE1 0 [] .csnRise).pending = [.csnRise] ∧ (inFrame 0xE1 0 [] .csnRise).frOpen = true
      ∧ (inFrame 0xE1 0 [] .csnRise).frCmd = some 0xE1 ∧ (inFrame 0xE1 0 [] .csnRise).txActive = false
      ∧ { inFrame 0xE1 0 [] .csnRise with txActive := true }.txActive = true := by decide

theorem test_witness_FlushRxEmptiesTheFifo :
    (inFrame 0xE2 0 [] .csnRise).pending = [.csnRise] ∧ (inFrame 0xE2 0 [] .csnRise).frOpen = true
      ∧ (inFrame 0xE2 0 [] .csnRise).frCmd = some 0xE2
      ∧ (placed (.frame [0xE2])).pending = [.frame [0xE2]] ∧ (placed (.frame [0xE2])).frOpen = false
      ∧ 1 ≤ (placed (.frame [0xE2])).params.fifoDepth := by decide

theorem test_witness_NopReturnsStatus :
    (placed (.frame [0xFF])).pending = [.frame [0xFF]] ∧ (placed (.frame [0xFF])).frOpen = false := by decide

theorem test_witness_FifoCommandsKeepFlagsAndLine :
    (∃ t, exec .flushTx (placed (.frame [0xE1])) = .next t) ∧ (∃ t, exec .flushRx (placed (.frame [0xE2])) = .next t)
      ∧ (∃ t, exec .nop (placed (.frame [0xFF])) = .next t) ∧ (∃ t, exec .rRxPayload (placed (.frame [0x61, 0])) = .next t)
      ∧ (∃ t, exec .wTxPayload (placed (.frame [0xA0, 0])) = .next t)
      ∧ ∃ t, exec (.wAckPayload 5) (placed (.frame [0xAD, 0])) = .next t :=
  ⟨⟨_, rfl⟩, ⟨_, rfl⟩, ⟨_, rfl⟩, ⟨_, rfl⟩, ⟨_, rfl⟩, ⟨_, rfl⟩⟩

theorem test_witness_EnableLineSteps :
    (placed .ceHigh).pending = [.ceHigh] ∧ (placed .ceLow).pending = [.ceLow]
      ∧ mode (cfg 0x0B (placed .ceHigh)) = .receiveReady
      ∧ mode { cfg 0x0B (placed .ceLow) with ce := true } = .listening := by decide

theorem test_witness_TxStartCommitsTheHead :
    (let s := { standby .txStart with ce := true };
      s.pending = [.txStart] ∧ s.regs.config.getLsbD 1 = true ∧ s.regs.config.getLsbD 0 = false ∧ s.ce = true
        ∧ s.txActive = false ∧ s.maxRt = false ∧ ∃ e es, s.txf = e :: es ∧ e.kind = .tx)
      ∧ (standby .txStart).ce = false :=
  ⟨⟨rfl, by decide, by decide, rfl, rfl, rfl, _, _, rfl, rfl⟩, rfl⟩

theorem test_witness_CePulseCommitsOrNot :
    (let s := standby .cePulse;
      s.pending = [.cePulse] ∧ s.regs.config.getLsbD 1 = true ∧ s.regs.config.getLsbD 0 = false
        ∧ s.txActive = false ∧ s.maxRt = false ∧ ∃ e es, s.txf = e :: es ∧ e.kind = .tx)
      ∧ { standby .cePulse with maxRt := true }.maxRt = true :=
  ⟨⟨rfl, by decide, by decide, rfl, rfl, _, _, rfl, rfl⟩, rfl⟩

theorem test_witness_RxEventQueuesThePayload :
    (let s := listening (.evRx 0 [0xDE, 0xAD]);
      s.pending = [.evRx 0 [0xDE, 0xAD]] ∧ mode s = .listening ∧ s.regs.enRxaddr.getLsbD 0 = true
        ∧ s.rxf.length < s.params.fifoDepth
        ∧ (if s.regs.feature.getLsbD 2 = true ∧ s.regs.dynpd.getLsbD 0 = true
            then 1 ≤ ([0xDE, 0xAD] : List Byte).length ∧ ([0xDE, 0xAD] : List Byte).length ≤ 32
            else ([0xDE, 0xAD] : List Byte).length = s.regs.rxPw[(0 : Pipe)].toNat ∧ 1 ≤ s.regs.rxPw[(0 : Pipe)].toNat))
      ∧ 6 ≤ 6 ∧ mode (placed (.evRx 0 [1])) ≠ .listening
      ∧ (listening (.evRx 2 [1, 2])).regs.enRxaddr.getLsbD 2 = false
      ∧ { listening (.evRx 0 [1, 2]) with rxf := List.replicate 3 { pipe := 0, data := [1] } }.rxf.length
        = State.reset.params.fifoDepth
      ∧ ([0xDE] : List Byte).length ≠ (listening (.evRx 0 [0xDE])).regs.rxPw[(0 : Pipe)].toNat := by decide

theorem test_witness_TxOkEventCompletes :
    (onAir .evTxOk).pending = [.evTxOk] ∧ (onAir .evTxOk).txActive = true
      ∧ (standby .evTxOk).pending = [.evTxOk] ∧ (standby .evTxOk).txActive = false := by decide

theorem test_witness_TxFailEventKeepsThePayload :
    (onAir .evTxFail).pending = [.evTxFail] ∧ (onAir .evTxFail).txActive = true
      ∧ (onAir .evTxFail).regs.enAa.getLsbD 0 = true ∧ (standby .evTxFail).txActive = false := by decide

theorem test_witness_AckDoneEventRemovesTheOldest :
    (let s := { acking (.evAckDone 1) with
        txf := [{ kind := .ack 0, data := [1] }, { kind := .ack 1, data := [2] }, { kind := .ack 1, data := [3] }] };
      s.pending = [.evAckDone 1] ∧ (1 : Pipe).val = 1 ∧ mode s = .listening ∧ s.regs.feature.getLsbD 1 = true
        ∧ s.txf = [{ kind := .ack 0, data := [1] }] ++ { kind := .ack 1, data := [2] } :: [{ kind := .ack 1, data := [3] }]
        ∧ ∀ x ∈ ([{ kind := .ack 0, data := [1] }] : List TxEntry), x.kind ≠ .ack 1)
      ∧ mode (placed (.evAckDone 1)) ≠ .listening
      ∧ (acking (.evAckDone 0)).pending = [.evAckDone 0]
      ∧ ∀ e ∈ (acking (.evAckDone 0)).txf, ∀ q : Pipe, q.val = 0 → e.kind ≠ .ack q := by decide

theorem test_witness_ResetRestoresTheBlock : (onAir .reset).pending = [.reset] := by decide

theorem test_witness_StepKeepsTheInvariants :
    ∃ t, Inv (onAir .evTxOk) ∧ step (onAir .evTxOk) = .next t := ⟨_, by decide, rfl⟩

theorem test_witness_EdgeExactlyWhenTheLineFalls :
    ∃ t, step (onAir .evTxOk) = .next t ∧ irqN (onAir .evTxOk) = true ∧ irqN t = false := ⟨_, rfl, by decide⟩

theorem test_witness_OnlyEventsAndConfigWritesEmitEdges :
    ∃ t, step (onAir .evTxOk) = .next t ∧ t.edges ≠ (onAir .evTxOk).edges := ⟨_, rfl, by decide⟩

/-- A frame that clears every flag. -/
def allFlags : State := { placed (.frame [0x27, 0x70]) with rxDr := true, txDs := true, maxRt := true }

theorem test_witness_FlagsChangeOnlyByTheirCauses :
    (∃ t, step (listening (.evRx 0 [1, 2])) = .next t ∧ (listening (.evRx 0 [1, 2])).rxDr = false ∧ t.rxDr = true)
      ∧ (∃ t, step (onAir .evTxOk) = .next t ∧ (onAir .evTxOk).txDs = false ∧ t.txDs = true)
      ∧ (∃ t, step (onAir .evTxFail) = .next t ∧ (onAir .evTxFail).maxRt = false ∧ t.maxRt = true)
      ∧ ∃ t, step allFlags = .next t ∧ allFlags.rxDr = true ∧ t.rxDr = false :=
  ⟨⟨_, rfl, by decide⟩, ⟨_, rfl, by decide⟩, ⟨_, rfl, by decide⟩, ⟨_, rfl, by decide⟩⟩

theorem test_witness_RegistersChangeOnlyByWrites :
    ∃ t, step (placed (.frame [0x25, 0x7F])) = .next t ∧ t.regs ≠ (placed (.frame [0x25, 0x7F])).regs :=
  ⟨_, rfl, by decide⟩

theorem test_witness_PowerDownIsLeftOnlyByConfigWrite :
    ∃ t, paramsOk (placed (.frame [0x20, 0x0A])).params = true ∧ step (placed (.frame [0x20, 0x0A])) = .next t
      ∧ mode (placed (.frame [0x20, 0x0A])) = .powerDown ∧ mode t ≠ .powerDown :=
  ⟨_, by decide, rfl, by decide⟩

theorem test_witness_PendingMaxRtBlocksTransmission :
    let s := { standby .cePulse with maxRt := true }
    ∃ t, step s = .next t ∧ s.maxRt = true ∧ s.txActive = false := ⟨_, rfl, rfl, rfl⟩

theorem test_witness_TransmissionEndsOnlyByCompletion :
    ∃ t, step (onAir .evTxFail) = .next t ∧ (onAir .evTxFail).txActive = true ∧ t.txActive = false :=
  ⟨_, rfl, by decide⟩

theorem test_witness_FifosAreFirstInFirstOut :
    ∃ t, step (placed (.frame [0xA0, 0x01])) = .next t := ⟨_, rfl⟩

theorem test_witness_SetChannelClamps :
    (∀ c ∈ [127, 128], ∀ gaps ∈ [[], [2]], ∀ evs ∈ [[], [Action.evTxOk]], gaps.length = evs.length →
      let s := { State.reset with pending := .op (.setChannel c) gaps :: (evs ++ [.reset]) };
      s.params.mapOk = true ∧ held s .rfCh = false ∧ s.frOpen = false ∧ (∀ e ∈ evs, isRadioEvent e = true)
        ∧ s.pending = .op (.setChannel c) gaps :: (evs ++ [.reset]))
      ∧ ([2] : List Nat).length = ([.evTxOk] : List Action).length := by decide

theorem test_witness_SetRfFrequencyFallsBack :
    (∀ f ∈ [2399, 2400, 2525, 2526], let s := placed (.op (.setRfFrequency f) []);
      s.params.mapOk = true ∧ held s .rfCh = false ∧ s.frOpen = false ∧ s.pending = [.op (.setRfFrequency f) []])
      ∧ (2400 ≤ 2525 ∧ 2525 ≤ 2525) ∧ 2399 < 2400 ∧ 2525 < 2526 := by decide

theorem test_witness_SetPayloadSizeClamps :
    ∀ n ∈ [32, 33], let s := placed (.op (.setPayloadSize 5 n) []);
      s.params.mapOk = true ∧ held s (.rxPw 5) = false ∧ s.frOpen = false
        ∧ s.pending = [.op (.setPayloadSize (5 : Pipe).val n) []] := by decide

theorem test_witness_SetPowerUpAndModeKeepsTheRest :
    let s := cfg 0x78 (placed (.op (.setPowerUpAndMode .receiver) []))
    s.params.mapOk = true ∧ s.params.crcForcedByAa = false ∧ s.regs.config.getLsbD 7 = false
      ∧ held s .config = false ∧ s.frOpen = false ∧ s.txActive = false
      ∧ s.pending = [.op (.setPowerUpAndMode .receiver) []] := by decide

theorem test_witness_SetAutoAckPipeTouchesOneBit :
    (∀ q ∈ [0, 5, 6], let s := { State.reset with pending := [.op (.setAutoAckPipe true q) [4], .evTxOk] };
      s.params.mapOk = true ∧ held s .enAa = false ∧ s.regs.enAa &&& 0xC0#8 = 0#8 ∧ s.frOpen = false
        ∧ (∀ a ∈ [Action.evTxOk], isRadioEvent a = true) ∧ ([4] : List Nat).length = [Action.evTxOk].length
        ∧ s.pending = .op (.setAutoAckPipe true q) [4] :: ([.evTxOk] ++ []))
      ∧ 5 ≤ 5 ∧ 5 < 6 := by decide

theorem test_witness_AttachReceivePayloadConfiguresThePipe :
    let s := placed (.op (.attachReceivePayload 2 #v[0xB1, 0xB2, 0xB3, 0xB4, 0xB5] 16) [])
    s.params.mapOk = true ∧ s.rmw = [] ∧ s.regs.enRxaddr &&& 0xC0#8 = 0#8 ∧ s.frOpen = false
      ∧ s.pending = [.op (.attachReceivePayload (2 : Pipe).val #v[0xB1, 0xB2, 0xB3, 0xB4, 0xB5] 16) []] := by decide

theorem test_witness_SendPacketCommitsThePayload :
    let s := cfg 0x0A (placed (.op (.sendPacket [0xAA, 0xBB]) []))
    s.params.mapOk = true ∧ 1 ≤ s.params.fifoDepth ∧ s.frOpen = false ∧ ([0xAA, 0xBB] : List Byte) ≠ [] ∧ s.txf = []
      ∧ s.maxRt = false ∧ mode s = .transmitReady ∧ s.pending = [.op (.sendPacket [0xAA, 0xBB]) []] := by decide

theorem test_witness_ClearInterruptFlagsReleasesTheLine :
    let s := { placed (.op .clearInterruptFlags []) with rxDr := true, txDs := true }
    s.params.mapOk = true ∧ held s .status = false ∧ s.frOpen = false ∧ s.pending = [.op .clearInterruptFlags []]
      ∧ s.params.addrs = RegAddrs.default := by decide

end Sys2Proof.Tests
end

/-! PROOFS of the statements of spec/10_state.md: the derived bits, what a register reads as, the flags, and the
invariants of R44. -/

namespace Sys2Proof.Machine

/-! ### The derived bits (R15, R26, R27, R36, R37) -/

/-- The pipe field of STATUS is `rx_p_no()` (R27). -/
theorem status_pipeField (s : State) : (status s).extractLsb' 1 3 = rxPNo s := by
  ext i hi
  have h0 : ¬1 + i < 1 := by omega
  simp only [BitVec.getElem_extractLsb', status, BitVec.getLsbD_append, h0]
  simp [hi]

/-- Settles O11: bit by bit, the three-bit pipe field as a whole. -/
theorem statusBits : Obligations.StatusBits := by
  unfold Obligations.StatusBits
  intro s
  rw [status_pipeField]
  simp only [status, BitVec.getLsbD_append]
  refine ⟨by simp, by simp, by simp, by simp, fun h => by rw [rxPNo, h], fun e es h => ?_, by simp [txFull]⟩
  rw [rxPNo, h, BitVec.toNat_ofNat]; omega

/-- Settles O12: every bit is a constant or a comparison of a FIFO's length. -/
theorem fifoStatusBits : Obligations.FifoStatusBits := by
  unfold Obligations.FifoStatusBits
  intro s
  simp only [fifoStatus, BitVec.getLsbD_append]
  simp [txFull, txEmpty, rxFull, rxEmpty]

/-- Settles O13: the line is the negation of the disjunction over the three unmasked flags. -/
theorem irqLineFunction : Obligations.IrqLineFunction := by
  unfold Obligations.IrqLineFunction
  intro s
  simp only [irqN, maskRxDr, maskTxDs, maskMaxRt, Bool.not_eq_false', Bool.or_eq_true, Bool.and_eq_true,
    Bool.not_eq_true', or_assoc]

/-! ### What a register reads as -/

/-- A read of CONFIG forces no bit but bit 3 (R21). -/
theorem forcedCrc_getLsbD : ∀ k < 8, k ≠ 3 → (0x08#8).getLsbD k = false := by decide

/-- CONFIG reads as stored, with the bits of EN_CRC set where the CRC is forced (R21, R101). -/
theorem configRead_getLsbD (s : State) (k : Nat) : (configRead s).getLsbD k =
    (s.regs.config.getLsbD k || (s.params.crcForcedByAa && s.regs.enAa != 0#8) && (0x08#8).getLsbD k) := by
  unfold configRead
  cases s.params.crcForcedByAa && s.regs.enAa != 0#8 <;> simp

/-- Settles O15: only CONFIG and the address registers do not read by definition. -/
theorem registerByteValues : Obligations.RegisterByteValues := by
  unfold Obligations.RegisterByteValues
  intro s q
  refine ⟨rfl, rfl, rfl, rfl, rfl, rfl, rfl, rfl, rfl, fun i => ?_, fun i => ?_, fun k hk h3 => ?_, ?_⟩
  · simp [regByte]
  · simp [regByte]
  · simp only [regByte, configRead_getLsbD, forcedCrc_getLsbD k hk h3, Bool.and_false, Bool.or_false]
  · simp only [regByte, configRead_getLsbD]
    simp [bne, beq_eq_decide]

/-! ### The commands' data bytes -/

/-- Every write-class command buffers its data bytes (R13, R82). -/
theorem dataOf_of_isWriteClass {i : Instr} (h : isWriteClass i = true) : dataOf i = bufferData := by
  cases i with
  | wRegister r => rfl
  | wTxPayload => rfl
  | wAckPayload ppp => rfl
  | _ => cases h

/-- A byte in the open frame of a latched command is a data byte (R82). -/
theorem xferStep_some {data : Byte → State → Host.Outcome State Fault Refusal} {s : State} {b m : Byte}
    (ho : s.frOpen = true) (hc : s.frCmd = some b) : xferStep data m s = data m s := by
  simp [xferStep, ho, hc]

/-- Settles O8: a write-class command's data byte is `bufferData`, exchanged in its open frame. -/
theorem writeDataIsBuffered : Obligations.WriteDataIsBuffered := by
  unfold Obligations.WriteDataIsBuffered
  intro s i m c rest hw hwf hp ho hc
  have hres : ∀ b, i ≠ .reserved b := by rintro b rfl; cases hw
  have hack : ∀ ppp, i = .wAckPayload ppp → ppp.toNat < 6 := by
    rintro ppp rfl
    have h5 : ppp ≤ 5#3 := of_decide_eq_true hwf
    rw [BitVec.le_def] at h5
    exact Nat.lt_succ_of_le h5
  rw [exec_eq_runCommand hres hack, dataOf_of_isWriteClass hw, runCommand_xfer hp,
    xferStep_some (s := popAction s) ho hc]
  simp only [bufferData, bufferByte, answerDraw, popAction, hp, List.tail_cons]

/-! ### The invariants of R44, split at the frame latches -/

/-- What `Inv` says of the block outside the frame latches (R44 (a), (b), (c), (e)). -/
structure BlockInv (s : State) : Prop where
  params : paramsOk s.params = true
  fifos : fifosBounded s
  payloads : payloadsSized s
  regs : regsLegal s.regs = true
  transmission : transmissionSound s

theorem inv_iff {s : State} : Inv s ↔ BlockInv s ∧ latchesAgree s ∧ bufferCounted s :=
  ⟨fun ⟨hp, hf, hd, hr, hl, hb, ht⟩ => ⟨⟨hp, hf, hd, hr, ht⟩, hl, hb⟩,
    fun ⟨⟨hp, hf, hd, hr, ht⟩, hl, hb⟩ => ⟨hp, hf, hd, hr, hl, hb, ht⟩⟩

theorem BlockInv.of_busOnly {s t : State} (h : BlockInv s) (hb : busOnly s t) : BlockInv t := by
  rw [hb]; exact { h with }

/-- A legal RX_PW_Pn is at most 32 (R30). -/
theorem rxPw_le_of_regsLegal {g : Regs} (h : regsLegal g = true) (q : Pipe) : g.rxPw[q].toNat ≤ 32 := by
  have hq := (regsLegal_iff g).1 h (.rxPw q)
  simp only [byteLegal, isRxPw, storedByte, Bool.and_eq_true, Bool.not_true, Bool.false_or,
    decide_eq_true_eq, BitVec.le_def] at hq
  exact hq.2

/-- The head of a FIFO that has one stays the head when an entry is queued behind it. -/
theorem headIsTx_pushTx {s : State} (h : headIsTx s = true) (e : TxEntry) : headIsTx (pushTx e s) = true := by
  rcases hf : s.txf with _ | ⟨x, xs⟩
  · simp [headIsTx, hf] at h
  · simpa [headIsTx, hf] using h

/-! ### Commits -/

/-- A queued payload has as many bytes as were counted, 1 to 32, and the FIFO had room (R132, R133). -/
theorem BlockInv.commitPush {s t : State} {k : TxKind} (h : BlockInv s) (hn : s.frBuf.length = s.frIdx)
    (hc : commitPush k s = .next t) : BlockInv t := by
  obtain ⟨h1, h32, hfull, rfl⟩ := commitPush_cases hc
  obtain ⟨htx, hrx⟩ := h.fifos
  refine { h with fifos := ⟨?_, hrx⟩, payloads := ⟨?_, h.payloads.2⟩, transmission := fun ha => ?_ }
  · rw [pushTx_txf, pushTx_params, List.length_append, List.length_singleton]; omega
  · intro e he
    rcases List.mem_append.1 he with he | he
    · exact h.payloads.1 e he
    · rw [List.mem_singleton.1 he]; simp only [hn]; exact ⟨h1, h32⟩
  · obtain ⟨hu, hr, hh⟩ := h.transmission ha
    exact ⟨hu, hr, headIsTx_pushTx hh _⟩

/-- A transmission goes on under a register file with the same CONFIG. -/
theorem BlockInv.setRegs {s : State} {g : Regs} (h : BlockInv s) (hg : regsLegal g = true)
    (hc : s.txActive = true → g.config.getLsbD 1 = pwrUp s ∧ g.config.getLsbD 0 = primRx s) :
    BlockInv { s with regs := g } := by
  refine { h with regs := hg, transmission := fun ha => ?_ }
  obtain ⟨hu, hr, hh⟩ := h.transmission ha
  exact ⟨(hc ha).1.trans hu, (hc ha).2.trans hr, hh⟩

/-- A register write stores legal bytes only, and CONFIG not with another mode during a transmission (R107 to R111). -/
theorem BlockInv.commitWrite {s t : State} {r : Reg} (h : BlockInv s) (hc : commitWrite r s = .next t) :
    BlockInv t := by
  rcases commitWrite_cases hc with ⟨v, -, h7, hm, rfl⟩ | ⟨v, -, rfl⟩ | ⟨v, hr, hv, rfl⟩ | ⟨a, -, rfl⟩
  · exact h.setRegs (regsLegal_storeByte h.regs ((byteLegal_config v).2 h7)) hm
  · exact { h with }
  · exact h.setRegs (regsLegal_storeByte h.regs hv) fun _ => by simp [storeByte_config hr, pwrUp, primRx]
  · exact h.setRegs (regsLegal_storeAddr h.regs) fun _ => by simp [storeAddr_config, pwrUp, primRx]

/-- Every commit keeps the block's invariants, given the buffer a write-class command has counted. -/
theorem BlockInv.commitOf {s t : State} {i : Instr} (h : BlockInv s)
    (hn : isWriteClass i = true → s.frBuf.length = s.frIdx) (hc : commitOf i s = .next t) : BlockInv t := by
  cases i with
  | rRegister r => cases hc; exact h
  | wRegister r => exact h.commitWrite hc
  | rRxPayload =>
      obtain ⟨-, rfl⟩ := commitPop_cases hc
      exact { h with
        fifos := ⟨h.fifos.1, (List.tail_sublist _).length_le.trans h.fifos.2⟩
        payloads := ⟨h.payloads.1, fun e he => h.payloads.2 e (List.mem_of_mem_tail he)⟩ }
  | wTxPayload => exact h.commitPush (hn rfl) hc
  | wAckPayload ppp =>
      simp only [Machine.commitOf] at hc
      split at hc
      · exact h.commitPush (hn rfl) hc
      · cases hc
  | flushTx =>
      obtain ⟨hi, rfl⟩ := commitFlushTx_cases hc
      exact { h with
        fifos := ⟨Nat.zero_le _, h.fifos.2⟩
        payloads := ⟨by simp, h.payloads.2⟩
        transmission := fun ha => by simp [hi] at ha }
  | flushRx =>
      cases hc
      exact { h with fifos := ⟨h.fifos.1, Nat.zero_le _⟩, payloads := ⟨h.payloads.1, by simp⟩ }
  | nop => cases hc; exact h
  | reserved b => cases hc

/-! ### The bus steps of a frame -/

theorem inv_settleIrq {v t : State} (h : Inv t) : Inv (settleIrq v t) := by
  rw [settleIrq_cases]; exact h

theorem inv_openFrame {s : State} (h : Inv s) : Inv (openFrame s) := by
  obtain ⟨hb, -, -⟩ := inv_iff.1 h
  exact inv_iff.2 ⟨hb.of_busOnly (busOnly_openFrame s), by simp [latchesAgree], by simp [bufferCounted]⟩

/-- A closed frame has empty latches, whatever was in them (R83). -/
theorem inv_closeFrame {s : State} (h : BlockInv s) : Inv (closeFrame s) :=
  inv_iff.2 ⟨h.of_busOnly (busOnly_closeFrame s), by simp [latchesAgree], by simp [bufferCounted]⟩

theorem inv_commandByte {s : State} (h : Inv s) (ho : s.frOpen = true) (hc : s.frCmd = none) (m : Byte) :
    Inv (commandByte m s) := by
  obtain ⟨hb, ⟨hcsn, -⟩, hcount, -⟩ := inv_iff.1 h
  obtain ⟨hidx, hbuf⟩ := hcount hc
  exact inv_iff.2 ⟨hb.of_busOnly (busOnly_commandByte m s), ⟨hcsn, by simp [ho]⟩, by simp, by simp [hidx, hbuf]⟩

/-- A data byte of the latched command is counted, and buffered where the command is write-class (R12, R13). -/
theorem inv_dataOf {s t : State} {b m : Byte} (h : Inv s) (ho : s.frOpen = true) (hc : s.frCmd = some b)
    (hd : dataOf (decodeByte s.params b) m s = .next t) : Inv t := by
  obtain ⟨hb, ⟨hcsn, -⟩, -, hcount⟩ := inv_iff.1 h
  obtain ⟨hbus, hto, htcsn, htc, -, -⟩ := dataOf_sound _ m s t hd
  obtain ⟨hp, -⟩ := busOnly_fields hbus
  refine inv_iff.2 ⟨hb.of_busOnly hbus, ⟨by rw [hto, htcsn, hcsn], by simp [hto, ho]⟩, by simp [htc, hc], ?_⟩
  rw [htc, hc, hp]
  rintro b' hb' hw
  obtain rfl := Option.mem_some_iff.1 hb'
  rw [dataOf_of_isWriteClass hw] at hd
  cases hd
  simpa using hcount b hc hw

theorem inv_dataPhase {b : Byte} : ∀ (ms : List Byte) {s t : State}, Inv s → s.frOpen = true → s.frCmd = some b →
    dataPhase (dataOf (decodeByte s.params b)) ms s = .next t → Inv t
  | [], _, _, h, _, _, hd => by cases hd; exact h
  | m :: ms, s, t, h, ho, hc, hd => by
      obtain ⟨u, hu, hd⟩ := andThen_eq_next.1 hd
      obtain ⟨hbus, huo, -, huc, -, -⟩ := dataOf_sound _ m s u hu
      rw [← (busOnly_fields hbus).1] at hd
      exact inv_dataPhase ms (inv_dataOf h ho hc hu) (huo.trans ho) (huc.trans hc) hd

/-- The end of a frame: the latched command's commit and the closing (R83). -/
theorem inv_commit {v s t : State} {b : Byte} (h : Inv s) (hc : s.frCmd = some b)
    (hu : commitOf (decodeByte s.params b) s = .next t) : Inv (settleIrq v (closeFrame t)) := by
  obtain ⟨hb, -, -, hcount⟩ := inv_iff.1 h
  exact inv_settleIrq (inv_closeFrame (hb.commitOf (hcount b hc) hu))

/-- The command byte of a bus step: that of the frame placed, or the one latched (R82, R83, R93). -/
def commandByteOf (s : State) : Option Byte :=
  match s.pending with
  | .frame (b :: _) :: _ => some b
  | _                    => s.frCmd

/-- A bus step done as its own command does it keeps the invariants. -/
theorem exec_keeps_inv {i : Instr} {s t : State} (h : Inv s) (hi : ∀ b ∈ commandByteOf s, i = decodeByte s.params b)
    (he : exec i s = .next t) : Inv t := by
  have hpop : Inv (popAction s) := h
  rcases runCommand_cases (dataOf_sound i) (exec_next_runs he) with
    ⟨m, rest, -, ho, hc, rfl⟩ | ⟨m, rest, b, hp, ho, hc, hd⟩ | ⟨rest, -, -, -, rfl⟩
      | ⟨rest, b, u, hp, -, hc, hu, rfl⟩ | ⟨rest, b, ds, v, u, hp, -, hv, hu, rfl⟩
  · exact inv_commandByte hpop ho hc m
  · obtain rfl := hi b (by simp [commandByteOf, hp, hc])
    exact inv_dataOf hpop ho hc hd
  · exact inv_closeFrame (inv_iff.1 hpop).1
  · obtain rfl := hi b (by simp [commandByteOf, hp, hc])
    exact inv_commit hpop hc hu
  · obtain rfl := hi b (by simp [commandByteOf, hp])
    have hcmd : Inv (commandByte b (openFrame (popAction s))) := inv_commandByte (inv_openFrame hpop) rfl rfl b
    obtain ⟨hbus, -, -, hvc, -⟩ := dataPhase_sound (dataOf_sound _) ds _ v hv
    rw [show s.params = v.params from (busOnly_fields hbus).1.symm] at hu
    exact inv_commit (inv_dataPhase ds hcmd rfl rfl hv) hvc hu

theorem stepXfer_keeps_inv {s t : State} {m x : Byte} {rest : List Action} (h : Inv s)
    (hp : s.pending = .xfer x :: rest) (hs : stepXfer m s = .next t) : Inv t := by
  unfold stepXfer at hs
  split at hs
  · rename_i b hc; exact exec_keeps_inv h (by simp [commandByteOf, hp, hc]) hs
  · rename_i hc; exact exec_keeps_inv h (by simp [commandByteOf, hp, hc]) (sendCommand_next hs)

theorem stepCsnRise_keeps_inv {s t : State} {rest : List Action} (h : Inv s)
    (hp : s.pending = .csnRise :: rest) (hs : stepCsnRise s = .next t) : Inv t := by
  unfold stepCsnRise at hs
  split at hs
  · rename_i b hc; exact exec_keeps_inv h (by simp [commandByteOf, hp, hc]) hs
  · split at hs
    · cases hs; exact inv_closeFrame (inv_iff.1 (show Inv (popAction s) from h)).1
    · cases hs

theorem stepFrame_keeps_inv {s t : State} {bs : List Byte} {rest : List Action} (h : Inv s)
    (hp : s.pending = .frame bs :: rest) (hs : stepFrame bs s = .next t) : Inv t := by
  cases bs with
  | nil =>
      simp only [stepFrame, decodeFrame] at hs
      split at hs
      · cases hs
      · cases hs
        exact inv_closeFrame (inv_iff.1 (inv_openFrame (show Inv (popAction s) from h))).1
  | cons b ds =>
      rw [stepFrame_cons] at hs
      exact exec_keeps_inv h (by simp [commandByteOf, hp]) (sendCommand_next hs)

/-! ### The block's own step and the radio's events -/

theorem inv_txStart {s : State} (h : Inv s) : Inv (txStart s) := by
  obtain ⟨hb, hl, hc⟩ := inv_iff.1 h
  rw [txStart_eq]
  refine inv_iff.2 ⟨{ hb with transmission := fun ha => ?_ }, hl, hc⟩
  rcases Bool.or_eq_true_iff.1 ha with ha | ha
  · exact hb.transmission ha
  · obtain ⟨hu, hr, -, -, -, e, es, hf, hk⟩ := (txStartEnabled_iff s).1 ha
    exact ⟨hu, hr, by simp [headIsTx, hf, hk]⟩

theorem inv_evRx {s : State} (h : Inv s) (p : Nat) (d : List Byte) : Inv (evRx p d s) := by
  obtain ⟨hb, hl, hc⟩ := inv_iff.1 h
  rcases evRx_cases p d s (rxPw_le_of_regsLegal hb.regs) with he | ⟨q, -, hroom, h1, h32, he⟩ <;> rw [he]
  · exact h
  · refine inv_settleIrq (inv_iff.2 ⟨{ hb with fifos := ⟨hb.fifos.1, ?_⟩, payloads := ⟨hb.payloads.1, ?_⟩ }, hl, hc⟩)
    · simpa using hroom
    · intro e he
      rcases List.mem_append.1 he with he | he
      · exact hb.payloads.2 e he
      · rw [List.mem_singleton.1 he]; exact ⟨h1, h32⟩

theorem inv_evTxOk {s : State} (h : Inv s) : Inv (evTxOk s) := by
  obtain ⟨hb, hl, hc⟩ := inv_iff.1 h
  rcases evTxOk_cases s with he | ⟨-, he⟩ <;> rw [he]
  · exact h
  · exact inv_settleIrq (inv_iff.2 ⟨{ hb with
      fifos := ⟨(List.tail_sublist _).length_le.trans hb.fifos.1, hb.fifos.2⟩
      payloads := ⟨fun e he => hb.payloads.1 e (List.mem_of_mem_tail he), hb.payloads.2⟩
      transmission := fun ha => nomatch ha }, hl, hc⟩)

theorem inv_evTxFail {s : State} (h : Inv s) : Inv (evTxFail s) := by
  obtain ⟨hb, hl, hc⟩ := inv_iff.1 h
  rcases evTxFail_cases s with he | ⟨-, he⟩ <;> rw [he]
  · exact h
  · exact inv_settleIrq (inv_iff.2 ⟨{ hb with transmission := fun ha => nomatch ha }, hl, hc⟩)

/-- A listening block transmits nothing. -/
theorem BlockInv.not_txActive_of_listening {s : State} (h : BlockInv s) (hm : mode s = .listening) :
    s.txActive = false := by
  by_contra ha
  obtain ⟨hu, hr, -⟩ := h.transmission (Bool.eq_true_of_not_eq_false ha)
  rw [mode_of_primTx hu hr] at hm
  split at hm <;> cases hm

theorem inv_evAckDone {s : State} (h : Inv s) (p : Nat) : Inv (evAckDone p s) := by
  obtain ⟨hb, hl, hc⟩ := inv_iff.1 h
  rcases evAckDone_cases p s with he | ⟨q, pre, post, e, -, hm, hf, -, -, he⟩ <;> rw [he]
  · exact h
  · have hsub : (pre ++ post).Sublist s.txf := by simp [hf]
    exact inv_settleIrq (inv_iff.2 ⟨{ hb with
      fifos := ⟨hsub.length_le.trans hb.fifos.1, hb.fifos.2⟩
      payloads := ⟨fun e he => hb.payloads.1 e (hsub.subset he), hb.payloads.2⟩
      transmission := fun ha => by simp [hb.not_txActive_of_listening hm] at ha }, hl, hc⟩)

theorem paramsOk_resetRegs {p : Params} (h : paramsOk p = true) : regsLegal p.resetRegs = true := by
  simp only [paramsOk, Bool.and_eq_true] at h
  obtain ⟨⟨⟨⟨⟨_, hr⟩, _⟩, _⟩, _⟩, _⟩ := h
  exact hr

/-- Reset establishes the invariants from every state with admissible parameters (R260, R261). -/
theorem inv_resetBlock {s : State} (h : paramsOk s.params = true) : Inv (resetBlock s) :=
  inv_iff.2 ⟨{
    params := h
    fifos := ⟨Nat.zero_le _, Nat.zero_le _⟩
    payloads := by simp [payloadsSized, resetBlock]
    regs := paramsOk_resetRegs h
    transmission := fun ha => nomatch ha }, by simp [latchesAgree, resetBlock], by simp [bufferCounted, resetBlock]⟩

/-- Settles O43: the state after reset is what the supply's reset makes of it, under admissible parameters. -/
theorem resetMeetsTheInvariants : Obligations.ResetMeetsTheInvariants :=
  inv_resetBlock (s := State.reset) (by decide)

/-! ### Every step -/

/-- Settles O44, by the step at the head of `pending`: a bus step runs its own command, whose commit relies on the
counted buffer; the block's and the radio's steps have a lemma each; every other step leaves the block alone. The
case split is made here and not by `step_cases`, which says nothing of the frame latches. -/
theorem stepKeepsTheInvariants : Obligations.StepKeepsTheInvariants := by
  unfold Obligations.StepKeepsTheInvariants
  intro s t hs h
  have hpop : Inv (popAction s) := hs
  unfold step at h
  rcases hp : s.pending with _ | ⟨a, rest⟩ <;> rw [hp] at h
  · cases h; exact hs
  cases a with
  | csnFall =>
      simp only [stepCsnFall] at h
      split at h <;> cases h
      exact inv_openFrame hpop
  | xfer m => exact stepXfer_keeps_inv hs hp h
  | csnRise => exact stepCsnRise_keeps_inv hs hp h
  | frame bs => exact stepFrame_keeps_inv hs hp h
  | ceHigh => cases h; exact hs
  | ceLow => cases h; exact hs
  | cePulse => cases h; exact inv_txStart (s := ceHigh (popAction s)) hs
  | txStart => cases h; exact inv_txStart hpop
  | evRx p d => cases h; exact inv_evRx hpop p d
  | evTxOk => cases h; exact inv_evTxOk hpop
  | evTxFail => cases h; exact inv_evTxFail hpop
  | evAckDone p => cases h; exact inv_evAckDone hpop p
  | reset => cases h; exact inv_resetBlock (s := popAction s) hs.1
  | op o gaps =>
      simp only [stepOp] at h
      split at h <;> cases h
      exact hs
  | keep r =>
      simp only [stepKeep] at h
      split at h <;> cases h
      exact hs
  | writeBack r keep bits =>
      simp only [stepWriteBack] at h
      split at h
      · exact stepFrame_keeps_inv (s := { release r s with pending := _ }) hs rfl h
      · cases h
  | backCmd r =>
      refine exec_keeps_inv (s := { s with pending := .xfer _ :: _ }) hs ?_ h
      rintro b (hb : s.frCmd = some b)
      rw [hb]; rfl
  | backData r keep bits =>
      simp only [stepBackData] at h
      split at h
      · exact stepXfer_keeps_inv (s := { release r s with pending := _ }) hs rfl h
      · cases h
  | wait d => cases h; exact hs
  | acquire =>
      simp only [stepAcquire] at h
      split at h <;> cases h
      exact hs
  | cache w => cases h; exact hs
  | ret r => cases h; exact hs

/-! ### The flags (R19) -/

/-- The three flags are as they were. -/
abbrev sameFlags (s t : State) : Prop := t.rxDr = s.rxDr ∧ t.txDs = s.txDs ∧ t.maxRt = s.maxRt

/-- The only commit that touches a flag is that of a write of STATUS, which clears (R108). -/
theorem commitOf_flags {i : Instr} {s t : State} (h : commitOf i s = .next t) :
    sameFlags s t ∨ i = .wRegister .status ∧ ∃ v, t = clearFlags v s := by
  cases i with
  | rRegister r => cases h; exact .inl ⟨rfl, rfl, rfl⟩
  | wRegister r =>
      rcases commitWrite_cases h with ⟨v, -, -, -, rfl⟩ | ⟨v, rfl, rfl⟩ | ⟨v, -, -, rfl⟩ | ⟨a, -, rfl⟩
      · exact .inl ⟨rfl, rfl, rfl⟩
      · exact .inr ⟨rfl, v, rfl⟩
      · exact .inl ⟨rfl, rfl, rfl⟩
      · exact .inl ⟨rfl, rfl, rfl⟩
  | rRxPayload => obtain ⟨-, rfl⟩ := commitPop_cases h; exact .inl ⟨rfl, rfl, rfl⟩
  | wTxPayload => obtain ⟨-, -, -, rfl⟩ := commitPush_cases h; exact .inl ⟨rfl, rfl, rfl⟩
  | wAckPayload ppp =>
      simp only [commitOf] at h
      split at h
      · obtain ⟨-, -, -, rfl⟩ := commitPush_cases h; exact .inl ⟨rfl, rfl, rfl⟩
      · cases h
  | flushTx => obtain ⟨-, rfl⟩ := commitFlushTx_cases h; exact .inl ⟨rfl, rfl, rfl⟩
  | flushRx => cases h; exact .inl ⟨rfl, rfl, rfl⟩
  | nop => cases h; exact .inl ⟨rfl, rfl, rfl⟩
  | reserved b => cases h

/-- What a step does to the three flags: nothing; clear some by the end of a write of STATUS; set one by its radio
event; or clear them all by reset (R19). -/
theorem step_flags {s t : State} (h : step s = .next t) :
    sameFlags s t
    ∨ (endsFrameOf s (.wRegister .status) ∧ (t.rxDr = true → s.rxDr = true) ∧ (t.txDs = true → s.txDs = true)
        ∧ (t.maxRt = true → s.maxRt = true))
    ∨ ((∃ p d rest, s.pending = .evRx p d :: rest) ∧ t.rxDr = true ∧ t.txDs = s.txDs ∧ t.maxRt = s.maxRt)
    ∨ (((∃ rest, s.pending = .evTxOk :: rest) ∨ ∃ p rest, s.pending = .evAckDone p :: rest)
        ∧ t.rxDr = s.rxDr ∧ t.txDs = true ∧ t.maxRt = s.maxRt)
    ∨ ((∃ rest, s.pending = .evTxFail :: rest) ∧ t.rxDr = s.rxDr ∧ t.txDs = s.txDs ∧ t.maxRt = true)
    ∨ (∃ rest, s.pending = .reset :: rest) ∧ t.rxDr = false ∧ t.txDs = false ∧ t.maxRt = false := by
  rcases step_cases h with hb | ⟨i, v, u, hb, hu, rfl, he⟩ | ⟨w, rest, -, rfl⟩ | ⟨r, rest, -, rfl⟩
    | ⟨rest, -, rfl⟩ | ⟨rest, -, rfl⟩ | ⟨rest, -, rfl⟩ | ⟨rest, -, rfl⟩ | ⟨p, d, rest, hp, rfl⟩
    | ⟨rest, hp, rfl⟩ | ⟨rest, hp, rfl⟩ | ⟨p, rest, hp, rfl⟩ | ⟨rest, hp, rfl⟩
  · obtain ⟨-, -, -, -, -, h1, h2, h3, -⟩ := busOnly_fields hb
    exact .inl ⟨h1, h2, h3⟩
  · obtain ⟨-, -, -, -, -, h1, h2, h3, -⟩ := busOnly_fields hb
    rcases commitOf_flags hu with ⟨k1, k2, k3⟩ | ⟨rfl, x, rfl⟩
    · exact .inl (by simp [sameFlags, *])
    · exact .inr (.inl ⟨he, by simp +contextual [clearFlags, h1, h2, h3]⟩)
  · exact .inl ⟨rfl, rfl, rfl⟩
  · exact .inl ⟨rfl, rfl, rfl⟩
  · exact .inl ⟨rfl, rfl, rfl⟩
  · exact .inl ⟨rfl, rfl, rfl⟩
  · rw [cePulse_eq]; exact .inl ⟨rfl, rfl, rfl⟩
  · rw [txStart_eq]; exact .inl ⟨rfl, rfl, rfl⟩
  · rcases evRx_shape p d (popAction s) with he | ⟨_, he⟩ <;> rw [he]
    · exact .inl ⟨rfl, rfl, rfl⟩
    · exact .inr (.inr (.inl ⟨⟨p, d, rest, hp⟩, by simp⟩))
  · rcases evTxOk_cases (popAction s) with he | ⟨-, he⟩ <;> rw [he]
    · exact .inl ⟨rfl, rfl, rfl⟩
    · exact .inr (.inr (.inr (.inl ⟨.inl ⟨rest, hp⟩, by simp⟩)))
  · rcases evTxFail_cases (popAction s) with he | ⟨-, he⟩ <;> rw [he]
    · exact .inl ⟨rfl, rfl, rfl⟩
    · exact .inr (.inr (.inr (.inr (.inl ⟨⟨rest, hp⟩, by simp⟩))))
  · rcases evAckDone_cases p (popAction s) with he | ⟨_, _, _, _, _, _, _, _, _, he⟩ <;> rw [he]
    · exact .inl ⟨rfl, rfl, rfl⟩
    · exact .inr (.inr (.inr (.inl ⟨.inr ⟨p, rest, hp⟩, by simp⟩)))
  · exact .inr (.inr (.inr (.inr (.inr ⟨⟨rest, hp⟩, rfl, rfl, rfl⟩))))

/-- Settles O47, by the causes `step_flags` lists. -/
theorem flagsChangeOnlyByTheirCauses : Obligations.FlagsChangeOnlyByTheirCauses := by
  unfold Obligations.FlagsChangeOnlyByTheirCauses
  intro s t h
  rcases step_flags h with ⟨h1, h2, h3⟩ | ⟨he, h1, h2, h3⟩ | ⟨hp, h1, h2, h3⟩ | ⟨hp, h1, h2, h3⟩
    | ⟨hp, h1, h2, h3⟩ | ⟨hp, h1, h2, h3⟩
  · simp +contextual [h1, h2, h3]
  · refine ⟨fun a b => ?_, fun a b => ?_, fun a b => ?_, fun _ => .inl he⟩
    · simp [h1 b] at a
    · simp [h2 b] at a
    · simp [h3 b] at a
  · simp +contextual [hp, h1, h2, h3]
  · simp +contextual [hp, h1, h2, h3]
  · simp +contextual [hp, h1, h2, h3]
  · simp [hp, h1, h2, h3]

end Sys2Proof.Machine

/-! PROOFS of the statements of spec/20_memory.md: what is written to an address register is read back, and who writes
the register file. -/

namespace Sys2Proof.Machine

/-! ### Whole read frames (R93, R100) -/

/-- A read frame inside the width closes with STATUS and the register's leading bytes as its reply (R100, R102). -/
theorem frameStep_readData_within {s : State} {r : Reg} {ds : List Byte} (ho : s.frOpen = false)
    (hn : ds.length ≤ regWidth r) (b : Byte) :
    frameStep (readData r) commitNothing b ds s = .next { closeFrame s with
      reply := status s :: memRead s r ds.length } := by
  have hr : regByte (commandByte b (openFrame s)) r = regByte s r :=
    funext (busOnly_regByte (busOnly_trans (busOnly_openFrame s) (busOnly_commandByte b _)) r)
  have hs : status (openFrame s) = status s := busOnly_status (busOnly_openFrame s)
  rw [frameStep, if_neg (by simp [ho]), dataPhase_readData_within r ds _ (by simpa using hn), andThen_next,
    riseStep_some (b := b) rfl rfl, commitNothing, andThen_next, settleIrq_of_irqN_eq (by rfl)]
  simp only [hr, hs, commandByte_reply, openFrame_reply, commandByte_frIdx, openFrame_frIdx, Nat.zero_add]
  rfl

/-- The read frame of a register that is not held, inside its width (R100, R102). -/
theorem step_readFrame {s : State} {r : Reg} {ds : List Byte} {rest : List Action}
    (hm : s.params.mapOk = true) (ho : s.frOpen = false) (hh : held s r = false) (hn : ds.length ≤ regWidth r)
    (hp : s.pending = .frame (encodeByte s.params (.rRegister r) :: ds) :: rest) :
    step s = .next { closeFrame (popAction s) with reply := status s :: memRead s r ds.length } := by
  simp only [step, hp, stepFrame_cons]
  rw [decodeByte_encode_rRegister hm, sendCommand_of_regOf rfl hh]
  exact (runCommand_frame hp).trans (frameStep_readData_within (s := popAction s) ho hn _)

/-! ### Address registers (R62, R111) -/

/-- The five bytes of an address, indexed one by one, are its list. -/
theorem map_getD_toList (a : Address) : (List.range 5).map (fun i => a.toList.getD i 0) = a.toList := by
  refine List.ext_getElem (by simp) fun i hi _ => ?_
  have : i < 5 := by simpa using hi
  simp [this]

/-- An address register reads as the bytes stored in it (R62, R111). -/
theorem memRead_of_storeAddr {s : State} {r : Reg} {a : Address} {g : Regs} (hr : regWidth r = 5)
    (hg : s.regs = storeAddr r a g) : memRead s r 5 = a.toList := by
  rw [← map_getD_toList a, memRead]
  refine List.map_congr_left fun i _ => ?_
  cases r with
  | rxAddr q => simp [regByte, hg, storeAddr]
  | txAddr => simp [regByte, hg, storeAddr]
  | _ => cases hr

/-- Settles O24: the write frame stores the address, the read frame returns what is stored; STATUS does not depend on
the register file. -/
theorem addressRegisterRoundTrip : Obligations.AddressRegisterRoundTrip := by
  unfold Obligations.AddressRegisterRoundTrip
  intro s r a fill rest hm hh hr ho hf hp
  have hfill : fill.length ≤ regWidth r := (hf.trans hr.symm).le
  have hwrite := runSteps_next (step_writeAddrFrame hm ho hh hr hp) 1
  refine ⟨_, hwrite.trans (runSteps_next (step_readFrame ?_ ?_ ?_ hfill rfl) 0), ?_, rfl⟩
  · exact hm
  · rfl
  · exact hh
  · rw [hf]
    exact congrArg (status s :: ·) (memRead_of_storeAddr hr rfl)

/-! ### Who writes the register file (R71, R169) -/

/-- The only commit that touches a stored register is that of a register write. -/
theorem commitOf_regs {i : Instr} {s t : State} (h : commitOf i s = .next t) :
    t.regs = s.regs ∨ ∃ r, i = .wRegister r := by
  cases i with
  | rRegister r => cases h; exact .inl rfl
  | wRegister r => exact .inr ⟨r, rfl⟩
  | rRxPayload => obtain ⟨-, rfl⟩ := commitPop_cases h; exact .inl rfl
  | wTxPayload => obtain ⟨-, -, -, rfl⟩ := commitPush_cases h; exact .inl rfl
  | wAckPayload ppp =>
      simp only [commitOf] at h
      split at h
      · obtain ⟨-, -, -, rfl⟩ := commitPush_cases h; exact .inl rfl
      · cases h
  | flushTx => obtain ⟨-, rfl⟩ := commitFlushTx_cases h; exact .inl rfl
  | flushRx => cases h; exact .inl rfl
  | nop => cases h; exact .inl rfl
  | reserved b => cases h

/-- No radio event writes a register (R169). -/
theorem step_radioEvent_regs {s t : State} {e : Action} {rest : List Action} (he : isRadioEvent e = true)
    (hp : s.pending = e :: rest) (h : step s = .next t) : t.regs = s.regs := by
  obtain ⟨u, hu, -, hr⟩ := step_radioEvent he hp
  rw [h] at hu
  cases hu
  rw [hr]

/-- Settles O48, along the steps `step_cases` lists: a bus step before a commit, the host's own bookkeeping, the enable
line, the block's own step and the radio leave the registers alone; a commit writes them only where it is a register
write's. -/
theorem registersChangeOnlyByWrites : Obligations.RegistersChangeOnlyByWrites := by
  unfold Obligations.RegistersChangeOnlyByWrites
  intro s t h hne
  rcases step_cases h with hb | ⟨i, v, u, hb, hu, rfl, he⟩ | ⟨w, rest, -, rfl⟩ | ⟨r, rest, -, rfl⟩
    | ⟨rest, -, rfl⟩ | ⟨rest, -, rfl⟩ | ⟨rest, -, rfl⟩ | ⟨rest, -, rfl⟩ | ⟨p, d, rest, hp, -⟩
    | ⟨rest, hp, -⟩ | ⟨rest, hp, -⟩ | ⟨p, rest, hp, -⟩ | ⟨rest, hp, -⟩
  · exact absurd (by rw [hb]) hne
  · rcases commitOf_regs hu with hr | ⟨r, rfl⟩
    · exact absurd (by rw [settleIrq_regs, closeFrame_regs, hr, hb]) hne
    · exact .inl ⟨r, he⟩
  · exact absurd rfl hne
  · exact absurd rfl hne
  · exact absurd rfl hne
  · exact absurd rfl hne
  · exact absurd (by rw [cePulse_eq]; rfl) hne
  · exact absurd (by rw [txStart_eq]; rfl) hne
  · exact absurd (step_radioEvent_regs rfl hp h) hne
  · exact absurd (step_radioEvent_regs rfl hp h) hne
  · exact absurd (step_radioEvent_regs rfl hp h) hne
  · exact absurd (step_radioEvent_regs rfl hp h) hne
  · exact .inr ⟨rest, hp⟩

end Sys2Proof.Machine

/-! PROOFS of the statements of spec/30_encoding.md: the decoder and the encoder, the command a bus step runs, the data
bytes and whole frames of the commands that write nothing. -/

namespace Sys2Proof

/-! ### Decoding (R84 to R91) -/

/-- A byte with no defined command decodes to the reserved command of itself (R90). -/
theorem decodeByte_of_undefined {p : Params} {b : Byte} (h : isDefinedByte p b = false) :
    decodeByte p b = .reserved b := by
  cases hr : isRegByte b with
  | true =>
      simp only [isDefinedByte, hr, ↓reduceIte, Option.isSome_eq_false_iff, Option.isNone_iff_eq_none] at h
      rcases (isRegByte_iff b).1 hr with ho | ho
      · rw [decodeByte_read ho, h]; rfl
      · rw [decodeByte_write ho, h]; rfl
  | false =>
      simp only [isDefinedByte, hr, Bool.false_eq_true, ↓reduceIte, Bool.or_eq_false_iff] at h
      obtain ⟨⟨⟨⟨⟨h1, h2⟩, h3⟩, h4⟩, h5⟩, h6⟩ := h
      simp [decodeByte_other hr, h1, h2, h3, h4, h5, h6]

/-- What a byte can decode to, and the row of the opcode map that says so (R88, R89). -/
theorem decodeByte_cases (p : Params) (b : Byte) :
    (∃ r, b.extractLsb' 5 3 = 0b000#3 ∧ p.regAt (b.extractLsb' 0 5) = some r ∧ decodeByte p b = .rRegister r)
    ∨ (∃ r, b.extractLsb' 5 3 = 0b001#3 ∧ p.regAt (b.extractLsb' 0 5) = some r ∧ decodeByte p b = .wRegister r)
    ∨ (b = p.opcRRxPayload ∧ decodeByte p b = .rRxPayload)
    ∨ (b = p.opcWTxPayload ∧ decodeByte p b = .wTxPayload)
    ∨ (isAckByte p b = true ∧ decodeByte p b = .wAckPayload (b.extractLsb' 0 3))
    ∨ (b = p.opcFlushTx ∧ decodeByte p b = .flushTx)
    ∨ (b = p.opcFlushRx ∧ decodeByte p b = .flushRx)
    ∨ (b = p.opcNop ∧ decodeByte p b = .nop)
    ∨ (isDefinedByte p b = false ∧ decodeByte p b = .reserved b) := by
  cases hd : isDefinedByte p b with
  | false => simp [decodeByte_of_undefined hd]
  | true =>
    cases hr : isRegByte b with
    | true =>
        simp only [isDefinedByte, hr, ↓reduceIte] at hd
        obtain ⟨r, h⟩ := Option.isSome_iff_exists.1 hd
        rcases (isRegByte_iff b).1 hr with ho | ho
        · exact .inl ⟨r, ho, h, by rw [decodeByte_read ho, h]; rfl⟩
        · exact .inr (.inl ⟨r, ho, h, by rw [decodeByte_write ho, h]; rfl⟩)
    | false =>
        refine .inr (.inr ?_)
        simp only [isDefinedByte, hr, Bool.false_eq_true, ↓reduceIte, Bool.or_eq_true, beq_iff_eq] at hd
        rw [decodeByte_other hr]
        simp only [beq_iff_eq]
        split_ifs with h1 h2 h3 h4 h5 h6
        · exact .inl ⟨h1, rfl⟩
        · exact .inr (.inl ⟨h2, rfl⟩)
        · exact .inr (.inr (.inl ⟨h3, rfl⟩))
        · exact .inr (.inr (.inr (.inl ⟨h4, rfl⟩)))
        · exact .inr (.inr (.inr (.inr (.inl ⟨h5, rfl⟩))))
        · exact .inr (.inr (.inr (.inr (.inr (.inl ⟨h6, rfl⟩)))))
        · exact absurd hd (by simp [h1, h2, h3, h4, h5, h6])

/-- A byte decodes to a well-formed command, whatever the parameters (R86, R90). -/
theorem decodeByte_wf (p : Params) (b : Byte) : (decodeByte p b).wf p = true := by
  rcases decodeByte_cases p b with ⟨r, -, -, h⟩ | ⟨r, -, -, h⟩ | ⟨-, h⟩ | ⟨-, h⟩ | ⟨ha, h⟩ | ⟨-, h⟩ | ⟨-, h⟩ | ⟨-, h⟩
    | ⟨hu, h⟩ <;> rw [h]
  · rfl
  · rfl
  · rfl
  · rfl
  · exact (Bool.and_eq_true_iff.1 ha).2
  · rfl
  · rfl
  · rfl
  · simp [Instr.wf, hu]

/-- Settles O3, row by row of the opcode map: the operand taken from the byte is put back where it was. -/
theorem encodeOfDecodeIsIdentity : Obligations.EncodeOfDecodeIsIdentity := by
  unfold Obligations.EncodeOfDecodeIsIdentity
  intro p b hm
  obtain ⟨-, -, -, hbase, -⟩ := Params.mapOk_parts hm
  refine ⟨decodeByte_wf p b, ?_⟩
  rcases decodeByte_cases p b with ⟨r, ho, hr, h⟩ | ⟨r, ho, hr, h⟩ | ⟨hb, h⟩ | ⟨hb, h⟩ | ⟨ha, h⟩ | ⟨hb, h⟩ | ⟨hb, h⟩
    | ⟨hb, h⟩ | ⟨-, h⟩ <;> rw [h, encodeByte]
  · rw [Params.addrOf_of_regAt hr, read_of_fields b ho]
  · rw [Params.addrOf_of_regAt hr, write_of_fields b ho]
  · exact hb.symm
  · exact hb.symm
  · exact ack_of_fields _ b hbase (beq_iff_eq.1 (Bool.and_eq_true_iff.1 ha).1)
  · exact hb.symm
  · exact hb.symm
  · exact hb.symm

/-- The byte of W_ACK_PAYLOAD for a pipe 0 to 5 is in the acknowledge block and in no register format (R86, D2). -/
theorem isAckByte_encode {p : Params} {ppp : BitVec 3} (hm : p.mapOk = true) (hp : ppp ≤ 5#3) :
    isAckByte p (encodeByte p (.wAckPayload ppp)) = true
      ∧ isRegByte (encodeByte p (.wAckPayload ppp)) = false := by
  obtain ⟨-, -, hreg, hbase, -⟩ := Params.mapOk_parts hm
  refine ⟨?_, ?_⟩
  · simp only [isAckByte, encodeByte, ackByte_base, ackByte_pipe _ _ hbase, beq_self_eq_true, Bool.true_and]
    exact decide_eq_true hp
  · exact (isRegByte_congr (ackByte_base _ _)).trans hreg

/-- A pipe's acknowledge payload command is read from its byte (R86). -/
theorem decodeByte_encode_wAckPayload {p : Params} {ppp : BitVec 3} (hm : p.mapOk = true) (hp : ppp ≤ 5#3) :
    decodeByte p (encodeByte p (.wAckPayload ppp)) = .wAckPayload ppp := by
  obtain ⟨-, hfix, -, hbase, -⟩ := Params.mapOk_parts hm
  obtain ⟨hack, hreg⟩ := isAckByte_encode hm hp
  have hne : ∀ c ∈ [p.opcRRxPayload, p.opcWTxPayload, p.opcFlushTx, p.opcFlushRx, p.opcNop],
      (encodeByte p (.wAckPayload ppp) == c) = false := by
    intro c hc
    refine beq_false_of_ne fun he => ?_
    rw [he, (hfix c hc).2] at hack
    cases hack
  rw [decodeByte_other hreg, hne _ (by simp), hne _ (by simp), hack]
  simp only [Bool.false_eq_true, ↓reduceIte, encodeByte, ackByte_pipe _ _ hbase]

/-- The five fixed bytes decode each to its own command: they differ from one another and lie in no other format
(R85, D2). -/
theorem decodeByte_fixed {p : Params} (hm : p.mapOk = true) :
    decodeByte p p.opcRRxPayload = .rRxPayload ∧ decodeByte p p.opcWTxPayload = .wTxPayload
      ∧ decodeByte p p.opcFlushTx = .flushTx ∧ decodeByte p p.opcFlushRx = .flushRx
      ∧ decodeByte p p.opcNop = .nop := by
  obtain ⟨hdist, hfix, -⟩ := Params.mapOk_parts hm
  simp only [List.forall_mem_cons] at hfix
  obtain ⟨⟨r1, a1⟩, ⟨r2, a2⟩, ⟨r3, a3⟩, ⟨r4, a4⟩, ⟨r5, a5⟩, -⟩ := hfix
  simp only [List.nodup_cons, List.mem_cons, List.not_mem_nil, or_false, not_or, ← ne_eq] at hdist
  rw [decodeByte_other r1, decodeByte_other r2, decodeByte_other r3, decodeByte_other r4, decodeByte_other r5]
  simp only [a1, a2, a3, a4, a5, beq_iff_eq]
  grind

/-- Settles O2, command by command: a register's address and a pipe's field come back out of the byte, the fixed bytes
are told apart by D2, and a reserved byte is in no row. -/
theorem decodeOfEncodeIsIdentity : Obligations.DecodeOfEncodeIsIdentity := by
  unfold Obligations.DecodeOfEncodeIsIdentity
  intro p i hm hw
  obtain ⟨hread, hwrite, hflushTx, hflushRx, hnop⟩ := decodeByte_fixed hm
  cases i with
  | rRegister r => exact decodeByte_encode_rRegister hm r
  | wRegister r => exact decodeByte_encode_wRegister hm r
  | rRxPayload => exact hread
  | wTxPayload => exact hwrite
  | wAckPayload ppp => exact decodeByte_encode_wAckPayload hm (of_decide_eq_true hw)
  | flushTx => exact hflushTx
  | flushRx => exact hflushRx
  | nop => exact hnop
  | reserved b => exact decodeByte_of_undefined (Laws.DefinedByte.reserved b p hm hw)

/-- Settles O1: fifteen closed facts about the decoder. -/
theorem decodeReadsSpecBytes : Obligations.DecodeReadsSpecBytes := by
  unfold Obligations.DecodeReadsSpecBytes
  decide

end Sys2Proof

namespace Sys2Proof.Machine

/-! ### The bus steps of a command that is not reserved (R82, R83, R93) -/

/-- The pipe field of a well-formed acknowledge payload command names a pipe (R86). -/
theorem ackPipe_lt_of_wf {p : Params} {ppp : BitVec 3} (hw : (Instr.wAckPayload ppp).wf p = true) : ppp.toNat < 6 :=
  Nat.lt_succ_of_le (BitVec.le_def.1 (of_decide_eq_true hw))

/-- A well-formed command that is not reserved is its data byte and its commit, run over the bus. -/
theorem exec_eq_runCommand_of_wf {i : Instr} {p : Params} (hr : ∀ b, i ≠ .reserved b) (hw : i.wf p = true)
    (s : State) : exec i s = runCommand (dataOf i) (commitOf i) s :=
  exec_eq_runCommand hr (fun ppp h => by subst h; exact ackPipe_lt_of_wf hw) s

section
variable {data : Byte → State → Host.Outcome State Fault Refusal}
  {commit : State → Host.Outcome State Fault Refusal} {s : State} {m c : Byte} {rest : List Action}

/-- The first exchange of an open frame latches the command byte (R82). -/
theorem runCommand_commandByte (hp : s.pending = .xfer m :: rest) (ho : s.frOpen = true) (hc : s.frCmd = none) :
    runCommand data commit s = .next (commandByte m (popAction s)) := by
  rw [runCommand_xfer hp]
  simp [xferStep, ho, hc]

/-- A later exchange is a data byte of the latched command (R82). -/
theorem runCommand_dataByte (hp : s.pending = .xfer m :: rest) (ho : s.frOpen = true) (hc : s.frCmd = some c) :
    runCommand data commit s = data m (popAction s) := by
  rw [runCommand_xfer hp, xferStep_some (s := popAction s) ho hc]

/-- The state after the first two steps of a whole frame: it is open, its command byte is latched and was answered with
STATUS. -/
def latchedFrame (b : Byte) (s : State) : State :=
  { s with
    pending := s.pending.tail, csn := false, frOpen := true, frCmd := some b, frIdx := 0, frBuf := []
    reply := [status s] }

theorem busOnly_latchedFrame (b : Byte) (s : State) : busOnly s (latchedFrame b s) := rfl

theorem commandByte_openFrame (b : Byte) (s : State) :
    commandByte b (openFrame (popAction s)) = latchedFrame b s := rfl

/-- A whole frame is its data phase and its commit (R93). -/
theorem runCommand_frame_eq {b : Byte} {ds : List Byte} (hp : s.pending = .frame (b :: ds) :: rest)
    (ho : s.frOpen = false) :
    runCommand data commit s = andThen (dataPhase data ds (latchedFrame b s)) (riseStep commit) := by
  rw [runCommand_frame hp, frameStep, if_neg (by simp [ho]), commandByte_openFrame]

/-- A whole frame closes with what its data phase and its commit leave, where both complete and the interrupt line
stays (R93). -/
theorem runCommand_frame_completes {b : Byte} {ds : List Byte} {v u : State} (hd : DataSound data)
    (hp : s.pending = .frame (b :: ds) :: rest) (ho : s.frOpen = false)
    (hv : dataPhase data ds (latchedFrame b s) = .next v) (hu : commit v = .next u) (hi : irqN u = irqN v) :
    runCommand data commit s = .next (closeFrame u) := by
  obtain ⟨-, hvo, -, hvc, -⟩ := dataPhase_sound hd ds _ v hv
  rw [runCommand_frame_eq hp ho, hv, andThen_next, riseStep_some (b := b) hvo hvc, hu, andThen_next,
    settleIrq_of_irqN_eq ((busOnly_irqN (busOnly_closeFrame u)).trans hi)]

end

/-- Settles O6: the first exchange of every command is the same one. -/
theorem commandByteReturnsStatus : Obligations.CommandByteReturnsStatus := by
  unfold Obligations.CommandByteReturnsStatus
  intro s i m rest hr hw hp ho hc
  rw [exec_eq_runCommand_of_wf hr hw, runCommand_commandByte hp ho hc]
  simp only [commandByte, popAction, hp, List.tail_cons]
  rfl

/-- Settles O9: the data byte of the three commands without payload is a refusal. -/
theorem dataByteAfterFlushOrNopIsRefused : Obligations.DataByteAfterFlushOrNopIsRefused := by
  unfold Obligations.DataByteAfterFlushOrNopIsRefused
  rintro s i m c rest (rfl | rfl | rfl) hp ho hc
  · exact runCommand_dataByte hp ho hc
  · exact runCommand_dataByte hp ho hc
  · exact runCommand_dataByte hp ho hc

/-! ### Reserved commands (R90, R104) -/

/-- A reserved command byte exchanged in an open frame is refused with the STATUS it returned (R82, R90). -/
theorem runReserved_xfer {s : State} {b m : Byte} {rest : List Action} (hp : s.pending = .xfer m :: rest)
    (ho : s.frOpen = true) : runReserved b s = .refused (.reservedCommand b (status s)) := by
  simp [runReserved, hp, ho]

/-- A whole frame of a reserved command is refused the same way (R90, R93). -/
theorem runReserved_frame {s : State} {b : Byte} {bs : List Byte} {rest : List Action}
    (hp : s.pending = .frame bs :: rest) (ho : s.frOpen = false) :
    runReserved b s = .refused (.reservedCommand b (status s)) := by
  simp [runReserved, hp, ho]

/-- Settles O7: both reserved forms are `runReserved`, which answers no next state. -/
theorem reservedCommandIsRefused : Obligations.ReservedCommandIsRefused := by
  unfold Obligations.ReservedCommandIsRefused
  intro s b m ds rest ppp
  refine ⟨runReserved_xfer, runReserved_frame, runReserved_ne_next b s, fun h t => ?_⟩
  simp only [exec, execWAckPayload, Nat.not_lt.2 h, ↓reduceDIte]
  exact runReserved_ne_next _ s t

/-! ### The command a bus step runs (R82, R83, R183, R213) -/

/-- The host's command is sent where no read-modify-write of its register is under way (R213). -/
theorem sendCommand_of_free {i : Instr} {s : State} (h : ∀ r, regOf i = some r → held s r = false) :
    sendCommand i s = exec i s := by
  cases hr : regOf i with
  | none => exact sendCommand_of_none hr
  | some r => exact sendCommand_of_regOf hr (h r hr)

/-- A register command to a register whose read-modify-write is under way is refused (R213). -/
theorem sendCommand_of_held {i : Instr} {s : State} {r : Reg} (hr : regOf i = some r) (hh : held s r = true) :
    sendCommand i s = .refused (.rmwInterrupted r) := by
  simp [sendCommand, hr, hh]

section
variable {s : State} {m b : Byte} {ds : List Byte} {rest : List Action}

/-- The first exchange of a frame sends the command of the arriving byte (R82). -/
theorem step_xfer_first (hp : s.pending = .xfer m :: rest) (hc : s.frCmd = none) :
    step s = sendCommand (decodeByte s.params m) s := by
  simp [step, hp, stepXfer, hc]

/-- A later exchange is a step of the latched command (R82). -/
theorem step_xfer_latched (hp : s.pending = .xfer m :: rest) (hc : s.frCmd = some b) :
    step s = exec (decodeByte s.params b) s := by
  simp [step, hp, stepXfer, hc]

/-- A rise of chip-select is a step of the latched command (R83). -/
theorem step_csnRise_latched (hp : s.pending = .csnRise :: rest) (hc : s.frCmd = some b) :
    step s = exec (decodeByte s.params b) s := by
  simp [step, hp, stepCsnRise, hc]

/-- A whole frame sends the command of its first byte (R93). -/
theorem step_frame (hp : s.pending = .frame (b :: ds) :: rest) :
    step s = sendCommand (decodeByte s.params b) s := by
  simp [step, hp, stepFrame_cons]

/-- The fall of chip-select opens a frame where none is open (R81). -/
theorem step_csnFall (hp : s.pending = .csnFall :: rest) (ho : s.frOpen = false) :
    step s = .next (openFrame (popAction s)) := by
  simp [step, hp, stepCsnFall, ho]

end

/-- Settles O4: a bus step hands its state to the command of the byte R82 and R83 name; the second frame of `rmw` is
that of a register write, whose byte decodes to it. -/
theorem stepRunsTheDecodedCommand : Obligations.StepRunsTheDecodedCommand := by
  unfold Obligations.StepRunsTheDecodedCommand
  intro s rest m b ds
  refine ⟨fun hp hc hf => ?_, step_xfer_latched, step_csnRise_latched, fun hp hf => ?_, fun r hp hr hh => ?_,
    fun r keep bits hm hp hl => ?_, fun r hm hp hc => ?_, fun r keep bits hm hp hc hl => ?_, fun hp ho => ?_,
    fun hp ho => ?_⟩
  · rw [step_xfer_first hp hc, sendCommand_of_free hf]
  · rw [step_frame hp, sendCommand_of_free hf]
  · rcases hp with hp | ⟨hp, hc⟩
    · rw [step_frame hp, sendCommand_of_held hr hh]
    · rw [step_xfer_first hp hc, sendCommand_of_held hr hh]
  · rw [step_writeBack hp hl, step_frame rfl]
    exact (congrArg (sendCommand · _) (decodeByte_encode_wRegister hm r)).trans
      (sendCommand_of_regOf (i := .wRegister r) rfl (held_release r s))
  · simp only [step, hp, stepBackCmd, hc, Option.getD_none, List.tail_cons]
    rw [decodeByte_encode_wRegister hm]
  · simp only [step, hp, stepBackData, hl, stepXfer, release, hc, List.tail_cons]
    rw [decodeByte_encode_wRegister hm]
  · simp only [step, hp, stepAcquire, ho, ↓reduceIte]
  · simp [step, hp, stepAcquire, ho, popAction]

/-- Settles O5: the two guards of R81 and R83, each with its effect. -/
theorem emptyFrameOpensAndCloses : Obligations.EmptyFrameOpensAndCloses := by
  unfold Obligations.EmptyFrameOpensAndCloses
  intro s rest
  refine ⟨fun hp ho => ?_, fun hp ho => ?_, fun hp ho hc => ?_, fun hp ho hc => ?_⟩
  · rw [step_csnFall hp ho]; simp only [openFrame, popAction, hp, List.tail_cons]
  · simp [step, hp, stepCsnFall, ho]
  · simp [step, hp, stepCsnRise, hc, ho, closeFrame, popAction]
  · simp [step, hp, stepCsnRise, hc, ho]

/-! ### A whole frame and its byte steps (R93) -/

/-- The state with other steps placed. -/
def withPending (as : List Action) (s : State) : State := { s with pending := as }

@[simp] theorem withPending_frIdx (as : List Action) (s : State) : (withPending as s).frIdx = s.frIdx := rfl

@[simp] theorem andThen_next_right (o : Host.Outcome State Fault Refusal) : andThen o .next = o := by
  cases o <;> rfl

theorem popAction_withPending (a : Action) (as : List Action) (s : State) :
    popAction (withPending (a :: as) s) = withPending as s := rfl

theorem withPending_self {s : State} {as : List Action} (h : s.pending = as) : withPending as s = s := by
  subst h; rfl

/-- The steps of a frame after its command byte: each data byte exchanged alone, then the rise of chip-select. -/
def byteSteps (ds : List Byte) (rest : List Action) : List Action := ds.map .xfer ++ .csnRise :: rest

/-- The frame just opened by the fall of chip-select, its byte steps still to come. -/
def atCommandByte (b : Byte) (ds : List Byte) (rest : List Action) (s : State) : State :=
  openFrame (withPending (.xfer b :: byteSteps ds rest) s)

/-- A data byte does not look at the steps still placed, and keeps them. -/
theorem dataOf_withPending (i : Instr) (m : Byte) (as : List Action) (s : State) :
    dataOf i m (withPending as s) = andThen (dataOf i m s) fun t => .next (withPending as t) := by
  cases i with
  | rRegister r =>
      have hr : regByte (withPending as s) r s.frIdx = regByte s r s.frIdx :=
        busOnly_regByte (t := withPending as s) rfl r _
      simp only [dataOf, readData, withPending_frIdx, hr]
      split <;> rfl
  | rRxPayload =>
      have hb : headByte (withPending as s) s.frIdx = headByte s s.frIdx := rfl
      simp only [dataOf, payloadData, withPending_frIdx, hb]
      cases headByte s s.frIdx <;> rfl
  | wRegister r => rfl
  | wTxPayload => rfl
  | wAckPayload ppp => rfl
  | flushTx => rfl
  | flushRx => rfl
  | nop => rfl
  | reserved b => rfl

section
variable {s : State} {i : Instr} {m b : Byte} {ds : List Byte} {rest : List Action}

/-- A decoded command that is not reserved is its data byte and its commit, run over the bus. -/
theorem exec_decoded (hr : ∀ c, i ≠ .reserved c) (hi : decodeByte s.params b = i) :
    exec i s = runCommand (dataOf i) (commitOf i) s :=
  exec_eq_runCommand_of_wf hr (hi ▸ decodeByte_wf s.params b) s

/-- The exchange of a data byte of the latched command (R82). -/
theorem step_dataByte (hr : ∀ c, i ≠ .reserved c) (hi : decodeByte s.params b = i)
    (hp : s.pending = .xfer m :: rest) (ho : s.frOpen = true) (hc : s.frCmd = some b) :
    step s = dataOf i m (popAction s) := by
  rw [step_xfer_latched hp hc, hi, exec_decoded hr hi, runCommand_dataByte hp ho hc]

/-- The rise of chip-select over the latched command (R83). -/
theorem step_rise (hr : ∀ c, i ≠ .reserved c) (hi : decodeByte s.params b = i) (hp : s.pending = .csnRise :: rest)
    (hc : s.frCmd = some b) : step s = riseStep (commitOf i) (popAction s) := by
  rw [step_csnRise_latched hp hc, hi, exec_decoded hr hi, runCommand_csnRise hp]

/-- The data bytes of a frame exchanged one by one, then the rise of chip-select, are the data phase and the commit
of the latched command. -/
theorem runSteps_byteSteps (hr : ∀ c, i ≠ .reserved c) : ∀ (ds : List Byte) {s : State}, s.frOpen = true →
    s.frCmd = some b → decodeByte s.params b = i → s.pending = rest →
    runSteps (ds.length + 1) (withPending (byteSteps ds rest) s)
      = andThen (dataPhase (dataOf i) ds s) (riseStep (commitOf i))
  | [], s, _, hc, hi, hp => by
      have hstep : step (withPending (.csnRise :: rest) s) = riseStep (commitOf i) s := by
        rw [step_rise (s := withPending (.csnRise :: rest) s) hr hi rfl hc, popAction_withPending, withPending_self hp]
      rw [List.length_nil, runSteps_succ]
      exact (congrArg (andThen · _) hstep).trans (andThen_next_right _)
  | m :: ms, s, ho, hc, hi, hp => by
      have hstep : step (withPending (.xfer m :: byteSteps ms rest) s)
          = andThen (dataOf i m s) fun t => .next (withPending (byteSteps ms rest) t) := by
        rw [step_dataByte (s := withPending (.xfer m :: byteSteps ms rest) s) hr hi rfl ho hc,
          popAction_withPending, dataOf_withPending]
      rw [List.length_cons, runSteps_succ, dataPhase]
      refine (congrArg (andThen · _) hstep).trans ?_
      cases hu : dataOf i m s with
      | next u =>
          obtain ⟨hb, huo, -, huc, hup, -⟩ := dataOf_sound i m s u hu
          refine runSteps_byteSteps hr ms (huo.trans ho) (huc.trans hc) ?_ (hup.trans hp)
          rw [(busOnly_fields hb).1, hi]
      | fault f => rfl
      | refused r => rfl

/-- A command over its whole frame is its command byte's exchange in the frame just opened, and the byte steps after
it; a reserved command is refused at that exchange. -/
theorem exec_frame_eq_byteSteps (hp : s.pending = .frame (b :: ds) :: rest) (ho : s.frOpen = false)
    (hi : decodeByte s.params b = i) :
    exec i s = andThen (exec i (atCommandByte b ds rest s)) (runSteps (ds.length + 1)) := by
  by_cases hr : ∃ c, i = .reserved c
  · obtain ⟨c, rfl⟩ := hr
    have hx := runReserved_xfer (s := atCommandByte b ds rest s) (b := c) rfl rfl
    exact (runReserved_frame hp ho).trans (congrArg (andThen · _) hx).symm
  · have hr' : ∀ c, i ≠ .reserved c := fun c hc => hr ⟨c, hc⟩
    have hx := runCommand_commandByte (data := dataOf i) (commit := commitOf i)
      (s := atCommandByte b ds rest s) rfl rfl rfl
    have hrest : (latchedFrame b s).pending = rest := congrArg List.tail hp
    rw [exec_decoded hr' hi, exec_decoded (s := atCommandByte b ds rest s) hr' hi, runCommand_frame_eq hp ho, hx,
      andThen_next]
    exact (runSteps_byteSteps hr' ds (s := latchedFrame b s) rfl rfl hi hrest).symm

end

/-- Settles O10: the fall of chip-select opens the frame, the first exchange sends the command the whole frame sends
(or is refused with it, R213), and `exec_frame_eq_byteSteps` says the rest. -/
theorem frameIsItsByteSteps : Obligations.FrameIsItsByteSteps := by
  unfold Obligations.FrameIsItsByteSteps
  intro s b ds rest hp ho
  have hrun : runSteps (ds.length + 3) (withPending (.csnFall :: .xfer b :: byteSteps ds rest) s)
      = andThen (sendCommand (decodeByte s.params b) (atCommandByte b ds rest s))
          (runSteps (ds.length + 1)) := by
    rw [runSteps_next (step_csnFall (s := withPending _ s) rfl ho), runSteps_succ]
    exact congrArg (andThen · _) (step_xfer_first rfl rfl)
  refine Eq.trans ?_ hrun.symm
  rw [step_frame hp]
  by_cases hh : ∃ r, regOf (decodeByte s.params b) = some r ∧ held s r = true
  · obtain ⟨r, hreg, hheld⟩ := hh
    rw [sendCommand_of_held hreg hheld, sendCommand_of_held (s := atCommandByte b ds rest s) hreg hheld,
      andThen_refused]
  · have hfree : ∀ r, regOf (decodeByte s.params b) = some r → held s r = false := fun r hr =>
      Bool.eq_false_iff.2 fun h => hh ⟨r, hr, h⟩
    rw [sendCommand_of_free hfree, sendCommand_of_free (s := atCommandByte b ds rest s) hfree,
      ← exec_frame_eq_byteSteps hp ho rfl]

/-! ### The data bytes and whole frames of the commands that read (R82, R93) -/

/-- Settles O16: within the width a data byte is `reg_byte`, from the width on a free value. -/
theorem readRegisterDataByte : Obligations.ReadRegisterDataByte := by
  unfold Obligations.ReadRegisterDataByte
  intro s r m c rest hp ho hc
  have hx : exec (.rRegister r) s = readData r m (popAction s) := runCommand_dataByte hp ho hc
  have hr : regByte (popAction s) r s.frIdx = regByte s r s.frIdx := busOnly_regByte (busOnly_popAction s) r _
  refine ⟨fun h => ?_, fun h => ?_⟩
  · rw [hx, readData, if_pos (by simpa using h), popAction_frIdx, hr]
    simp only [answer, popAction, hp, List.tail_cons]
  · rw [hx, readData, if_neg (by simpa using h)]
    simp only [answerDraw, popAction, hp, List.tail_cons]

/-- Settles O25: there is a byte `fr.idx` of a head payload that is longer, and none otherwise. -/
theorem readPayloadDataByte : Obligations.ReadPayloadDataByte := by
  unfold Obligations.ReadPayloadDataByte
  intro s m c rest hp ho hc
  have hx : exec .rRxPayload s = payloadData m (popAction s) := runCommand_dataByte hp ho hc
  refine ⟨fun e es b hf hb => ?_, fun h => ?_⟩
  · have hh : headByte (popAction s) (popAction s).frIdx = some b := by simp [headByte, hf, hb]
    rw [hx, payloadData, hh]
    simp only [answer, popAction, hp, List.tail_cons]
  · have hh : headByte (popAction s) (popAction s).frIdx = none := by
      rcases h with hf | ⟨e, es, hf, hn⟩
      · simp [headByte, hf]
      · simp [headByte, hf, hn]
    rw [hx, payloadData, hh]
    simp only [answerDraw, popAction, hp, List.tail_cons]

/-- The state after data bytes were answered with `bs`, and `n` more with free values. -/
def answered (bs : List Byte) (n : Nat) (s : State) : State :=
  { s with
    reply := s.reply ++ (bs ++ (List.range n).map fun k => Config.draw (s.draws + k))
    frIdx := s.frIdx + (bs.length + n)
    draws := s.draws + n }

/-- A data phase that returns the first bytes of `source` while they last, and free values from there on, returns both
in turn, however long it is. -/
theorem dataPhase_leading_then_free {data : Byte → State → Host.Outcome State Fault Refusal} {s : State}
    {source : List Byte}
    (hin : ∀ ms : List Byte, ms.length ≤ source.length →
      dataPhase data ms s = .next (answered (source.take ms.length) 0 s))
    (hpast : ∀ ms : List Byte, dataPhase data ms (answered source 0 s) = .next (answered source ms.length s))
    (ms : List Byte) :
    dataPhase data ms s = .next (answered (source.take ms.length) (ms.length - source.length) s) := by
  rcases Nat.le_total ms.length source.length with h | h
  · rw [hin ms h, Nat.sub_eq_zero_of_le h]
  · have hfirst : (ms.take source.length).length = source.length := List.length_take_of_le h
    rw [← List.take_append_drop source.length ms, dataPhase_append, hin _ hfirst.le, hfirst, List.take_length,
      andThen_next, hpast, List.take_append_drop, List.length_drop, List.take_of_length_le h]

/-- A read phase of a register returns its leading bytes, and free values past the width (R100, R102, R103). -/
theorem dataPhase_readData {s : State} (h0 : s.frIdx = 0) (r : Reg) (ms : List Byte) :
    dataPhase (readData r) ms s = .next
      (answered ((memRead s r (regWidth r)).take ms.length) (ms.length - regWidth r) s) := by
  have hlen : (memRead s r (regWidth r)).length = regWidth r := by simp [memRead]
  have hin : ∀ ms : List Byte, ms.length ≤ (memRead s r (regWidth r)).length →
      dataPhase (readData r) ms s = .next (answered ((memRead s r (regWidth r)).take ms.length) 0 s) := by
    intro ms h
    rw [hlen] at h
    rw [dataPhase_readData_within r ms s (by omega)]
    simp [answered, memRead, h0, ← List.map_take, List.take_range, h]
  have hpast : ∀ ms : List Byte, dataPhase (readData r) ms (answered (memRead s r (regWidth r)) 0 s)
      = .next (answered (memRead s r (regWidth r)) ms.length s) := by
    intro ms
    rw [dataPhase_readData_past r ms _ (by simp [answered, hlen])]
    simp [answered, Nat.add_assoc]
  have h := dataPhase_leading_then_free hin hpast ms
  rwa [hlen] at h

/-- A read phase of a head payload returns its leading bytes, and free values past its end (R130). -/
theorem dataPhase_payloadData {s : State} {e : RxEntry} {es : List RxEntry} (h0 : s.frIdx = 0) (hf : s.rxf = e :: es)
    (ms : List Byte) :
    dataPhase payloadData ms s = .next (answered (e.data.take ms.length) (ms.length - e.data.length) s) := by
  refine dataPhase_leading_then_free (fun ms h => ?_) (fun ms => ?_) ms
  · rw [dataPhase_payloadData_within e es ms s hf (by omega)]
    simp [answered, h0, h]
  · rw [dataPhase_payloadData_past ms _ fun k hk => ?_]
    · simp [answered, Nat.add_assoc]
    · have hk' : e.data.length ≤ k := by simp only [answered] at hk; omega
      simp [headByte, answered, hf, hk']

/-- Reading fewer bytes of a register reads the leading ones. -/
theorem take_memRead (s : State) (r : Reg) (n k : Nat) : (memRead s r k).take n = memRead s r (min n k) := by
  simp [memRead, ← List.map_take, List.take_range]

/-- Settles O17: the frame's data phase is `dataPhase_readData`, its commit changes nothing. -/
theorem readRegisterFrame : Obligations.ReadRegisterFrame := by
  unfold Obligations.ReadRegisterFrame
  intro s r b ds rest hp ho
  have hm : ∀ n, memRead (latchedFrame b s) r n = memRead s r n :=
    fun n => List.map_congr_left fun i _ => busOnly_regByte (busOnly_latchedFrame b s) r i
  have hv := dataPhase_readData (s := latchedFrame b s) rfl r ds
  have hx : exec (.rRegister r) s = _ :=
    runCommand_frame_completes (commit := commitNothing) (readData_sound r) hp ho hv rfl rfl
  rw [hx, hm, take_memRead]
  simp [closeFrame, answered, latchedFrame, hp]

/-- A payload read with a data byte removes the head (R131). -/
theorem commitPop_of_data {s : State} (h : s.frIdx ≠ 0) : commitPop s = .next (popRx s) := if_neg h

/-- Settles O27: the frame's data phase is `dataPhase_payloadData`, its commit removes the head. -/
theorem readPayloadFrame : Obligations.ReadPayloadFrame := by
  unfold Obligations.ReadPayloadFrame
  intro s b ds e es rest hp ho hne hf
  have hv := dataPhase_payloadData (s := latchedFrame b s) rfl hf ds
  obtain ⟨-, -, -, -, -, hidx⟩ := dataPhase_sound payloadData_sound ds _ _ hv
  have hn : 0 + ds.length ≠ 0 := by simpa using hne
  have hx : exec .rRxPayload s = _ :=
    runCommand_frame_completes payloadData_sound hp ho hv (commitPop_of_data (hidx ▸ hn)) rfl
  rw [hx]
  simp [closeFrame, popRx, answered, latchedFrame, hp, hf]

/-- Settles O32: the frame has no data phase, and its commit changes nothing. -/
theorem nopReturnsStatus : Obligations.NopReturnsStatus := by
  unfold Obligations.NopReturnsStatus
  intro s b rest hp ho
  have hx : exec .nop s = .next (closeFrame (latchedFrame b s)) :=
    runCommand_frame_completes (commit := commitNothing) refuseData_sound hp ho rfl rfl rfl
  rw [hx]
  simp only [closeFrame, latchedFrame, hp, List.tail_cons]

end Sys2Proof.Machine

/-! PROOFS of the statements of spec/40_register_access.md: what a register write is refused for, and what it stores. -/

namespace Sys2Proof.Machine

/-! ### The commit of a register write, register by register (R105 to R111) -/

section
variable {s : State} {r : Reg} {v : Byte}

/-- A register write of the register's width is the write of its value (R105). -/
theorem commitWrite_of_width (hn : s.frIdx = regWidth r) : commitWrite r s = writeValue r s.frBuf s := if_pos hn

/-- A register write of any other length is refused (R106). -/
theorem commitWrite_of_length_ne (hn : s.frIdx ≠ regWidth r) :
    commitWrite r s = .refused (.writeLength r s.frIdx) := if_neg hn

theorem commitWrite_config (hn : s.frIdx = 1) (hb : s.frBuf = [v]) : commitWrite .config s = configWrite v s := by
  rw [commitWrite_of_width hn, hb]; rfl

theorem commitWrite_status (hn : s.frIdx = 1) (hb : s.frBuf = [v]) : commitWrite .status s = statusWrite v s := by
  rw [commitWrite_of_width hn, hb]; rfl

theorem commitWrite_eq_byteWrite (hr : isByteReg r = true) (hn : s.frIdx = 1) (hb : s.frBuf = [v]) :
    commitWrite r s = byteWrite r v s := by
  rw [commitWrite, hb, hn]
  cases r with
  | config | status | fifoStatus | rxAddr _ | txAddr => cases hr
  | _ => rfl

/-- An address register takes the five bytes buffered (R111). -/
theorem commitWrite_addrReg {a : Address} (hr : regWidth r = 5) (hn : s.frIdx = 5) (hb : s.frBuf = a.toList) :
    commitWrite r s = .next { s with regs := storeAddr r a s.regs } := by
  have h : commitWrite r s = addrWrite r a.toList s := by
    rw [commitWrite_of_width (hn.trans hr.symm), hb]
    cases r with
    | rxAddr _ | txAddr => rfl
    | _ => cases hr
  rw [h, addrWrite, toAddress_toList]

theorem configWrite_reservedBit (h : v.getLsbD 7 = true) : configWrite v s = .refused (.reservedBit .config v) :=
  if_pos h

/-- During a transmission the mode bits must stay (R107, D26). -/
theorem configWrite_modeChange (h7 : v.getLsbD 7 = false) (ht : s.txActive = true)
    (hm : v.getLsbD 1 ≠ pwrUp s ∨ v.getLsbD 0 ≠ primRx s) :
    configWrite v s = .refused (.modeChangeWhileTransmitting v) := by
  rw [configWrite, if_neg (Bool.eq_false_iff.1 h7), if_pos ⟨ht, hm⟩]

/-- With the reserved bit clear and the mode kept during a transmission, CONFIG is the byte (R107). -/
theorem configWrite_stores (h7 : v.getLsbD 7 = false)
    (hm : s.txActive = true → v.getLsbD 1 = pwrUp s ∧ v.getLsbD 0 = primRx s) :
    configWrite v s = .next { s with regs := { s.regs with config := v } } := by
  have hkept : ¬(s.txActive = true ∧ (v.getLsbD 1 ≠ pwrUp s ∨ v.getLsbD 0 ≠ primRx s)) :=
    fun ⟨ht, hne⟩ => hne.elim (absurd (hm ht).1) (absurd (hm ht).2)
  rw [configWrite, if_neg (Bool.eq_false_iff.1 h7), if_neg hkept]
  rfl

theorem statusWrite_reservedBit (h : v.getLsbD 7 = true) : statusWrite v s = .refused (.reservedBit .status v) :=
  if_pos h

/-- With the reserved bit clear, the write acknowledges the flags the byte names (R108, R241). -/
theorem statusWrite_clears (h7 : v.getLsbD 7 = false) : statusWrite v s = .next (clearFlags v s) :=
  if_neg (Bool.eq_false_iff.1 h7)

theorem byteWrite_reservedBit (h : v &&& ~~~regWmask r ≠ 0#8) : byteWrite r v s = .refused (.reservedBit r v) :=
  if_pos (beq_eq_false_iff_ne.2 h)

theorem byteWrite_payloadWidth (hw : v &&& ~~~regWmask r = 0#8) (hr : isRxPw r = true) (hv : 32 < v.toNat) :
    byteWrite r v s = .refused (.payloadWidth v) := by
  have hin : inWmask r v = true := beq_iff_eq.2 hw
  rw [byteWrite, if_neg (by simp [hin]), if_pos ⟨hr, BitVec.lt_def.2 hv⟩]

end

/-- The bytes R110 stores, spelled out: reserved bits clear, and a payload width at most 32. -/
theorem byteLegal_iff {r : Reg} {v : Byte} :
    byteLegal r v = true ↔ v &&& ~~~regWmask r = 0#8 ∧ (isRxPw r = true → v.toNat ≤ 32) := by
  cases h : isRxPw r <;> simp [byteLegal, inWmask, h, BitVec.le_def]

/-- A byte write keeps the address registers (R110). -/
theorem storeByte_addresses (r : Reg) (v : Byte) (g : Regs) :
    (storeByte r v g).rxAddr = g.rxAddr ∧ (storeByte r v g).txAddr = g.txAddr := by
  cases r <;> exact ⟨rfl, rfl⟩

/-! ### The rise of chip-select over a latched register write (R83) -/

section
variable {s : State} {r : Reg} {c : Byte} {rest : List Action} (hp : s.pending = .csnRise :: rest)
  (ho : s.frOpen = true) (hc : s.frCmd = some c)
include hp ho hc

/-- The rise is the commit, the closing of the frame and the edge, if there is one (R83, R105). -/
theorem wRegister_rise : exec (.wRegister r) s
    = andThen (commitWrite r (popAction s)) fun t => .next (settleIrq (popAction s) (closeFrame t)) :=
  (runCommand_csnRise hp).trans (riseStep_some (s := popAction s) ho hc)

/-- What the commit is refused for, the write is refused for. -/
theorem wRegister_rise_refused {e : Refusal} (hu : commitWrite r (popAction s) = .refused e) :
    exec (.wRegister r) s = .refused e := by
  rw [wRegister_rise hp ho hc, hu, andThen_refused]

/-- A commit under which the interrupt line does not fall emits no edge: the frame closes with what it left. -/
theorem wRegister_rise_completes {u : State} (hu : commitWrite r (popAction s) = .next u)
    (hi : irqN s = true → irqN u = true) : exec (.wRegister r) s = .next (closeFrame u) := by
  have hline : ¬(irqN (popAction s) = true ∧ irqN (closeFrame u) = false) :=
    fun ⟨hs, hf⟩ => Bool.eq_false_iff.1 hf (hi hs)
  rw [wRegister_rise hp ho hc, hu, andThen_next, settleIrq_eq_self hline]

/-- A commit that stores registers other than CONFIG cannot move the interrupt line: the registers change and the frame
closes, nothing else (R110, R111). -/
theorem wRegister_rise_stores {g : Regs} (hu : commitWrite r (popAction s) = .next { popAction s with regs := g })
    (hg : g.config = s.regs.config) : exec (.wRegister r) s = .next { s with
      pending := rest, csn := true, frOpen := false, frCmd := none, frIdx := 0, frBuf := [], regs := g } := by
  have hline : irqN { popAction s with regs := g } = irqN s := irqN_congr rfl rfl rfl hg
  rw [wRegister_rise_completes hp ho hc hu fun h => hline.trans h]
  simp only [closeFrame, popAction, hp, List.tail_cons]

/-- An address register takes the five bytes at once (R111). -/
theorem wRegister_rise_addrReg {a : Address} (hr : regWidth r = 5) (hn : s.frIdx = 5) (hb : s.frBuf = a.toList) :
    exec (.wRegister r) s = .next { s with
      pending := rest, csn := true, frOpen := false, frCmd := none, frIdx := 0, frBuf := []
      regs := storeAddr r a s.regs } :=
  wRegister_rise_stores hp ho hc (commitWrite_addrReg (s := popAction s) hr hn hb) (storeAddr_config r a s.regs)

end

/-! ### What a register write is refused for, and what it stores -/

/-- Settles O19: the two refusals are the commit's; the store is followed by the edge of `settleIrq`, whose condition is
the statement's. -/
theorem writeConfigCommits : Obligations.WriteConfigCommits := by
  unfold Obligations.WriteConfigCommits
  intro s c v rest hp ho hc hn hb
  have hcommit : commitWrite .config (popAction s) = configWrite v (popAction s) := commitWrite_config hn hb
  refine ⟨fun h7 => ?_, fun h7 ht hm => ?_, fun h7 hm t ht => ?_⟩
  · exact wRegister_rise_refused hp ho hc (hcommit.trans (configWrite_reservedBit h7))
  · exact wRegister_rise_refused hp ho hc (hcommit.trans (configWrite_modeChange h7 ht hm))
  · have hclosed : closeFrame { popAction s with regs := { s.regs with config := v } } = t := by
      simp only [ht, closeFrame, popAction, hp, List.tail_cons]
    have hstore : configWrite v (popAction s)
        = .next { popAction s with regs := { s.regs with config := v } } := configWrite_stores h7 hm
    rw [wRegister_rise hp ho hc, hcommit, hstore, andThen_next, hclosed, settleIrq]
    subst ht
    rfl

/-- Settles O20: `clearFlags` drops each flag its bit names, and clearing flags can only release the line. -/
theorem writeStatusClearsFlags : Obligations.WriteStatusClearsFlags := by
  unfold Obligations.WriteStatusClearsFlags
  intro s c v rest hp ho hc hn hb
  have hcommit : commitWrite .status (popAction s) = statusWrite v (popAction s) := commitWrite_status hn hb
  have hflag : ∀ flag bit : Bool, (flag && !bit) = if bit = true then false else flag := by decide
  refine ⟨fun h7 => ?_, fun h7 => ?_⟩
  · exact wRegister_rise_refused hp ho hc (hcommit.trans (statusWrite_reservedBit h7))
  · rw [wRegister_rise_completes hp ho hc (hcommit.trans (statusWrite_clears h7)) (irqN_clearFlags v (popAction s))]
    simp only [closeFrame, clearFlags, popAction, hp, List.tail_cons, hflag]

/-- Settles O21: a byte passes both checks exactly when it is legal, and then `storeByte` writes that register alone. -/
theorem writeByteRegisterCommits : Obligations.WriteByteRegisterCommits := by
  unfold Obligations.WriteByteRegisterCommits
  intro s r c v rest hr hp ho hc hn hb
  have hcommit : commitWrite r (popAction s) = byteWrite r v (popAction s) := commitWrite_eq_byteWrite hr hn hb
  refine ⟨fun hw => ?_, fun hw hx hv => ?_, fun hw hv => ⟨storeByte r v s.regs, ?_, ?_, ?_, ?_⟩⟩
  · exact wRegister_rise_refused hp ho hc (hcommit.trans (byteWrite_reservedBit hw))
  · exact wRegister_rise_refused hp ho hc (hcommit.trans (byteWrite_payloadWidth hw hx hv))
  · have hstore : commitWrite r (popAction s) = .next { popAction s with regs := storeByte r v s.regs } :=
      commitWrite_byteReg hr (byteLegal_iff.2 ⟨hw, hv⟩) hn hb
    exact wRegister_rise_stores hp ho hc hstore (storeByte_config hr v s.regs)
  · exact storedByte_storeByte_self (.inl hr) v s.regs
  · exact fun r' hne => storedByte_storeByte_other hne v s.regs
  · exact storeByte_addresses r v s.regs

/-- Settles O22: `storeAddr` puts the five bytes in the register named, which for a pipe is one element of the vector of
the receive addresses. -/
theorem writeAddressRegisterCommits : Obligations.WriteAddressRegisterCommits := by
  unfold Obligations.WriteAddressRegisterCommits
  intro s c a q rest hp ho hc hn hb
  refine ⟨?_, s.regs.rxAddr.set q a, ?_, ?_, fun q' hne => ?_⟩
  · exact wRegister_rise_addrReg hp ho hc rfl hn hb
  · exact wRegister_rise_addrReg hp ho hc rfl hn hb
  · exact Vector.getElem_set_self q.isLt
  · exact Vector.getElem_set_ne q.isLt q'.isLt fun h => hne (Fin.ext h.symm)

/-- Settles O18: the length check is the first thing a register write does (R105). -/
theorem writeLengthIsChecked : Obligations.WriteLengthIsChecked := by
  unfold Obligations.WriteLengthIsChecked
  intro s r c rest hp ho hc hn
  exact wRegister_rise_refused hp ho hc (commitWrite_of_length_ne (s := popAction s) hn)

/-- Settles O23: a data phase of the right length reaches the refusal of a read-only register. -/
theorem writeFifoStatusIsRefused : Obligations.WriteFifoStatusIsRefused := by
  unfold Obligations.WriteFifoStatusIsRefused
  intro s c rest hp ho hc hn
  exact wRegister_rise_refused hp ho hc (commitWrite_of_width (s := popAction s) (r := .fifoStatus) hn)

end Sys2Proof.Machine

/-! PROOFS of the statements of spec/41_fifo_commands.md: the commits of the packet FIFO commands, what they leave
alone, and the order in which the entries of both FIFOs leave. -/

namespace Sys2Proof.Machine

/-! ### The rise of chip-select over a latched command (R83) -/

section
variable {data : Byte → State → Host.Outcome State Fault Refusal}
  {commit : State → Host.Outcome State Fault Refusal} {s : State} {c : Byte} {rest : List Action}
  (hp : s.pending = .csnRise :: rest) (ho : s.frOpen = true) (hc : s.frCmd = some c)
include hp ho hc

/-- What a command's commit is refused for, the rise is refused for. -/
theorem runCommand_rise_refused {e : Refusal} (hu : commit (popAction s) = .refused e) :
    runCommand data commit s = .refused e := by
  rw [runCommand_csnRise hp, riseStep_some (s := popAction s) ho hc, hu, andThen_refused]

/-- A commit that leaves the interrupt line where it was emits no edge: the frame closes with what it left. -/
theorem runCommand_rise_completes {u : State} (hu : commit (popAction s) = .next u) (hi : irqN u = irqN s) :
    runCommand data commit s = .next (closeFrame u) := by
  rw [runCommand_csnRise hp, riseStep_some (s := popAction s) ho hc, hu, andThen_next,
    settleIrq_of_irqN_eq (s := popAction s) ((busOnly_irqN (busOnly_closeFrame u)).trans hi)]

end

/-! ### The commits of the packet FIFO commands, case by case (R131 to R134) -/

section
variable {s : State} {k : TxKind}

/-- A payload read without a data byte is refused (R131). -/
theorem commitPop_without_data (h : s.frIdx = 0) : commitPop s = .refused .payloadReadWithoutData := if_pos h

/-- A payload of no byte or of more than 32 is refused (R132, R133). -/
theorem commitPush_length (h : s.frIdx = 0 ∨ 32 < s.frIdx) :
    commitPush k s = .refused (.payloadLength s.frIdx) := if_pos h

/-- With the length in range, the commit turns on the room in TXF (R132, R133). -/
theorem commitPush_of_length (h1 : 1 ≤ s.frIdx) (h32 : s.frIdx ≤ 32) :
    commitPush k s = if txFull s = true then .refused .txFifoFull
      else .next (pushTx { kind := k, data := s.frBuf } s) :=
  if_neg (not_or.2 ⟨Nat.one_le_iff_ne_zero.1 h1, Nat.not_lt.2 h32⟩)

theorem txFull_iff : txFull s = true ↔ s.txf.length = s.params.fifoDepth := beq_iff_eq

/-- FLUSH_TX is refused during a transmission (R134, D26). -/
theorem commitFlushTx_of_txActive (h : s.txActive = true) :
    commitFlushTx s = .refused .flushWhileTransmitting := if_pos h

theorem commitFlushTx_of_idle (h : s.txActive = false) : commitFlushTx s = .next { s with txf := [] } :=
  if_neg (Bool.eq_false_iff.1 h)

end

/-- Settles O26: the commit is refused, or takes the tail of RXF, which for an empty FIFO is the FIFO. -/
theorem readPayloadPopsTheHead : Obligations.ReadPayloadPopsTheHead := by
  unfold Obligations.ReadPayloadPopsTheHead
  intro s c rest hp ho hc
  have hpops : s.frIdx ≠ 0 → exec .rRxPayload s = .next (closeFrame (popRx (popAction s))) := fun hn =>
    runCommand_rise_completes hp ho hc (commitPop_of_data (s := popAction s) hn) rfl
  refine ⟨fun h0 => ?_, fun hn e es hf => ?_, fun hn hf => ?_⟩
  · exact runCommand_rise_refused hp ho hc (commitPop_without_data (s := popAction s) h0)
  · rw [hpops hn]; simp only [closeFrame, popRx, popAction, hp, hf, List.tail_cons]
  · rw [hpops hn]; simp only [closeFrame, popRx, popAction, hp, hf, List.tail_cons, List.tail_nil]

/-! ### The two payload writes (R132, R133) -/

/-- The rise over a payload write: refused for its length, refused for want of room, or the buffered bytes are one
entry of the command's kind at the tail of TXF (R132, R133). -/
theorem payloadWrite_rise (k : TxKind) {s : State} {c : Byte} {rest : List Action} (hp : s.pending = .csnRise :: rest)
    (ho : s.frOpen = true) (hc : s.frCmd = some c) :
    (s.frIdx = 0 ∨ 32 < s.frIdx →
      runCommand bufferData (commitPush k) s = .refused (.payloadLength s.frIdx))
    ∧ (1 ≤ s.frIdx → s.frIdx ≤ 32 → s.txf.length = s.params.fifoDepth →
      runCommand bufferData (commitPush k) s = .refused .txFifoFull)
    ∧ (1 ≤ s.frIdx → s.frIdx ≤ 32 → s.txf.length ≠ s.params.fifoDepth →
      runCommand bufferData (commitPush k) s = .next { s with
        pending := rest, csn := true, frOpen := false, frCmd := none, frIdx := 0, frBuf := []
        txf := s.txf ++ [{ kind := k, data := s.frBuf }] }) := by
  refine ⟨fun h => ?_, fun h1 h32 hfull => ?_, fun h1 h32 hroom => ?_⟩
  · exact runCommand_rise_refused hp ho hc (commitPush_length (s := popAction s) h)
  · exact runCommand_rise_refused hp ho hc
      ((commitPush_of_length (s := popAction s) h1 h32).trans (if_pos (txFull_iff.2 hfull)))
  · rw [runCommand_rise_completes hp ho hc
      ((commitPush_of_length (s := popAction s) h1 h32).trans (if_neg (mt txFull_iff.1 hroom))) rfl]
    simp only [closeFrame, pushTx, popAction, hp, List.tail_cons]

/-- W_ACK_PAYLOAD with a pipe in its field is a payload write of that pipe's kind (R86, R133). -/
theorem exec_wAckPayload_pipe (q : Pipe) (s : State) :
    exec (.wAckPayload (BitVec.ofNat 3 q.val)) s = runCommand bufferData (commitPush (.ack q)) s := by
  have hq : (BitVec.ofNat 3 q.val).toNat = q.val := by rw [BitVec.toNat_ofNat]; omega
  simp only [exec, execWAckPayload, hq, q.isLt, ↓reduceDIte, Fin.eta]

/-- Settles O28: a payload write of kind Tx. -/
theorem writeTxPayloadPushes : Obligations.WriteTxPayloadPushes := by
  unfold Obligations.WriteTxPayloadPushes
  intro s c rest hp ho hc
  exact payloadWrite_rise .tx hp ho hc

/-- Settles O29: a payload write of kind Ack, for every pipe. -/
theorem writeAckPayloadPushes : Obligations.WriteAckPayloadPushes := by
  unfold Obligations.WriteAckPayloadPushes
  intro s c q rest hp ho hc
  rw [exec_wAckPayload_pipe]
  exact payloadWrite_rise (.ack q) hp ho hc

/-! ### The two flushes (R134, R135) -/

/-- Settles O30: the guard on `tx_active` is the commit's. -/
theorem flushTxEmptiesTheFifo : Obligations.FlushTxEmptiesTheFifo := by
  unfold Obligations.FlushTxEmptiesTheFifo
  intro s c rest hp ho hc
  refine ⟨fun ht => ?_, fun ht => ?_⟩
  · exact runCommand_rise_refused hp ho hc (commitFlushTx_of_txActive (s := popAction s) ht)
  · have hx : exec .flushTx s = _ :=
      runCommand_rise_completes hp ho hc (commitFlushTx_of_idle (s := popAction s) ht) rfl
    rw [hx]
    simp only [closeFrame, popAction, hp, List.tail_cons]

/-- With RXF empty, RX_P_NO is `0b111` and RX_EMPTY is 1, and RX_FULL is 0 where the FIFO has room for an entry
(R27, R37). -/
theorem derivedBits_of_rxf_nil {s : State} (h : s.rxf = []) :
    (status s).extractLsb' 1 3 = 0b111#3 ∧ (fifoStatus s).getLsbD 0 = true
      ∧ (1 ≤ s.params.fifoDepth → (fifoStatus s).getLsbD 1 = false) := by
  obtain ⟨-, -, -, -, hpipe, -⟩ := statusBits s
  obtain ⟨-, -, -, -, -, -, hfull, hempty⟩ := fifoStatusBits s
  refine ⟨hpipe h, hempty.2 h, fun hdepth => Bool.eq_false_iff.2 fun hf => ?_⟩
  have hlen := hfull.1 hf
  rw [h, List.length_nil] at hlen
  omega

/-- Settles O31: the commit has no condition, the frame's only reply is the STATUS of its command byte, sampled before
the commit, and the derived bits afterwards are those of an empty RXF. -/
theorem flushRxEmptiesTheFifo : Obligations.FlushRxEmptiesTheFifo := by
  unfold Obligations.FlushRxEmptiesTheFifo
  intro s b c rest
  refine ⟨fun hp ho hc => ?_, fun hp ho => ⟨_, ?_, rfl, derivedBits_of_rxf_nil rfl⟩, rfl, by decide⟩
  · have hx : exec .flushRx s = .next (closeFrame { popAction s with rxf := [] }) :=
      runCommand_rise_completes (commit := commitFlushRx) hp ho hc rfl rfl
    rw [hx]
    simp only [closeFrame, popAction, hp, List.tail_cons]
  · have hx : exec .flushRx s = .next (closeFrame { latchedFrame b s with rxf := [] }) :=
      runCommand_frame_completes (commit := commitFlushRx) refuseData_sound hp ho rfl rfl rfl
    rw [hx]
    simp only [closeFrame, latchedFrame, hp, List.tail_cons]

/-! ### What the commits do to the FIFOs (R139, R140) -/

/-- A commit other than a register write's changes nothing, removes the head of RXF, queues one entry at the tail of
TXF, or empties one of the two FIFOs (R100, R131 to R136). -/
theorem commitOf_fifo_cases {i : Instr} {s t : State} (hw : ∀ r, i ≠ .wRegister r) (h : commitOf i s = .next t) :
    t = s ∨ t = popRx s ∨ (∃ e, t = pushTx e s) ∨ t = { s with txf := [] } ∨ t = { s with rxf := [] } := by
  cases i with
  | rRegister r => cases h; exact .inl rfl
  | wRegister r => exact absurd rfl (hw r)
  | rRxPayload => exact .inr (.inl (commitPop_cases h).2)
  | wTxPayload =>
      obtain ⟨-, -, -, ht⟩ := commitPush_cases h
      exact .inr (.inr (.inl ⟨_, ht⟩))
  | wAckPayload ppp =>
      simp only [commitOf] at h
      split at h
      · obtain ⟨-, -, -, ht⟩ := commitPush_cases h
        exact .inr (.inr (.inl ⟨_, ht⟩))
      · cases h
  | flushTx => exact .inr (.inr (.inr (.inl (commitFlushTx_cases h).2)))
  | flushRx => cases h; exact .inr (.inr (.inr (.inr rfl)))
  | nop => cases h; exact .inl rfl
  | reserved b => cases h

/-- `t` differs from `s` in nothing but the two FIFOs. -/
def fifosOnly (s t : State) : Prop := t = { s with txf := t.txf, rxf := t.rxf }

theorem commitOf_fifosOnly {i : Instr} {s t : State} (hw : ∀ r, i ≠ .wRegister r) (h : commitOf i s = .next t) :
    fifosOnly s t := by
  rcases commitOf_fifo_cases hw h with rfl | rfl | ⟨e, rfl⟩ | rfl | rfl
  all_goals rfl

/-- The line depends on no FIFO (R15). -/
theorem fifosOnly_irqN {s t : State} (h : fifosOnly s t) : irqN t = irqN s := by rw [h]; rfl

/-- Settles O33: up to its commit a command touches only the bus, and its commit only the FIFOs, so that no edge follows
it. -/
theorem fifoCommandsKeepFlagsAndLine : Obligations.FifoCommandsKeepFlagsAndLine := by
  unfold Obligations.FifoCommandsKeepFlagsAndLine
  intro s t i hi h
  have hw : ∀ r, i ≠ .wRegister r := by
    rintro r rfl
    simp at hi
  rcases exec_cases h with hb | ⟨v, u, hb, hu, rfl, -⟩
  · obtain ⟨-, hce, hact, -, -, hrx, htx, hmax, hregs, -, hedges⟩ := busOnly_fields hb
    exact ⟨hrx, htx, hmax, hregs, busOnly_irqN hb, hedges, hce, hact⟩
  · have hf : fifosOnly v u := commitOf_fifosOnly hw hu
    have hline : irqN (closeFrame u) = irqN v := (busOnly_irqN (busOnly_closeFrame u)).trans (fifosOnly_irqN hf)
    obtain ⟨-, hce, hact, -, -, hrx, htx, hmax, hregs, -, hedges⟩ := busOnly_fields hb
    rw [settleIrq_of_irqN_eq hline, hline, busOnly_irqN hb, hf]
    exact ⟨hrx, htx, hmax, hregs, rfl, hedges, hce, hact⟩

/-! ### The end of an acknowledgement (R168) -/

/-- Where `EV_ACK_DONE` is not enabled on its pipe, or the pipe does not exist, it changes nothing. -/
theorem evAckDone_of_disabled {p : Nat} {s : State} (h : ∀ q : Pipe, q.val = p → evAckEnabled s q = false) :
    evAckDone p s = s := by
  unfold evAckDone
  split
  · rename_i hlt
    rw [if_neg (by simp [h ⟨p, hlt⟩ rfl])]
  · rfl

/-- Where it is enabled, the oldest entry of the pipe leaves TXF and TX_DS is set (R139, R168). -/
theorem evAckDone_of_enabled {q : Pipe} {s : State} (h : evAckEnabled s q = true) :
    evAckDone q.val s = settleIrq s { s with txf := removeAck q s.txf, txDs := true } := by
  rw [evAckDone, dif_pos q.isLt, if_pos h]

/-- Settles O40: with an entry of the pipe named, the guard holds and `removeAck` takes that entry; the edge is that of
setting TX_DS. -/
theorem ackDoneEventRemovesTheOldest : Obligations.AckDoneEventRemovesTheOldest := by
  unfold Obligations.AckDoneEventRemovesTheOldest
  intro s p rest hp
  have hstep : step s = .next (evAckDone p (popAction s)) := by simp only [step, hp]
  refine ⟨fun q pre post e hq hm hpay hf hk hpre => ?_, fun h => ?_⟩
  · have hon : evAckEnabled (popAction s) q = true :=
      (evAckEnabled_iff _ q).2 ⟨hm, ⟨e, by simp [hf], hk⟩, hpay⟩
    have hfall : irqN s = true → (irqN { popAction s with txf := pre ++ post, txDs := true } = false
        ↔ s.regs.config.getLsbD 5 = false) := irqN_set_txDs (popAction s) (pre ++ post) s.txActive
    rw [hstep, ← hq, evAckDone_of_enabled hon, popAction_txf, hf, removeAck_append hk hpre,
      settleIrq_eq_ite (s := popAction s) hfall]
    simp only [popAction, hp, List.tail_cons]
    rfl
  · rw [hstep, evAckDone_of_disabled fun q hq => ?_]
    · simp only [popAction, hp, List.tail_cons]
    · refine Bool.eq_false_iff.2 fun hon => ?_
      obtain ⟨hm, ⟨e, he, hk⟩, hpay⟩ := (evAckEnabled_iff _ q).1 hon
      rcases h with h | h | h
      · exact h hm
      · exact Bool.eq_false_iff.1 h hpay
      · exact h e he q hq hk

/-! ### First in, first out (R139) -/

/-- A FIFO is as it was, has lost its head, is empty, or has one entry more at its tail. -/
abbrev firstInFirstOut {α : Type} (l l' : List α) : Prop :=
  l' = l ∨ l' = l.tail ∨ l' = [] ∨ ∃ e, l' = l ++ [e]

theorem commitWrite_fifos {r : Reg} {s t : State} (h : commitWrite r s = .next t) :
    t.rxf = s.rxf ∧ t.txf = s.txf := by
  rcases commitWrite_cases h with ⟨v, -, -, -, rfl⟩ | ⟨v, -, rfl⟩ | ⟨v, -, -, rfl⟩ | ⟨a, -, rfl⟩
  all_goals exact ⟨rfl, rfl⟩

/-- Every commit keeps both FIFOs first-in first-out. -/
theorem commitOf_firstInFirstOut {i : Instr} {s t : State} (h : commitOf i s = .next t) :
    firstInFirstOut s.rxf t.rxf ∧ firstInFirstOut s.txf t.txf := by
  by_cases hw : ∃ r, i = .wRegister r
  · obtain ⟨r, rfl⟩ := hw
    exact (commitWrite_fifos h).imp .inl .inl
  · rcases commitOf_fifo_cases (not_exists.1 hw) h with rfl | rfl | ⟨e, rfl⟩ | rfl | rfl
    · exact ⟨.inl rfl, .inl rfl⟩
    · exact ⟨.inr (.inl rfl), .inl rfl⟩
    · exact ⟨.inl rfl, .inr (.inr (.inr ⟨e, rfl⟩))⟩
    · exact ⟨.inl rfl, .inr (.inr (.inl rfl))⟩
    · exact ⟨.inr (.inr (.inl rfl)), .inl rfl⟩

/-- `EV_ACK_DONE` takes the oldest entry of its pipe out of TXF, from wherever it stands (R139, R168). -/
abbrev ackRemoved (s t : State) : Prop :=
  ∃ (q : Pipe) (pre post : List TxEntry) (e : TxEntry) (rest : List Action),
    s.pending = .evAckDone q.val :: rest ∧ s.txf = pre ++ e :: post ∧ e.kind = .ack q
      ∧ (∀ x ∈ pre, x.kind ≠ .ack q) ∧ t.txf = pre ++ post

/-- Every step keeps both FIFOs first-in first-out, but for `EV_ACK_DONE` on TXF (R139). -/
theorem step_firstInFirstOut {s t : State} (h : step s = .next t) :
    firstInFirstOut s.rxf t.rxf ∧ (firstInFirstOut s.txf t.txf ∨ ackRemoved s t) := by
  have hsame : ∀ {u : State}, u.rxf = s.rxf → u.txf = s.txf →
      firstInFirstOut s.rxf u.rxf ∧ (firstInFirstOut s.txf u.txf ∨ ackRemoved s u) :=
    fun hrx htx => ⟨.inl hrx, .inl (.inl htx)⟩
  rcases step_cases h with hb | ⟨i, v, u, hb, hu, rfl, -⟩ | ⟨w, rest, -, rfl⟩ | ⟨r, rest, -, rfl⟩
    | ⟨rest, -, rfl⟩ | ⟨rest, -, rfl⟩ | ⟨rest, -, rfl⟩ | ⟨rest, -, rfl⟩ | ⟨p, d, rest, -, rfl⟩
    | ⟨rest, -, rfl⟩ | ⟨rest, -, rfl⟩ | ⟨p, rest, hp, rfl⟩ | ⟨rest, -, rfl⟩
  · obtain ⟨-, -, -, htx, hrx, -⟩ := busOnly_fields hb
    exact hsame hrx htx
  · obtain ⟨-, -, -, htx, hrx, -⟩ := busOnly_fields hb
    simp only [settleIrq_rxf, settleIrq_txf, closeFrame_rxf, closeFrame_txf, ← htx, ← hrx]
    exact (commitOf_firstInFirstOut hu).imp_right .inl
  · exact hsame rfl rfl
  · exact hsame rfl rfl
  · exact hsame rfl rfl
  · exact hsame rfl rfl
  · rw [cePulse_eq]; exact hsame rfl rfl
  · rw [txStart_eq]; exact hsame rfl rfl
  · rcases evRx_shape p d (popAction s) with he | ⟨e, he⟩ <;> rw [he]
    · exact hsame rfl rfl
    · exact ⟨.inr (.inr (.inr ⟨e, settleIrq_rxf _ _⟩)), .inl (.inl (settleIrq_txf _ _))⟩
  · rcases evTxOk_cases (popAction s) with he | ⟨-, he⟩ <;> rw [he]
    · exact hsame rfl rfl
    · exact ⟨.inl (settleIrq_rxf _ _), .inl (.inr (.inl (settleIrq_txf _ _)))⟩
  · rcases evTxFail_cases (popAction s) with he | ⟨-, he⟩ <;> rw [he]
    · exact hsame rfl rfl
    · exact hsame (settleIrq_rxf _ _) (settleIrq_txf _ _)
  · rcases evAckDone_cases p (popAction s) with he | ⟨q, pre, post, e, rfl, -, hf, hk, hpre, he⟩ <;> rw [he]
    · exact hsame rfl rfl
    · exact ⟨.inl (settleIrq_rxf _ _), .inr ⟨q, pre, post, e, rest, hp, hf, hk, hpre, settleIrq_txf _ _⟩⟩
  · exact ⟨.inr (.inr (.inl rfl)), .inl (.inr (.inr (.inl rfl)))⟩

/-- Settles O52, by `step_firstInFirstOut`. -/
theorem fifosAreFirstInFirstOut : Obligations.FifosAreFirstInFirstOut := by
  unfold Obligations.FifosAreFirstInFirstOut
  intro s t h
  simpa only [firstInFirstOut, ackRemoved, or_assoc] using step_firstInFirstOut h

end Sys2Proof.Machine

/-! PROOFS of the statements of spec/42_mode_fsm.md: the operating mode, the enable line, `TxStart`, the radio's events
of reception and transmission, when a transmission begins and ends, and `send_packet`. -/

namespace Sys2Proof.Machine

/-! ### The operating mode (R150, R152) -/

/-- Settles O14, along the branches of R150: PWR_UP, then PRIM_RX, then the enable line or `tx_active`. -/
theorem modeFunction : Obligations.ModeFunction := by
  unfold Obligations.ModeFunction
  intro s
  cases hu : s.regs.config.getLsbD 1 with
  | false => simp [mode_of_not_pwrUp hu]
  | true =>
      cases hr : s.regs.config.getLsbD 0 with
      | true => rw [mode_of_primRx hu hr]; cases s.ce <;> simp
      | false => rw [mode_of_primTx hu hr]; cases s.txActive <;> simp

theorem mode_eq_powerDown_iff (s : State) : mode s = .powerDown ↔ pwrUp s = false := (modeFunction s).1

theorem mode_eq_transmitting_iff (s : State) :
    mode s = .transmitting ↔ pwrUp s = true ∧ primRx s = false ∧ s.txActive = true := by
  obtain ⟨-, -, -, h, -⟩ := modeFunction s
  exact h

/-- The line going high takes ReceiveReady to Listening and is without effect on every other mode (R152, R155). -/
theorem mode_ceHigh (s : State) : mode (ceHigh s) = if mode s = .receiveReady then .listening else mode s := by
  cases hu : pwrUp s with
  | false => rw [mode_of_not_pwrUp hu, mode_of_not_pwrUp (s := ceHigh s) hu]; rfl
  | true =>
      cases hr : primRx s with
      | true => rw [mode_of_primRx hu hr, mode_of_primRx (s := ceHigh s) hu hr]; cases s.ce <;> rfl
      | false => rw [mode_of_primTx hu hr, mode_of_primTx (s := ceHigh s) hu hr]; cases h : s.txActive <;> simp [h]

/-- The line going low takes Listening to ReceiveReady and is without effect on every other mode (R152, R156). -/
theorem mode_ceLow (s : State) : mode (ceLow s) = if mode s = .listening then .receiveReady else mode s := by
  cases hu : pwrUp s with
  | false => rw [mode_of_not_pwrUp hu, mode_of_not_pwrUp (s := ceLow s) hu]; rfl
  | true =>
      cases hr : primRx s with
      | true => rw [mode_of_primRx hu hr, mode_of_primRx (s := ceLow s) hu hr]; cases s.ce <;> rfl
      | false => rw [mode_of_primTx hu hr, mode_of_primTx (s := ceLow s) hu hr]; cases h : s.txActive <;> simp [h]

/-! ### The steps that are not bus frames (R155 to R167) -/

section
variable {s : State} {rest : List Action}

theorem popAction_of_pending {a : Action} (hp : s.pending = a :: rest) : popAction s = { s with pending := rest } := by
  rw [popAction, hp, List.tail_cons]

theorem step_ceHigh (hp : s.pending = .ceHigh :: rest) : step s = .next (ceHigh { s with pending := rest }) := by
  simp only [step, hp, popAction_of_pending hp]

theorem step_ceLow (hp : s.pending = .ceLow :: rest) : step s = .next (ceLow { s with pending := rest }) := by
  simp only [step, hp, popAction_of_pending hp]

theorem step_cePulse (hp : s.pending = .cePulse :: rest) : step s = .next (cePulse { s with pending := rest }) := by
  simp only [step, hp, popAction_of_pending hp]

theorem step_txStart (hp : s.pending = .txStart :: rest) : step s = .next (txStart { s with pending := rest }) := by
  simp only [step, hp, popAction_of_pending hp]

theorem step_evRx {p : Nat} {d : List Byte} (hp : s.pending = .evRx p d :: rest) :
    step s = .next (evRx p d { s with pending := rest }) := by
  simp only [step, hp, popAction_of_pending hp]

theorem step_evTxOk (hp : s.pending = .evTxOk :: rest) : step s = .next (evTxOk { s with pending := rest }) := by
  simp only [step, hp, popAction_of_pending hp]

theorem step_evTxFail (hp : s.pending = .evTxFail :: rest) : step s = .next (evTxFail { s with pending := rest }) := by
  simp only [step, hp, popAction_of_pending hp]

end

/-- Settles O34: the line is all the two steps write, and the mode follows by `mode_ceHigh` and `mode_ceLow`. -/
theorem enableLineSteps : Obligations.EnableLineSteps := by
  unfold Obligations.EnableLineSteps
  intro s rest
  refine ⟨fun hp => ⟨_, step_ceHigh hp, rfl, ?_⟩, fun hp => ⟨_, step_ceLow hp, rfl, ?_⟩⟩
  · exact mode_ceHigh { s with pending := rest }
  · exact mode_ceLow { s with pending := rest }

/-! ### `TxStart` and the pulse (R157, R160) -/

theorem txStart_of_enabled {s : State} (h : txStartEnabled s = true) : txStart s = { s with txActive := true } := if_pos h

theorem txStart_of_disabled {s : State} (h : ¬txStartEnabled s = true) : txStart s = s := if_neg h

/-- Settles O35: the two cases are the two values of the guard of R160. -/
theorem txStartCommitsTheHead : Obligations.TxStartCommitsTheHead := by
  unfold Obligations.TxStartCommitsTheHead
  intro s rest hp
  have hguard := txStartEnabled_iff { s with pending := rest }
  rw [step_txStart hp]
  refine ⟨fun h => ?_, fun h => ?_⟩
  · rw [txStart_of_enabled (hguard.2 h)]
  · rw [txStart_of_disabled (mt hguard.1 h)]

/-- With the line just raised, the guard of R160 asks nothing of it. -/
theorem txStartEnabled_ceHigh_iff (s : State) : txStartEnabled (ceHigh s) = true ↔
    pwrUp s = true ∧ primRx s = false ∧ s.txActive = false ∧ s.maxRt = false
      ∧ ∃ e es, s.txf = e :: es ∧ e.kind = .tx := by
  rw [txStartEnabled_iff, ceHigh_ce, eq_self, true_and]
  rfl

/-- Settles O36: the two cases are the two values of the guard of R160 with the line high; the line is low
afterwards. -/
theorem cePulseCommitsOrNot : Obligations.CePulseCommitsOrNot := by
  unfold Obligations.CePulseCommitsOrNot
  intro s rest hp
  have hguard := txStartEnabled_ceHigh_iff { s with pending := rest }
  rw [step_cePulse hp, cePulse]
  refine ⟨fun h => ?_, fun h => ?_⟩
  · rw [txStart_of_enabled (hguard.2 h)]; rfl
  · rw [txStart_of_disabled (mt hguard.1 h)]; rfl

/-! ### The radio's events (R165 to R167) -/

/-- Where `EV_RX` is not enabled on its pipe, or the pipe does not exist, it changes nothing (R165). -/
theorem evRx_of_disabled {p : Nat} {d : List Byte} {s : State}
    (h : ∀ q : Pipe, q.val = p → ¬evRxEnabled s q d = true) : evRx p d s = s := by
  unfold evRx
  split
  · rename_i hlt
    rw [if_neg (h ⟨p, hlt⟩ rfl)]
  · rfl

/-- Where it is enabled, the payload is queued and RX_DR is set (R165). -/
theorem evRx_of_enabled {q : Pipe} {d : List Byte} {s : State} (h : evRxEnabled s q d = true) :
    evRx q.val d s = settleIrq s { s with rxf := s.rxf ++ [{ pipe := q, data := d }], rxDr := true } := by
  rw [evRx, dif_pos q.isLt, if_pos h]
  rfl

/-- Settles O37: with the guard of R165 true the edge is that of setting RX_DR; each disjunct of the second clause makes
the guard false on every pipe of that number. -/
theorem rxEventQueuesThePayload : Obligations.RxEventQueuesThePayload := by
  unfold Obligations.RxEventQueuesThePayload
  intro s p d rest hp
  rw [step_evRx hp]
  refine ⟨fun q hq hm hen hroom hlen => ?_, fun h => ?_⟩
  · subst hq
    have hon : evRxEnabled { s with pending := rest } q d = true := (evRxEnabled_iff _ q d).2 ⟨hm, hen, hroom, hlen⟩
    rw [evRx_of_enabled hon, settleIrq_eq_ite (irqN_set_rxDr { s with pending := rest } _)]
    rfl
  · rw [evRx_of_disabled fun q hq hon => ?_]
    obtain ⟨hm, hen, hroom, hlen⟩ := (evRxEnabled_iff _ q d).1 hon
    subst hq
    rcases h with h | h | h | h | ⟨q', hq', h⟩
    · exact absurd q.isLt (Nat.not_lt.2 h)
    · exact h hm
    · exact Bool.eq_false_iff.1 h hen
    · exact absurd hroom (Nat.not_lt.2 h)
    · exact h (Fin.ext hq' ▸ hlen)

/-- Settles O38: the guard of R166 is `tx_active`, the edge is that of setting TX_DS. -/
theorem txOkEventCompletes : Obligations.TxOkEventCompletes := by
  unfold Obligations.TxOkEventCompletes
  intro s rest hp
  rw [step_evTxOk hp]
  refine ⟨fun ht => ?_, fun ht => ?_⟩
  · rw [evTxOk, if_pos ht]
    exact congrArg _ (settleIrq_eq_ite (irqN_set_txDs { s with pending := rest } s.txf.tail false))
  · rw [evTxOk, if_neg (Bool.eq_false_iff.1 ht)]

/-- Settles O39: the guard of R167 asks for a transmission and EN_AA bit 0, the edge is that of setting MAX_RT. -/
theorem txFailEventKeepsThePayload : Obligations.TxFailEventKeepsThePayload := by
  unfold Obligations.TxFailEventKeepsThePayload
  intro s rest hp
  rw [step_evTxFail hp]
  refine ⟨fun ht haa => ?_, fun h => ?_⟩
  · rw [evTxFail, if_pos ⟨ht, haa⟩]
    exact congrArg _ (settleIrq_eq_ite (irqN_set_maxRt { s with pending := rest } false))
  · have hoff : ¬(s.txActive = true ∧ s.regs.enAa.getLsbD 0 = true) := fun ⟨ht, haa⟩ =>
      h.elim (Bool.eq_false_iff.1 · ht) (Bool.eq_false_iff.1 · haa)
    rw [evTxFail, if_neg hoff]

/-! ### What leaves PowerDown (R153, R261) -/

/-- The only commit that touches CONFIG is that of a write of CONFIG (R105). -/
theorem commitOf_config {i : Instr} {s t : State} (h : commitOf i s = .next t) :
    t.regs.config = s.regs.config ∨ i = .wRegister .config := by
  rcases commitOf_regs h with hr | ⟨r, rfl⟩
  · exact .inl (by rw [hr])
  · rcases commitWrite_cases h with ⟨v, rfl, -⟩ | ⟨v, -, rfl⟩ | ⟨v, hr, -, rfl⟩ | ⟨a, -, rfl⟩
    · exact .inr rfl
    · exact .inl rfl
    · exact .inl (storeByte_config hr v s.regs)
    · exact .inl (storeAddr_config r a s.regs)

/-- CONFIG is as it was, or a frame that writes it ended, or the supply's reset gave it its reset value (R71, R169). -/
theorem step_config {s t : State} (h : step s = .next t) :
    t.regs.config = s.regs.config ∨ endsFrameOf s (.wRegister .config)
      ∨ t.regs.config = s.params.resetRegs.config := by
  rcases step_cases h with hb | ⟨i, v, u, hb, hu, rfl, he⟩ | ⟨w, rest, -, rfl⟩ | ⟨r, rest, -, rfl⟩
    | ⟨rest, -, rfl⟩ | ⟨rest, -, rfl⟩ | ⟨rest, -, rfl⟩ | ⟨rest, -, rfl⟩ | ⟨p, d, rest, hp, -⟩
    | ⟨rest, hp, -⟩ | ⟨rest, hp, -⟩ | ⟨p, rest, hp, -⟩ | ⟨rest, -, rfl⟩
  · exact .inl (by rw [hb])
  · rcases commitOf_config hu with hc | rfl
    · exact .inl (by rw [settleIrq_regs, closeFrame_regs, hc, hb])
    · exact .inr (.inl he)
  · exact .inl rfl
  · exact .inl rfl
  · exact .inl rfl
  · exact .inl rfl
  · rw [cePulse_eq]; exact .inl rfl
  · rw [txStart_eq]; exact .inl rfl
  · exact .inl (by rw [step_radioEvent_regs rfl hp h])
  · exact .inl (by rw [step_radioEvent_regs rfl hp h])
  · exact .inl (by rw [step_radioEvent_regs rfl hp h])
  · exact .inl (by rw [step_radioEvent_regs rfl hp h])
  · exact .inr (.inr rfl)

/-- The reset value of CONFIG has PWR_UP 0 (R261). -/
theorem paramsOk_resetPwrUp {p : Params} (h : paramsOk p = true) : p.resetRegs.config.getLsbD 1 = false := by
  simp only [paramsOk, Bool.and_eq_true, Bool.not_eq_true'] at h
  obtain ⟨⟨⟨⟨-, hpwr⟩, -⟩, -⟩, -⟩ := h
  exact hpwr

/-- Settles O49: PowerDown is PWR_UP 0, a bit of CONFIG, which neither an unchanged CONFIG nor its reset value sets. -/
theorem powerDownIsLeftOnlyByConfigWrite : Obligations.PowerDownIsLeftOnlyByConfigWrite := by
  unfold Obligations.PowerDownIsLeftOnlyByConfigWrite
  intro s t hok h hs ht
  rw [mode_eq_powerDown_iff, pwrUp] at hs
  rw [Ne, mode_eq_powerDown_iff, pwrUp] at ht
  rcases step_config h with hc | he | hc
  · exact absurd (hc ▸ hs) ht
  · exact he
  · exact absurd (hc ▸ paramsOk_resetPwrUp hok) ht

/-! ### When a transmission begins and ends (R156, R160, R166, R167) -/

/-- No commit touches `tx_active` (R140, R169). -/
theorem commitOf_txActive {i : Instr} {s t : State} (h : commitOf i s = .next t) : t.txActive = s.txActive := by
  by_cases hw : ∃ r, i = .wRegister r
  · obtain ⟨r, rfl⟩ := hw
    rcases commitWrite_cases h with ⟨v, -, -, -, rfl⟩ | ⟨v, -, rfl⟩ | ⟨v, -, -, rfl⟩ | ⟨a, -, rfl⟩
    all_goals rfl
  · rw [commitOf_fifosOnly (not_exists.1 hw) h]

/-- `TxStart` leaves `tx_active` as it was, or sets it with no MAX_RT pending (R160). -/
theorem txStart_txActive (s : State) :
    (txStart s).txActive = s.txActive ∨ s.maxRt = false ∧ (txStart s).txActive = true := by
  by_cases hg : txStartEnabled s = true
  · obtain ⟨-, -, -, -, hmax, -⟩ := (txStartEnabled_iff s).1 hg
    rw [txStart_of_enabled hg]
    exact .inr ⟨hmax, rfl⟩
  · rw [txStart_of_disabled hg]
    exact .inl rfl

/-- `tx_active` is as it was; or it was set with no MAX_RT pending; or it was cleared by its completion event or by
reset (R160, R166, R167, R260). -/
theorem step_txActive {s t : State} (h : step s = .next t) :
    t.txActive = s.txActive
    ∨ (s.maxRt = false ∧ t.txActive = true)
    ∨ t.txActive = false ∧ ((∃ rest, s.pending = .evTxOk :: rest) ∨ (∃ rest, s.pending = .evTxFail :: rest)
        ∨ ∃ rest, s.pending = .reset :: rest) := by
  rcases step_cases h with hb | ⟨i, v, u, hb, hu, rfl, -⟩ | ⟨w, rest, -, rfl⟩ | ⟨r, rest, -, rfl⟩
    | ⟨rest, -, rfl⟩ | ⟨rest, -, rfl⟩ | ⟨rest, -, rfl⟩ | ⟨rest, -, rfl⟩ | ⟨p, d, rest, -, rfl⟩
    | ⟨rest, hp, rfl⟩ | ⟨rest, hp, rfl⟩ | ⟨p, rest, -, rfl⟩ | ⟨rest, hp, rfl⟩
  · exact .inl (by rw [hb])
  · exact .inl (by rw [settleIrq_txActive, closeFrame_txActive, commitOf_txActive hu, hb])
  · exact .inl rfl
  · exact .inl rfl
  · exact .inl rfl
  · exact .inl rfl
  · exact (txStart_txActive (ceHigh (popAction s))).imp_right .inl
  · exact (txStart_txActive (popAction s)).imp_right .inl
  · rcases evRx_shape p d (popAction s) with he | ⟨e, he⟩ <;> rw [he]
    · exact .inl rfl
    · exact .inl (settleIrq_txActive _ _)
  · rcases evTxOk_cases (popAction s) with he | ⟨-, he⟩ <;> rw [he]
    · exact .inl rfl
    · exact .inr (.inr ⟨settleIrq_txActive _ _, .inl ⟨rest, hp⟩⟩)
  · rcases evTxFail_cases (popAction s) with he | ⟨-, he⟩ <;> rw [he]
    · exact .inl rfl
    · exact .inr (.inr ⟨settleIrq_txActive _ _, .inr (.inl ⟨rest, hp⟩)⟩)
  · rcases evAckDone_cases p (popAction s) with he | ⟨_, _, _, _, _, _, _, _, _, he⟩ <;> rw [he]
    · exact .inl rfl
    · exact .inl (settleIrq_txActive _ _)
  · exact .inr (.inr ⟨rfl, .inr (.inr ⟨rest, hp⟩)⟩)

/-- Settles O50: the one way to set `tx_active` asks that no MAX_RT be pending. -/
theorem pendingMaxRtBlocksTransmission : Obligations.PendingMaxRtBlocksTransmission := by
  unfold Obligations.PendingMaxRtBlocksTransmission
  intro s t h hmax hs
  rcases step_txActive h with hsame | ⟨hm, -⟩ | ⟨ht, -⟩
  · exact hsame.trans hs
  · exact absurd hmax (Bool.eq_false_iff.1 hm)
  · exact ht

/-- Settles O51: of the three ways of `step_txActive` only the third clears the latch. -/
theorem transmissionEndsOnlyByCompletion : Obligations.TransmissionEndsOnlyByCompletion := by
  unfold Obligations.TransmissionEndsOnlyByCompletion
  intro s t h hs ht
  rcases step_txActive h with hsame | ⟨-, hset⟩ | ⟨-, hends⟩
  · exact absurd (hsame.trans hs) (Bool.eq_false_iff.1 ht)
  · exact absurd hset (Bool.eq_false_iff.1 ht)
  · exact hends

/-! ### `send_packet` (R205) -/

/-- The state after a whole frame of W_TX_PAYLOAD with the data bytes `ds`: one entry of kind Tx more at the tail of
TXF, the frame closed, each data byte answered with a free value (R82, R132). -/
def payloadQueued (ds : List Byte) (s : State) : State :=
  { s with
    pending := s.pending.tail, csn := true, frOpen := false, frCmd := none, frIdx := 0, frBuf := []
    reply := status s :: (List.range ds.length).map fun k => Config.draw (s.draws + k)
    draws := s.draws + ds.length, txf := s.txf ++ [{ kind := .tx, data := ds }] }

/-- The whole frame of W_TX_PAYLOAD, of 1 to 32 data bytes and with room in TXF (R93, R132). -/
theorem step_writeTxPayloadFrame {s : State} {ds : List Byte} {rest : List Action} (hm : s.params.mapOk = true)
    (ho : s.frOpen = false) (h1 : 1 ≤ ds.length) (h32 : ds.length ≤ 32) (hroom : s.txf.length ≠ s.params.fifoDepth)
    (hp : s.pending = .frame (encodeByte s.params .wTxPayload :: ds) :: rest) :
    step s = .next (payloadQueued ds s) := by
  obtain ⟨-, hdec, -⟩ := decodeByte_fixed hm
  let v := bufferedFrame s.params.opcWTxPayload ds s
  have hcommit : commitPush .tx v = .next (pushTx { kind := .tx, data := ds } v) :=
    (commitPush_of_length (s := v) h1 h32).trans (if_neg (mt txFull_iff.1 hroom))
  have hexec : exec .wTxPayload s = andThen (commitPush .tx v) fun t => .next (settleIrq v (closeFrame t)) :=
    (runCommand_frame hp).trans (frameStep_bufferData ho _ ds)
  rw [step_frame hp, encodeByte, hdec, sendCommand_of_none rfl, hexec, hcommit, andThen_next,
    settleIrq_of_irqN_eq (by rfl)]
  rfl

/-- Settles O59: the operation expands to the frame and the pulse; the frame puts the payload at the head of an empty
TXF, where the pulse commits it. -/
theorem sendPacketCommitsThePayload : Obligations.SendPacketCommitsThePayload := by
  unfold Obligations.SendPacketCommitsThePayload
  intro s buf rest hm hdepth ho hbuf hf hmax hmode hp
  obtain ⟨-, -, -, -, hready⟩ := modeFunction s
  obtain ⟨hpwr, hprim, hidle⟩ := hready.1 hmode
  let ds := buf.take maxPayload
  let s₁ : State := { s with pending := .frame (encodeByte s.params .wTxPayload :: ds) :: .cePulse :: rest }
  have hlen : 1 ≤ ds.length ∧ ds.length ≤ 32 := by
    have := List.length_pos_iff.2 hbuf
    rw [List.length_take, maxPayload]; omega
  have hroom : s.txf.length ≠ s.params.fifoDepth := by rw [hf, List.length_nil]; omega
  have hhead : (payloadQueued ds s₁).txf = [{ kind := .tx, data := ds }] := congrArg (· ++ _) hf
  have hexpand : step s = .next s₁ := step_op hp rfl
  have hframe : step s₁ = .next (payloadQueued ds s₁) := step_writeTxPayloadFrame hm ho hlen.1 hlen.2 hroom rfl
  have hpulse := (cePulseCommitsOrNot (payloadQueued ds s₁) rest rfl).1 ⟨hpwr, hprim, hidle, hmax, _, _, hhead, rfl⟩
  exact ⟨_, (runSteps_next hexpand 2).trans ((runSteps_next hframe 1).trans (runSteps_next hpulse 0)),
    rfl, hhead, (mode_eq_transmitting_iff _).2 ⟨hpwr, hprim, rfl⟩, rfl, rfl⟩

end Sys2Proof.Machine

/-! PROOFS of the statements of spec/43_host_sequences.md: the driver's setters, placed alone with their frames whole, or
with radio events between their steps. -/

namespace Sys2Proof.Machine

/-! ### Operations placed with no gap: each step gives the next state (R180) -/

/-- The state after a whole write frame of the 1-byte register (R110): the byte is stored, the frame closed, the data
byte answered with a free value. -/
def byteWritten (r : Reg) (v : Byte) (rest : List Action) (s : State) : State :=
  { closeFrame s with
    pending := rest, reply := [status s, Config.draw s.draws], draws := s.draws + 1, regs := storeByte r v s.regs }

/-- A write frame of a legal byte to a 1-byte register, then a write of the cache (R110, R181). -/
theorem runSteps_writeByte_cache {s : State} {r : Reg} {v : Byte} {w : CacheWrite} {rest : List Action}
    (hm : s.params.mapOk = true) (ho : s.frOpen = false) (hh : held s r = false) (hr : isByteReg r = true)
    (hv : byteLegal r v = true) (hp : s.pending = writeFrame s.params r [v] :: .cache w :: rest) :
    ∃ t c, runSteps 2 s = .next t ∧ t.pending = rest
      ∧ t.regs = storeByte r v s.regs ∧ t.dev = writeCache w c s.dev := by
  let s₁ := byteWritten r v (.cache w :: rest) s
  let s₂ : State := { s₁ with pending := rest, dev := writeCache w (readByte s₁) s.dev }
  have hwrite : step s = .next s₁ := step_writeByteFrame hm ho hh hr hv hp
  have hcache : step s₁ = .next s₂ := step_cache rfl
  exact ⟨_, readByte s₁, (runSteps_next hwrite 1).trans (runSteps_next hcache 0), rfl, rfl, rfl⟩

/-- A setter that expands to these two steps (R180). -/
theorem runSteps_op_writeByte_cache {s : State} {o : DriverOp} {r : Reg} {v : Byte} {w : CacheWrite}
    {rest : List Action} (hm : s.params.mapOk = true) (ho : s.frOpen = false) (hh : held s r = false)
    (hr : isByteReg r = true) (hv : byteLegal r v = true)
    (he : expand s.params s.dev o = some [writeFrame s.params r [v], .cache w]) (hp : s.pending = .op o [] :: rest) :
    ∃ t c, runSteps 3 s = .next t ∧ t.pending = rest
      ∧ t.regs = storeByte r v s.regs ∧ t.dev = writeCache w c s.dev := by
  rw [runSteps_next (step_op hp he)]
  exact runSteps_writeByte_cache hm ho hh hr hv rfl

/-- A read-modify-write, its first frame over: the write frame of the byte `v` computed from it stands next (R183). -/
def atWriteBack (r : Reg) (v : Byte) (rest : List Action) (s : State) : State :=
  release r { closeFrame s with
    pending := writeFrame s.params r [v] :: rest
    reply := [status s, regByte s r 0], rmw := (r, regByte s r 0) :: s.rmw }

/-- A read-modify-write placed whole comes to the write frame of `(c & keep) | bits`, where `c` is what the register
reads (R183). -/
theorem runSteps_rmw {s : State} {r : Reg} {keep bits c : Byte} {rest : List Action} (hm : s.params.mapOk = true)
    (ho : s.frOpen = false) (hh : held s r = false) (hw : regWidth r = 1) (hc : regByte s r 0 = c)
    (hp : s.pending = rmwSteps s.params r keep bits ++ rest) (k : Nat) :
    runSteps (k + 3) s = runSteps (k + 1) (atWriteBack r ((c &&& keep) ||| bits) rest s) := by
  subst hc
  let c := regByte s r 0
  let s₁ : State := { closeFrame (popAction s) with reply := [status s, c] }
  let s₂ : State := { s₁ with pending := .writeBack r keep bits :: rest, rmw := (r, c) :: s.rmw }
  have hread : step s = .next s₁ := step_readFrame (ds := [filler]) hm ho hh hw.ge hp
  have hpop : s₁.pending = .keep r :: .writeBack r keep bits :: rest := congrArg List.tail hp
  have hkeep : step s₁ = .next s₂ := step_keep hpop rfl
  have hback : step s₂ = step (atWriteBack r ((c &&& keep) ||| bits) rest s) :=
    step_writeBack rfl List.lookup_cons_self
  rw [runSteps_next hread, runSteps_next hkeep, runSteps_succ, hback, ← runSteps_succ]

/-- The write-back releases the register it writes (R183). -/
theorem held_atWriteBack (r : Reg) (v : Byte) (rest : List Action) (s : State) :
    held (atWriteBack r v rest s) r = false := held_release r _

/-- The write frame of CONFIG with the reserved bit clear and no transmission on (R107). -/
theorem step_writeConfigFrame {s : State} {v : Byte} {rest : List Action} (hm : s.params.mapOk = true)
    (ho : s.frOpen = false) (hh : held s .config = false) (h7 : v.getLsbD 7 = false) (ht : s.txActive = false)
    (hp : s.pending = writeFrame s.params .config [v] :: rest) :
    ∃ t, step s = .next t ∧ t.pending = rest ∧ t.regs = { s.regs with config := v } := by
  let u := bufferedFrame (encodeByte s.params (.wRegister .config)) [v] s
  have hcommit : commitWrite .config u = .next { u with regs := { s.regs with config := v } } :=
    (commitWrite_config rfl rfl).trans (configWrite_stores h7 fun h => absurd h (Bool.eq_false_iff.1 ht))
  rw [step_writeFrame hm ho hh hp, hcommit, andThen_next]
  refine ⟨_, rfl, ?_, settleIrq_regs _ _⟩
  rw [settleIrq_pending, closeFrame_pending]
  exact congrArg List.tail hp

/-! ### Operations with radio events drawn in (R71, R180) -/

/-- An operation placed with gaps, its bare steps taken from an assertion no event disturbs. -/
theorem runSteps_op_interleaved {s : State} {o : DriverOp} {gaps : List Nat} {as evs rest : List Action}
    {P Q : State → Prop} (hg : gaps ≠ []) (he : expand s.params s.dev o = some as)
    (hgo : Goes (as.flatMap bareSteps) P Q) (hP : Stable P) (hs : P s) (hev : ∀ e ∈ evs, isRadioEvent e = true)
    (hl : gaps.length = evs.length) (hp : s.pending = .op o gaps :: (evs ++ rest)) :
    ∃ t, runSteps ((as.flatMap bareSteps).length + evs.length + 1) s = .next t ∧ t.pending = rest ∧ Q t := by
  obtain ⟨n, gs, rfl⟩ := List.exists_cons_of_ne_nil hg
  rw [runSteps_next (step_opWith hp he)]
  exact hgo.weave hP hev hl (hP _ _ rfl hs) rfl

/-- An operation of no steps leaves the events drawn in as they were placed. -/
theorem weave_nil_radioEvents {gaps : List Nat} {evs : List Action} (rest : List Action)
    (hev : ∀ e ∈ evs, isRadioEvent e = true) (hl : gaps.length = evs.length) :
    weave gaps [] (evs ++ rest) = evs ++ rest := by
  induction gaps generalizing evs with
  | nil => rfl
  | cons n gs ih =>
      cases evs with
      | nil => cases hl
      | cons e es =>
          rw [List.cons_append, weave_radioEvent n gs [] _ (hev e (by simp))]
          have hcut : cut n [] = ([], []) := by cases n <;> rfl
          rw [hcut, ih (fun x hx => hev x (by simp [hx])) (by simpa using hl)]
          rfl

/-! ### `set_channel`, `set_rf_frequency` (R192, R193) -/

/-- Every channel number up to 127 is a legal byte of RF_CH (R24). -/
theorem byteLegal_rfCh {n : Nat} (h : n ≤ 127) : byteLegal .rfCh (BitVec.ofNat 8 n) = true := by
  have hall : ∀ n < 128, byteLegal .rfCh (BitVec.ofNat 8 n) = true := by decide
  exact hall n (by omega)

/-- The registers are these and the cached channel is this one. -/
def ChannelSet (g : Regs) (n : Nat) (t : State) : Prop := t.regs = g ∧ t.dev.channel = n

theorem ChannelSet_stable {g : Regs} {n : Nat} : Stable (ChannelSet g n) := by
  rintro s t h ⟨hg, hn⟩
  rw [h]
  exact ⟨hg, hn⟩

theorem takes_cacheChannel {p : Params} {g : Regs} {m : List (Reg × Byte)} {T : List Byte → Prop} {n : Nat} :
    Takes (.cache (.channel n)) (Idle p g m T) (ChannelSet g n) := by
  rintro s rest ⟨-, hg, -⟩ hp
  exact ⟨_, step_cache hp, rfl, hg, rfl⟩

/-- Settles O53: with no gap by the write frame and the cache, with gaps by the same steps byte by byte, whose assertions
no radio event disturbs. -/
theorem setChannelClamps : Obligations.SetChannelClamps := by
  unfold Obligations.SetChannelClamps
  intro s c gaps evs rest hm hh ho hev hl hp
  have hv : byteLegal .rfCh (BitVec.ofNat 8 (min c 127)) = true := byteLegal_rfCh (by omega)
  by_cases hg : gaps = []
  · subst hg
    obtain rfl : evs = [] := List.length_eq_zero_iff.1 hl.symm
    obtain ⟨t, x, hrun, hrest, hregs, hdev⟩ := runSteps_op_writeByte_cache hm ho hh rfl hv rfl hp
    exact ⟨t, hrun, hregs, by rw [hdev]; rfl, hrest⟩
  · let g : Regs := { s.regs with rfCh := BitVec.ofNat 8 (min c 127) }
    have hgo : Goes ((setChannelSteps s.params c).flatMap bareSteps) (Idle s.params s.regs s.rmw fun _ => True)
        (ChannelSet g (min c 127)) :=
      Goes.writeFrame (r := .rfCh) (as := [.cache (.channel (min c 127))]) hm hh rfl hv
        ⟨_, ChannelSet_stable, takes_cacheChannel, fun _ h => h⟩
    obtain ⟨t, hrun, hrest, hregs, hchan⟩ :=
      runSteps_op_interleaved hg rfl hgo OnBus_stable ⟨rfl, rfl, rfl, ho, trivial, trivial⟩ hev hl hp
    rw [if_neg hg, show evs.length + 6 = 5 + evs.length + 1 by omega]
    exact ⟨t, hrun, hregs, hchan, hrest⟩

/-- Settles O54: the channel of the frequency is at most 125, so the clamp of `set_channel` keeps it. -/
theorem setRfFrequencyFallsBack : Obligations.SetRfFrequencyFallsBack := by
  unfold Obligations.SetRfFrequencyFallsBack
  intro s f rest hm hh ho hp
  have hv : byteLegal .rfCh (BitVec.ofNat 8 (min (channelOf f) 127)) = true := byteLegal_rfCh (by omega)
  obtain ⟨t, x, hrun, hrest, hregs, -⟩ := runSteps_op_writeByte_cache hm ho hh rfl hv rfl hp
  have hch : t.regs.rfCh.toNat = min (channelOf f) 127 := by
    rw [hregs]
    exact Nat.mod_eq_of_lt (by omega)
  refine ⟨t, hrun, hrest, fun hin => ?_, fun hout => ?_⟩
  · rw [hch, channelOf, if_pos hin]; omega
  · rw [hch, channelOf, if_neg (by omega)]; rfl

/-! ### `set_payload_size` (R201) -/

theorem toPipe_val (q : Pipe) : toPipe q.val = some q := dif_pos q.isLt

/-- Every width up to 32 is a legal byte of RX_PW (R30). -/
theorem byteLegal_rxPw (q : Pipe) {n : Nat} (h : n ≤ 32) : byteLegal (.rxPw q) (BitVec.ofNat 8 n) = true := by
  have hall : ∀ n < 33, BitVec.ofNat 8 n &&& ~~~0x3F#8 = 0#8 := by decide
  refine byteLegal_iff.2 ⟨hall n (by omega), fun _ => ?_⟩
  rw [BitVec.toNat_ofNat]
  omega

/-- The width just stored is the pipe's (R110). -/
theorem toNat_rxPw_storeByte (q : Pipe) (g : Regs) (n : Nat) :
    (storeByte (.rxPw q) (BitVec.ofNat 8 (min n 32)) g).rxPw[q].toNat = min n 32 :=
  (congrArg BitVec.toNat (storedByte_storeByte_self (r := .rxPw q) (.inl rfl) _ g)).trans
    (Nat.mod_eq_of_lt (by omega))

/-- Settles O55: the clamped width is legal, and one write frame and the cache store it. -/
theorem setPayloadSizeClamps : Obligations.SetPayloadSizeClamps := by
  unfold Obligations.SetPayloadSizeClamps
  intro s q n rest hm hh ho hp
  have hexpand : expand s.params s.dev (.setPayloadSize q.val n) = some (setPayloadSizeSteps s.params q n) := by
    rw [expand, toPipe_val]; rfl
  obtain ⟨t, x, hrun, hrest, hregs, hdev⟩ :=
    runSteps_op_writeByte_cache hm ho hh rfl (byteLegal_rxPw q (by omega)) hexpand hp
  exact ⟨t, hrun, hrest, by rw [hregs, toNat_rxPw_storeByte], by rw [hdev]; rfl⟩

/-! ### `set_power_up_and_mode` (R188) -/

/-- With the forced CRC bit off a read of CONFIG returns what is stored (R21). -/
theorem configRead_of_not_forced {s : State} (h : s.params.crcForcedByAa = false) : configRead s = s.regs.config := by
  rw [configRead, h]; rfl

/-- The byte written for Receiver: bits 0 and 1 set, the others as in `v` (R188). -/
theorem receiverConfig_getLsbD (v : Byte) {k : Nat} (hk : k < 8) :
    ((v &&& 0xFC#8) ||| 0x03#8).getLsbD k = (decide (k < 2) || v.getLsbD k) := by
  have hmask : ∀ k < 8, (0xFC#8).getLsbD k = !decide (k < 2) ∧ (0x03#8).getLsbD k = decide (k < 2) := by decide
  obtain ⟨hkeep, hbits⟩ := hmask k hk
  rw [BitVec.getLsbD_or, BitVec.getLsbD_and, hkeep, hbits]
  cases decide (k < 2) <;> simp

/-- Settles O56: the read-modify-write of CONFIG comes to one write frame, legal since bit 7 is kept and no transmission
is on; the cache is written last. -/
theorem setPowerUpAndModeKeepsTheRest : Obligations.SetPowerUpAndModeKeepsTheRest := by
  unfold Obligations.SetPowerUpAndModeKeepsTheRest
  intro s rest hm hcrc h7 hh ho ht hp
  let v := (s.regs.config &&& 0xFC#8) ||| 0x03#8
  let s₁ : State := { s with pending := setPowerUpAndModeSteps s.params .receiver ++ rest }
  have hbit {k : Nat} (hk : k < 8) : v.getLsbD k = (decide (k < 2) || s.regs.config.getLsbD k) :=
    receiverConfig_getLsbD _ hk
  have hexpand : step s = .next s₁ := step_op hp rfl
  have hrmw : runSteps 4 s₁ = runSteps 2 (atWriteBack .config v (.cache (.mode .receiver) :: rest) s₁) :=
    runSteps_rmw (s := s₁) hm ho hh rfl (configRead_of_not_forced hcrc) rfl 1
  obtain ⟨t, hwrite, hpend, hregs⟩ := step_writeConfigFrame
    (s := atWriteBack .config v (.cache (.mode .receiver) :: rest) s₁) hm rfl (held_atWriteBack ..)
    ((hbit (by decide)).trans h7) ht rfl
  have hconfig : t.regs.config = v := congrArg Regs.config hregs
  refine ⟨_, (runSteps_next hexpand 4).trans (hrmw.trans ((runSteps_next hwrite 1).trans
    (runSteps_next (step_cache hpend) 0))), rfl, ?_, ?_, fun k h2 h8 => ?_, rfl⟩
  · exact (congrArg (·.getLsbD 0) hconfig).trans (hbit (by decide))
  · exact (congrArg (·.getLsbD 1) hconfig).trans (hbit (by decide))
  · refine (congrArg (·.getLsbD k) hconfig).trans ((hbit h8).trans ?_)
    rw [decide_eq_false (by omega), Bool.false_or]

/-! ### The per-pipe bits of EN_AA and EN_RXADDR (R199, R200) -/

/-- The bits a read-modify-write of one pipe's bit keeps (R194, R199). -/
def pipeKeep (e : Bool) (q : Pipe) : Byte := if e then 0xFF#8 else ~~~pipeBit q

/-- The bits it sets. -/
def pipeSet (e : Bool) (q : Pipe) : Byte := if e then pipeBit q else 0x00#8

/-- What it writes back over `v`. -/
def withPipeBit (e : Bool) (q : Pipe) (v : Byte) : Byte := (v &&& pipeKeep e q) ||| pipeSet e q

/-- Bit `q` becomes `e`, every other bit stays (R199). -/
theorem withPipeBit_getLsbD (e : Bool) (q : Pipe) (v : Byte) {k : Nat} (hk : k < 8) :
    (withPipeBit e q v).getLsbD k = if k = q.val then e else v.getLsbD k := by
  have hmasks : ∀ (e : Bool) (q : Pipe), ∀ k < 8, (pipeKeep e q).getLsbD k = (e || !decide (k = q.val))
      ∧ (pipeSet e q).getLsbD k = (e && decide (k = q.val)) := by decide
  obtain ⟨hkeep, hset⟩ := hmasks e q k hk
  rw [withPipeBit, BitVec.getLsbD_or, BitVec.getLsbD_and, hkeep, hset]
  by_cases h : k = q.val <;> cases e <;> simp [h]

/-- EN_AA and EN_RXADDR have a bit for each of the six pipes and no other (R22, R23). -/
theorem byteLegal_pipeBits {r : Reg} (hr : r = .enAa ∨ r = .enRxaddr) (v : Byte) :
    byteLegal r v = true ↔ v.getLsbD 6 = false ∧ v.getLsbD 7 = false := by
  rcases hr with rfl | rfl <;> revert v <;> decide

/-- Setting or clearing a pipe's bit keeps the byte legal. -/
theorem byteLegal_withPipeBit {r : Reg} (hr : r = .enAa ∨ r = .enRxaddr) (e : Bool) (q : Pipe) {v : Byte}
    (hv : v &&& 0xC0#8 = 0#8) : byteLegal r (withPipeBit e q v) = true := by
  have hlegal : byteLegal r v = true := by
    rcases hr with rfl | rfl <;> exact byteLegal_iff.2 ⟨hv, nofun⟩
  rw [byteLegal_pipeBits hr] at hlegal ⊢
  rw [withPipeBit_getLsbD e q v (by decide), withPipeBit_getLsbD e q v (by decide), if_neg (by omega),
    if_neg (by omega)]
  exact hlegal

/-! ### `set_auto_acknowledgement` of one pipe (R199) -/

/-- The two expansions of R199 are one read-modify-write. -/
theorem expand_setAutoAckPipe (p : Params) (d : Dev) (e : Bool) (q : Pipe) :
    expand p d (.setAutoAckPipe e q.val) = some (rmwSteps p .enAa (pipeKeep e q) (pipeSet e q)) := by
  rw [expand, toPipe_val]
  cases e <;> rfl

/-- An operation that is one read-modify-write of a 1-byte register, its frames whole or with radio events drawn in
between its steps (R183, R71). -/
theorem runSteps_op_rmw {s : State} {o : DriverOp} {gaps : List Nat} {evs rest : List Action} {r : Reg}
    {keep bits : Byte} (hm : s.params.mapOk = true) (ho : s.frOpen = false) (hh : held s r = false)
    (hr : isByteReg r = true) (hw : regWidth r = 1)
    (hv : byteLegal r ((storedByte s.regs r &&& keep) ||| bits) = true)
    (he : expand s.params s.dev o = some (rmwSteps s.params r keep bits))
    (hev : ∀ e ∈ evs, isRadioEvent e = true) (hl : gaps.length = evs.length)
    (hp : s.pending = .op o gaps :: (evs ++ rest)) :
    ∃ t, runSteps (if gaps = [] then 4 else evs.length + 10) s = .next t ∧ t.pending = rest
      ∧ t.regs = storeByte r ((storedByte s.regs r &&& keep) ||| bits) s.regs := by
  by_cases hg : gaps = []
  · subst hg
    obtain rfl : evs = [] := List.length_eq_zero_iff.1 hl.symm
    let s₁ : State := { s with pending := rmwSteps s.params r keep bits ++ rest }
    have hexpand : step s = .next s₁ := step_op hp he
    have hrmw := runSteps_rmw (s := s₁) hm ho hh hw (regByte_of_isByteReg hr s₁) rfl 0
    have hwrite := step_writeByteFrame
      (s := atWriteBack r ((storedByte s.regs r &&& keep) ||| bits) rest s₁) hm rfl (held_atWriteBack ..) hr hv rfl
    exact ⟨_, (runSteps_next hexpand 3).trans (hrmw.trans (runSteps_next hwrite 0)), rfl, rfl⟩
  · have hgo : Goes ((rmwSteps s.params r keep bits).flatMap bareSteps ++ [])
        (Idle s.params s.regs s.rmw fun _ => True)
        fun t => t.regs = storeByte r ((storedByte s.regs r &&& keep) ||| bits) s.regs :=
      Goes.rmw hm hh hr hv fun _ _ ⟨_, hregs, _⟩ => hregs
    rw [List.append_nil] at hgo
    rw [if_neg hg, show evs.length + 10 = 9 + evs.length + 1 by omega]
    exact runSteps_op_interleaved hg he hgo OnBus_stable ⟨rfl, rfl, rfl, ho, trivial, trivial⟩ hev hl hp

/-- Settles O57: a pipe up to 5 is one read-modify-write of EN_AA, which changes the pipe's bit only; a pipe above 5
expands to no step, and what is drawn in stays as it was placed. -/
theorem setAutoAckPipeTouchesOneBit : Obligations.SetAutoAckPipeTouchesOneBit := by
  unfold Obligations.SetAutoAckPipeTouchesOneBit
  intro s e pipe gaps evs rest hm hh hlegal ho hev hl hp
  refine ⟨fun h5 => ?_, fun h5 => ?_⟩
  · obtain ⟨q, rfl⟩ : ∃ q : Pipe, q.val = pipe := ⟨⟨pipe, by omega⟩, rfl⟩
    obtain ⟨t, hrun, hrest, hregs⟩ := runSteps_op_rmw hm ho hh rfl rfl
      (byteLegal_withPipeBit (.inl rfl) e q hlegal) (expand_setAutoAckPipe ..) hev hl hp
    have hbit {k : Nat} (hk : k < 8) : t.regs.enAa.getLsbD k = if k = q.val then e else s.regs.enAa.getLsbD k := by
      rw [hregs]
      exact withPipeBit_getLsbD e q s.regs.enAa hk
    exact ⟨t, hrun, hrest, (hbit (by omega)).trans (if_pos rfl), fun k hk hne => (hbit hk).trans (if_neg hne)⟩
  · have hexpand : expand s.params s.dev (.setAutoAckPipe e pipe) = some [] := by
      rw [expand, toPipe, dif_neg (by omega)]
    rw [step_opWith hp hexpand]
    cases gaps with
    | nil => rfl
    | cons n gs => rw [interleave, List.flatMap_nil, weave_nil_radioEvents rest hev hl]

/-! ### `attach_receive_payload` (R202) -/

theorem expand_attachReceivePayload (p : Params) (d : Dev) (q : Pipe) (a : Address) (n : Nat) :
    expand p d (.attachReceivePayload q.val a n) = some (attachAddressSteps p q a ++ setPayloadSizeSteps p q n) := by
  rw [expand, toPipe_val]
  rfl

/-- Settles O58: three write frames, of the address, of the enable bits read back with the pipe's bit set, and of the
width, each of another register; the cache is written last. -/
theorem attachReceivePayloadConfiguresThePipe : Obligations.AttachReceivePayloadConfiguresThePipe := by
  unfold Obligations.AttachReceivePayloadConfiguresThePipe
  intro s q a n rest hm hrmw hlegal ho hp
  have hfree (r : Reg) : held s r = false := by rw [held, hrmw]; rfl
  let v := withPipeBit true q s.regs.enRxaddr
  let widthSteps := setPayloadSizeSteps s.params q n ++ rest
  let s₁ : State := { s with pending := attachAddressSteps s.params q a ++ widthSteps }
  let s₂ : State := { closeFrame s₁ with
    pending := rmwSteps s.params .enRxaddr 0xFF (pipeBit q) ++ widthSteps
    reply := status s :: (List.range 5).map fun k => Config.draw (s.draws + k)
    draws := s.draws + 5, regs := storeAddr (.rxAddr q) a s.regs }
  let s₃ : State := atWriteBack .enRxaddr v widthSteps s₂
  have hexpand : step s = .next s₁ := by
    rw [step_op hp (expand_attachReceivePayload ..), List.append_assoc]
  have haddr : step s₁ = .next s₂ := step_writeAddrFrame (r := .rxAddr q) hm ho (hfree _) rfl rfl
  have hbits : runSteps 5 s₂ = runSteps 3 s₃ :=
    runSteps_rmw (s := s₂) (r := .enRxaddr) hm rfl (hfree _) rfl rfl rfl 2
  have henable : step s₃ = .next (byteWritten .enRxaddr v widthSteps s₃) :=
    step_writeByteFrame (s := s₃) hm rfl (held_atWriteBack ..) rfl
      (byteLegal_withPipeBit (.inr rfl) true q hlegal) rfl
  have hnone : s₃.rmw = [] := by simp [s₃, s₂, s₁, atWriteBack, release, hrmw]
  obtain ⟨t, x, hwidth, hrest, hregs, -⟩ := runSteps_writeByte_cache (s := byteWritten .enRxaddr v widthSteps s₃)
    (r := .rxPw q) hm rfl (by rw [held, byteWritten, closeFrame_rmw, hnone]; rfl) rfl
    (byteLegal_rxPw q (Nat.min_le_right n 32)) rfl
  have hbit {k : Nat} (hk : k < 8) :
      t.regs.enRxaddr.getLsbD k = if k = q.val then true else s.regs.enRxaddr.getLsbD k := by
    rw [hregs]
    exact withPipeBit_getLsbD true q s.regs.enRxaddr hk
  refine ⟨t, (runSteps_next hexpand 6).trans ((runSteps_next haddr 5).trans (hbits.trans
    ((runSteps_next henable 2).trans hwidth))), hrest, ?_, ?_, (hbit (by omega)).trans (if_pos rfl),
    fun k hk hne => (hbit hk).trans (if_neg hne)⟩
  · rw [hregs]
    exact Vector.getElem_set_self q.isLt
  · rw [hregs, toNat_rxPw_storeByte]

/-! ### `clear_interrupt_flags` (R210) -/

/-- With no flag set the line is released (R235). -/
theorem irqN_of_no_flag {s : State} (h1 : s.rxDr = false) (h2 : s.txDs = false) (h3 : s.maxRt = false) :
    irqN s = true := by
  rw [irqN, h1, h2, h3]; rfl

/-- The byte 0x7E names all three flags (R108, R210). -/
theorem clearFlags_all (s : State) : clearFlags 0x7E#8 s = { s with rxDr := false, txDs := false, maxRt := false } := by
  have h6 : (0x7E#8).getLsbD 6 = true := by decide
  have h5 : (0x7E#8).getLsbD 5 = true := by decide
  have h4 : (0x7E#8).getLsbD 4 = true := by decide
  simp only [clearFlags, h6, h5, h4, Bool.not_true, Bool.and_false]

/-- Settles O60: the expansion is the one frame; its commit acknowledges every flag, after which the line is released,
so it did not fall. -/
theorem clearInterruptFlagsReleasesTheLine : Obligations.ClearInterruptFlagsReleasesTheLine := by
  unfold Obligations.ClearInterruptFlagsReleasesTheLine
  intro s rest hm hh ho hp
  let s₁ : State := { s with pending := .frame [encodeByte s.params (.wRegister .status), 0x7E] :: rest }
  let u := bufferedFrame (encodeByte s.params (.wRegister .status)) [0x7E] s₁
  let t : State := { u with rxDr := false, txDs := false, maxRt := false }
  have hexpand : step s = .next s₁ := step_op hp rfl
  have hcommit : commitWrite .status u = .next t :=
    (commitWrite_status rfl rfl).trans ((statusWrite_clears (by decide)).trans (congrArg _ (clearFlags_all u)))
  have hline : irqN (closeFrame t) = true := irqN_of_no_flag rfl rfl rfl
  have hframe : step s₁ = .next (closeFrame t) := by
    rw [step_writeFrame (s := s₁) hm ho hh rfl, hcommit, andThen_next, settleIrq_eq_self (by rw [hline]; simp)]
  refine ⟨hexpand, fun hdefault => ?_, closeFrame t, (runSteps_next hexpand 1).trans (runSteps_next hframe 0), rfl,
    rfl, rfl, rfl, hline, rfl⟩
  rw [encodeByte, Params.addrOf, hdefault]
  decide

end Sys2Proof.Machine

/-! PROOFS of the statements of spec/60_exceptions.md: when an interrupt edge is emitted, what it invokes, and which
steps can emit one. -/

namespace Sys2Proof.Machine

/-! ### What happens to the line, the edges and the invocations before an edge is settled -/

/-- No write of the cache is an invocation (R181, R240). -/
theorem writeCache_calls (w : CacheWrite) (c : Option Byte) (d : Dev) : (writeCache w c d).calls = d.calls := by
  cases w with
  | modeFromConfig => cases c <;> rfl
  | _ => rfl

/-- No commit counts an edge or touches the driver object: that is left to `settleIrq` (R236, R240). -/
theorem commitOf_edges_dev {i : Instr} {s t : State} (h : commitOf i s = .next t) :
    t.edges = s.edges ∧ t.dev = s.dev := by
  by_cases hw : ∃ r, i = .wRegister r
  · obtain ⟨r, rfl⟩ := hw
    rcases commitWrite_cases h with ⟨v, -, -, -, rfl⟩ | ⟨v, -, rfl⟩ | ⟨v, -, -, rfl⟩ | ⟨a, -, rfl⟩
    all_goals exact ⟨rfl, rfl⟩
  · rw [commitOf_fifosOnly (not_exists.1 hw) h]
    exact ⟨rfl, rfl⟩

/-- Only a write of CONFIG, which holds the masks, can make the line fall by its commit: a write of STATUS clears flags,
every other commit leaves flags and masks (R235, R239). -/
theorem commitOf_keeps_line_high {i : Instr} {s t : State} (hi : i ≠ .wRegister .config)
    (h : commitOf i s = .next t) (hs : irqN s = true) : irqN t = true := by
  have hconfig : t.regs.config = s.regs.config := (commitOf_config h).resolve_right hi
  rcases commitOf_flags h with ⟨hrx, htx, hmax⟩ | ⟨-, v, rfl⟩
  · rw [irqN_congr hrx htx hmax hconfig, hs]
  · exact irqN_clearFlags v s hs

/-! ### Every step is quiet or settles the line (R236, R239) -/

/-- No edge, no invocation, and a line that was high is high. -/
def quiet (s t : State) : Prop :=
  t.edges = s.edges ∧ t.dev.calls = s.dev.calls ∧ (irqN s = true → irqN t = true)

/-- One edge, and one invocation of the attached callback, exactly when the line fell (R236, R240). -/
def edgeOnFall (s t : State) : Prop :=
  t.edges = s.edges + (if irqN s = true ∧ irqN t = false then 1 else 0)
    ∧ t.dev.calls = s.dev.calls ++ (if irqN s = true ∧ irqN t = false then s.dev.cb.toList else [])

/-- The next step is one of those R239 lists: a radio event, or the end of a frame that writes CONFIG. -/
abbrev edgeSource (s : State) : Prop :=
  (∃ p d rest, s.pending = .evRx p d :: rest) ∨ (∃ rest, s.pending = .evTxOk :: rest)
    ∨ (∃ rest, s.pending = .evTxFail :: rest) ∨ (∃ p rest, s.pending = .evAckDone p :: rest)
    ∨ endsFrameOf s (.wRegister .config)

/-- A quiet step sees no fall of the line, and records nothing. -/
theorem edgeOnFall_of_quiet {s t : State} (h : quiet s t) : edgeOnFall s t := by
  obtain ⟨hedges, hcalls, hhigh⟩ := h
  have hno : ¬(irqN s = true ∧ irqN t = false) := fun ⟨hs, ht⟩ => Bool.eq_false_iff.1 ht (hhigh hs)
  rw [edgeOnFall, if_neg hno, if_neg hno, List.append_nil]
  exact ⟨hedges, hcalls⟩

/-- `settleIrq` compares the line of the state it settles, which the edge leaves as it is, with the line of `v`, which is
that before the step. -/
theorem edgeOnFall_settleIrq {s v u : State} (hline : irqN v = irqN s) (hedges : u.edges = s.edges)
    (hdev : u.dev = s.dev) : edgeOnFall s (settleIrq v u) := by
  rw [edgeOnFall, settleIrq_edges, settleIrq_calls, settleIrq_irqN, hline, hedges, hdev]
  exact ⟨rfl, rfl⟩

/-- What only the bus touched is quiet. -/
theorem quiet_of_busOnly {s t : State} (h : busOnly s t) : quiet s t := by
  rw [quiet, busOnly_irqN h, h]
  exact ⟨rfl, rfl, id⟩

/-- The end of a frame is quiet, or it settles the line after a write of CONFIG (R83, R236). -/
theorem commit_quiet_or_edgeOnFall {i : Instr} {s v u : State} (hb : busOnly s v) (hu : commitOf i v = .next u) :
    quiet s (settleIrq v (closeFrame u))
      ∨ i = .wRegister .config ∧ edgeOnFall s (settleIrq v (closeFrame u)) := by
  obtain ⟨hedges, hdev⟩ := commitOf_edges_dev hu
  rw [hb] at hedges hdev
  by_cases hi : i = .wRegister .config
  · exact .inr ⟨hi, edgeOnFall_settleIrq (busOnly_irqN hb) hedges hdev⟩
  · have hhigh : irqN v = true → irqN (closeFrame u) = true := fun hv =>
      (busOnly_irqN (busOnly_closeFrame u)).trans (commitOf_keeps_line_high hi hu hv)
    rw [settleIrq_eq_self fun ⟨hv, ht⟩ => Bool.eq_false_iff.1 ht (hhigh hv)]
    exact .inl ⟨hedges, congrArg Dev.calls hdev, busOnly_irqN hb ▸ hhigh⟩

/-- A step outside R239's list is quiet; one of the list is quiet too, or settles the line. -/
theorem step_quiet_or_edgeOnFall {s t : State} (h : step s = .next t) :
    quiet s t ∨ edgeSource s ∧ edgeOnFall s t := by
  have hpop : quiet s (popAction s) := ⟨rfl, rfl, id⟩
  rcases step_cases h with hb | ⟨i, v, u, hb, hu, rfl, he⟩ | ⟨w, rest, -, rfl⟩ | ⟨r, rest, -, rfl⟩
    | ⟨rest, -, rfl⟩ | ⟨rest, -, rfl⟩ | ⟨rest, -, rfl⟩ | ⟨rest, -, rfl⟩ | ⟨p, d, rest, hp, rfl⟩
    | ⟨rest, hp, rfl⟩ | ⟨rest, hp, rfl⟩ | ⟨p, rest, hp, rfl⟩ | ⟨rest, -, rfl⟩
  · exact .inl (quiet_of_busOnly hb)
  · rcases commit_quiet_or_edgeOnFall hb hu with hq | ⟨rfl, hs⟩
    · exact .inl hq
    · exact .inr ⟨.inr (.inr (.inr (.inr he))), hs⟩
  · exact .inl ⟨rfl, writeCache_calls w _ _, id⟩
  · exact .inl ⟨rfl, rfl, id⟩
  · exact .inl ⟨rfl, rfl, id⟩
  · exact .inl ⟨rfl, rfl, id⟩
  · rw [cePulse_eq]; exact .inl ⟨rfl, rfl, id⟩
  · rw [txStart_eq]; exact .inl ⟨rfl, rfl, id⟩
  · rcases evRx_shape p d (popAction s) with he | ⟨_, he⟩ <;> rw [he]
    · exact .inl hpop
    · exact .inr ⟨.inl ⟨p, d, rest, hp⟩, edgeOnFall_settleIrq rfl rfl rfl⟩
  · rcases evTxOk_cases (popAction s) with he | ⟨-, he⟩ <;> rw [he]
    · exact .inl hpop
    · exact .inr ⟨.inr (.inl ⟨rest, hp⟩), edgeOnFall_settleIrq rfl rfl rfl⟩
  · rcases evTxFail_cases (popAction s) with he | ⟨-, he⟩ <;> rw [he]
    · exact .inl hpop
    · exact .inr ⟨.inr (.inr (.inl ⟨rest, hp⟩)), edgeOnFall_settleIrq rfl rfl rfl⟩
  · rcases evAckDone_cases p (popAction s) with he | ⟨_, _, _, _, _, _, _, _, _, he⟩ <;> rw [he]
    · exact .inl hpop
    · exact .inr ⟨.inr (.inr (.inr (.inl ⟨p, rest, hp⟩))), edgeOnFall_settleIrq rfl rfl rfl⟩
  · exact .inl ⟨rfl, rfl, fun _ => rfl⟩

/-- Settles O45: a quiet step sees no fall of the line, and every other step settles it. -/
theorem edgeExactlyWhenTheLineFalls : Obligations.EdgeExactlyWhenTheLineFalls := by
  unfold Obligations.EdgeExactlyWhenTheLineFalls
  intro s t h
  rcases step_quiet_or_edgeOnFall h with hq | ⟨-, he⟩
  · exact edgeOnFall_of_quiet hq
  · exact he

/-- Settles O46: a step that is not quiet is one of R239's. -/
theorem onlyEventsAndConfigWritesEmitEdges : Obligations.OnlyEventsAndConfigWritesEmitEdges := by
  unfold Obligations.OnlyEventsAndConfigWritesEmitEdges
  intro s t h hne
  rcases step_quiet_or_edgeOnFall h with ⟨hedges, -⟩ | ⟨hsource, -⟩
  · exact absurd hedges hne
  · exact hsource

end Sys2Proof.Machine

/-! PROOFS of the statements of spec/70_reset_and_hazards.md: what reset leaves of the state, and the derived values
after it. -/

namespace Sys2Proof.Machine

/-! ### The reset step (R260) -/

theorem step_reset {s : State} {rest : List Action} (hp : s.pending = .reset :: rest) :
    step s = .next (resetBlock { s with pending := rest }) := by
  simp only [step, hp, popAction_of_pending hp]

/-- Settles O41: the step is `resetBlock`, which names every piece of the block's state. -/
theorem resetRestoresTheBlock : Obligations.ResetRestoresTheBlock := by
  unfold Obligations.ResetRestoresTheBlock
  intro s rest hp
  exact step_reset hp

/-! ### The derived values after reset (R263) -/

/-- Admissible parameters give the FIFOs room for an entry (D8). -/
theorem paramsOk_fifoDepth {p : Params} (h : paramsOk p = true) : 1 ≤ p.fifoDepth := by
  simp only [paramsOk, Bool.and_eq_true, decide_eq_true_eq] at h
  obtain ⟨⟨⟨⟨⟨⟨_, hdepth⟩, _⟩, _⟩, _⟩, _⟩, _⟩ := h
  exact hdepth

section
variable {s : State}

/-- An empty TXF with room for an entry is not full (R27). -/
theorem txFull_of_txf_nil (hd : 1 ≤ s.params.fifoDepth) (h : s.txf = []) : txFull s = false := by
  rw [txFull, h, List.length_nil, beq_eq_false_iff_ne]; omega

/-- An empty RXF with room for an entry is not full (R37). -/
theorem rxFull_of_rxf_nil (hd : 1 ≤ s.params.fifoDepth) (h : s.rxf = []) : rxFull s = false := by
  rw [rxFull, h, List.length_nil, beq_eq_false_iff_ne]; omega

/-- With no flag set, RXF empty and room in TXF, STATUS is its pipe field `0b111` alone (R26, R27). -/
theorem status_of_idle (h1 : s.rxDr = false) (h2 : s.txDs = false) (h3 : s.maxRt = false) (hr : s.rxf = [])
    (hf : txFull s = false) : status s = 0x0E := by
  rw [status, rxPNo, h1, h2, h3, hr, hf]; decide

/-- With both FIFOs empty and room in them, FIFO_STATUS is the two empty bits alone (R36, R37). -/
theorem fifoStatus_of_empty (hd : 1 ≤ s.params.fifoDepth) (ht : s.txf = []) (hr : s.rxf = []) :
    fifoStatus s = 0x11 := by
  rw [fifoStatus, txFull_of_txf_nil hd ht, rxFull_of_rxf_nil hd hr, txEmpty, rxEmpty, ht, hr]; decide

/-- Reset gives STATUS, FIFO_STATUS, the line and the mode the values of R263 in every state with admissible
parameters. -/
theorem derivedValues_resetBlock (h : paramsOk s.params = true) :
    status (resetBlock s) = 0x0E ∧ fifoStatus (resetBlock s) = 0x11 ∧ irqN (resetBlock s) = true
      ∧ mode (resetBlock s) = .powerDown := by
  have hdepth : 1 ≤ (resetBlock s).params.fifoDepth := paramsOk_fifoDepth h
  have hpwr : pwrUp (resetBlock s) = false := paramsOk_resetPwrUp h
  exact ⟨status_of_idle rfl rfl rfl rfl (txFull_of_txf_nil hdepth rfl), fifoStatus_of_empty hdepth rfl rfl,
    irqN_of_no_flag rfl rfl rfl, mode_of_not_pwrUp hpwr⟩

end

/-- Settles O42: the state after reset is what the supply's reset makes of it, under admissible parameters. -/
theorem derivedValuesAfterReset : Obligations.DerivedValuesAfterReset :=
  derivedValues_resetBlock (s := State.reset) (by decide)

end Sys2Proof.Machine
